-- ==== Sys2Proof/Word.lean ====
section
/-! DEFINITION. Words of the block: bytes, 32-bit register words, and node indices. -/

namespace Sys2Proof

/-- A byte; also a symbol, "one byte value (0–255)" (R6, R17). -/
abbrev Byte := BitVec 8

/-- A register, count, weight or length: unsigned, 32 bits (R7, R24). -/
abbrev Word := BitVec 32

/-- The index of a NODE entry, 0 to 510 (R9, R42). A 9-bit link holds one of these or NONE = 511,
which is `Option NodeIx` (log 17). -/
abbrev NodeIx := Fin 511

end Sys2Proof
end

