-- ==== Sys2Proof/Config.lean ====
section
/-! DEFINITION. What is fixed for the block, and its free values: the constants of the spec, and the opaque
draws behind everything the spec calls unspecified. -/

namespace Sys2Proof

/-- ID reads as this constant (R2, R27). -/
def Config.idWord : Word := 0x48554631

/-- log2 of the spec's default buffer size, 65536 bytes (R8). -/
def Config.defaultSizeLog2 : Fin 29 := 16

/-- MAXCODE, the longest possible code in bits (R9). -/
def Config.maxCode : Nat := 255

/-- NODE_MAX, the number of node slots (R9). -/
def Config.nodeMax : Nat := 511

/-- The largest count, weight and running sum: 2^32 − 1 (R7, R146). -/
def Config.countMax : Nat := 2 ^ 32 - 1

/-! The free draws (R14, R53, R74, R214, R241, R243). The first argument numbers the draw, so that every
reset, havoc and ERROR read takes new values; no value of any of them can be proved (log 4, 6, 7). -/

/-- FREQ[s] after the reset whose draw has this number (R53). -/
opaque Config.freeFreq : (draw : Nat) → (s : Nat) → Word
/-- NODE[i].weight after a reset (R53). -/
opaque Config.freeNodeWeight : (draw : Nat) → (i : Nat) → Word
/-- NODE[i].internal after a reset (R53). -/
opaque Config.freeNodeInternal : (draw : Nat) → (i : Nat) → Bool
/-- NODE[i].sym after a reset (R53). -/
opaque Config.freeNodeSym : (draw : Nat) → (i : Nat) → Byte
/-- NODE[i].left after a reset (R53). -/
opaque Config.freeNodeLeft : (draw : Nat) → (i : Nat) → Option NodeIx
/-- NODE[i].right after a reset (R53). -/
opaque Config.freeNodeRight : (draw : Nat) → (i : Nat) → Option NodeIx
/-- The code bits of CODE[s] after a reset (R53), before the cut to MAXCODE bits. -/
opaque Config.freeCode : (draw : Nat) → (s : Nat) → List Bool
/-- The byte at index k of a buffer that nothing has written since the draw (R53, R214). -/
opaque Config.freeByte : (draw : Nat) → (k : Nat) → Byte
/-- The rdata of an ERROR read, or of an access dropped by reset (R74, R243). -/
opaque Config.freeRdata : (draw : Nat) → Word
/-- Whether an access dropped by reset is answered with ERROR (R243). -/
opaque Config.freeRespError : (draw : Nat) → Bool

end Sys2Proof
end

