-- ==== Sys2Proof/Syntax.lean ====
section
/-! DEFINITION. Syntax: the six commands, the CMD32 word format, and host programs. -/

namespace Sys2Proof

/-- The commands, one per row of the opcode table (R101). No command has an operand field (R103). -/
inductive Instr where
  | clrfreq
  | count
  | build
  | derive
  | encode
  | decode
  deriving DecidableEq, Repr

/-- The one command format, CMD32 (R100): OP in bits 3:0, RSV in bits 31:4. -/
structure Cmd32 where
  op  : BitVec 4
  rsv : BitVec 28
  deriving DecidableEq, Repr

/-- The size of a bus transaction: 1, 2 or 4 bytes (R21). -/
inductive Size where
  | b1
  | b2
  | b4
  deriving DecidableEq, Repr

/-- The number of bytes of a transaction. -/
def Size.bytes : Size → Nat
  | .b1 => 1
  | .b2 => 2
  | .b4 => 4

/-- One transaction of the register bus (R21). For size n only the low 8n bits of `wdata` are used. -/
structure Access where
  addr  : BitVec 32
  size  : Size
  write : Bool
  wdata : Word
  deriving DecidableEq, Repr

/-- One line of a host program (R110), or the pseudo-instruction `wait` (R111), which is the host's own
polling loop and so stays one item here (log 18). -/
inductive HostOp where
  | access (a : Access)
  | wait
  deriving DecidableEq, Repr

/-- `w8` (R110). -/
def HostOp.w8 (off : BitVec 32) (v : Byte) : HostOp := .access ⟨off, .b1, true, v.setWidth 32⟩
/-- `w16` (R110). -/
def HostOp.w16 (off : BitVec 32) (v : BitVec 16) : HostOp := .access ⟨off, .b2, true, v.setWidth 32⟩
/-- `w32` (R110). -/
def HostOp.w32 (off : BitVec 32) (v : Word) : HostOp := .access ⟨off, .b4, true, v⟩
/-- `r8` (R110). -/
def HostOp.r8 (off : BitVec 32) : HostOp := .access ⟨off, .b1, false, 0⟩
/-- `r16` (R110). -/
def HostOp.r16 (off : BitVec 32) : HostOp := .access ⟨off, .b2, false, 0⟩
/-- `r32` (R110). -/
def HostOp.r32 (off : BitVec 32) : HostOp := .access ⟨off, .b4, false, 0⟩

/-- `clrirq` (R111). -/
def HostOp.clrirq : HostOp := .w32 0x000C 0x3
/-- `setfreq s, v` (R111). -/
def HostOp.setfreq (s : Byte) (v : Word) : HostOp := .w32 (0x0400 + 4 * s.setWidth 32) v

end Sys2Proof
end

