-- ==== Sys2Proof/WellFormed.lean ====
section
/-! DEFINITION. Well-formedness: which CMD32 words are commands, and which instructions are well formed. -/

namespace Sys2Proof

/-- OP is listed in the opcode map (R101). -/
def Cmd32.opListed (c : Cmd32) : Bool := 1 ≤ c.op.toNat && c.op.toNat ≤ 6

/-- The reserved field is 0 (R100). -/
def Cmd32.rsvZero (c : Cmd32) : Bool := c.rsv == 0

/-- A command word is legal exactly when RSV = 0 and OP is listed (R101). -/
def Cmd32.wf (c : Cmd32) : Bool := c.rsvZero && c.opListed

/-- Every term of `Instr` is well formed: a command has no field that could be out of range (R103). -/
def Instr.wf : Instr → Bool
  | .clrfreq => true
  | .count => true
  | .build => true
  | .derive => true
  | .encode => true
  | .decode => true

end Sys2Proof
end

