-- ==== Sys2Proof/Decode.lean ====
section
/-! DEFINITION. Decoding a 32-bit command word, rejecting by name, and the encoder. -/

namespace Sys2Proof

/-- Why a command word is illegal (R102). -/
inductive Reject where
  /-- RSV ≠ 0, with any OP. -/
  | reservedBits
  /-- RSV = 0 and OP ∈ 0x0, 0x7, …, 0xF. -/
  | opcode
  deriving DecidableEq, Repr

/-- The fields of a command word (R100). -/
def Cmd32.ofWord (w : Word) : Cmd32 := ⟨w.extractLsb' 0 4, w.extractLsb' 4 28⟩

/-- The word with these fields (R100). -/
def Cmd32.toWord (c : Cmd32) : Word := c.rsv ++ c.op

/-- The command with this OP (R101), or none where the OP is not listed (R102). -/
def decodeOp (op : BitVec 4) : Option Instr :=
  match op.toNat with
  | 1 => some .clrfreq
  | 2 => some .count
  | 3 => some .build
  | 4 => some .derive
  | 5 => some .encode
  | 6 => some .decode
  | _ => none

/-- The command a word encodes, or why it is illegal (R101, R102). No mode changes how a word decodes (R108). -/
def decode (w : Word) : Except Reject Instr :=
  if (Cmd32.ofWord w).rsv = 0 then
    match decodeOp (Cmd32.ofWord w).op with
    | some i => .ok i
    | none => .error .opcode
  else .error .reservedBits

/-- The OP of a command (R101). -/
def Instr.op : Instr → BitVec 4
  | .clrfreq => 0x1
  | .count => 0x2
  | .build => 0x3
  | .derive => 0x4
  | .encode => 0x5
  | .decode => 0x6

/-- The one word that encodes a command (R101). -/
def encode (i : Instr) : Word := Cmd32.toWord ⟨i.op, 0⟩

/-- `cmd <MNEMONIC>`: the CMD write of a command's word (R111). -/
def HostOp.cmd (i : Instr) : HostOp := .w32 0x0004 (encode i)

/-- The command the decoder reads from the low `nbits` bits of `w`, every bit above them 0.
A command is always one 32-bit word (R100). -/
def decodeTableWord (nbits w : Nat) : Option Instr :=
  match decode (BitVec.ofNat 32 (w % 2 ^ nbits)) with
  | .ok i => some i
  | .error _ => none

end Sys2Proof
end

