-- ==== Sys2Proof/Machine/State.lean ====
section
/-! DEFINITION. The state of the block and of its host port, its fault and refusal reasons, and the state after reset. -/

namespace Sys2Proof.Machine

/-- One entry of the node arena (R42). A leaf has `internal = false` and both links NONE. -/
structure Node where
  weight   : Word
  internal : Bool
  sym      : Byte
  left     : Option NodeIx
  right    : Option NodeIx
  deriving DecidableEq, Repr

/-- One entry of the code table (R45): the code bits, c_0 first (R15). Its `len` is the length of the
sequence and 0 means the symbol has no code. -/
abbrev Code := List Bool

/-- A buffer (R49): the bytes written since the last draw, as (index, byte) pairs with strictly rising
indices, and the number of the draw behind every other byte (log 5). -/
structure Memory where
  cells : List Host.Cell
  draw  : Nat
  deriving DecidableEq, Repr

/-- The response of a bus transaction (R21). -/
inductive Resp where
  | okay
  | error
  deriving DecidableEq, Repr

/-- The meaningful bits of a transaction's read data (R21): 8n bits for size n (log 8). -/
inductive Data where
  | b1 (v : BitVec 8)
  | b2 (v : BitVec 16)
  | b4 (v : BitVec 32)
  deriving DecidableEq, Repr

/-- What the bus answers: the response, and the read data of a read. -/
structure Answer where
  resp  : Resp
  rdata : Option Data
  deriving DecidableEq, Repr

/-- Which agent or event moves in a step (R20, R82). -/
inductive Turn where
  /-- The host agent: its next access, or the one it waits for. -/
  | host
  /-- The engine: one completion, if a command is pending. -/
  | engine
  /-- The reset event: a clock edge with rst = 1 (R240). -/
  | reset
  deriving DecidableEq, Repr

/-- The whole state: the block's (R23, R40 to R53), the held bus access (R80), and the model's own account
of the outside world (host program, schedule, answers, draw counter; log 1, 2, 4).
STATUS.BUSY is stored once, as `pending` (R51, log 10). -/
structure State where
  /-- `pending` (R51): the command word accepted and not yet completed. -/
  pending    : Option Word
  /-- STATUS.DONE (R31). -/
  done       : Bool
  /-- STATUS.ERR (R32). -/
  err        : Bool
  /-- STATUS.TREE_VALID (R33). -/
  treeValid  : Bool
  /-- STATUS.CODES_VALID (R33). -/
  codesValid : Bool
  /-- STATUS.ERRCODE (R32, R211). -/
  errCode    : BitVec 4
  /-- STATUS.LASTOP (R34). -/
  lastOp     : BitVec 4
  /-- IRQ_PEND.DONE_P (R35). -/
  donePend   : Bool
  /-- IRQ_PEND.ERR_P (R35). -/
  errPend    : Bool
  /-- IRQ_EN.DONE_E (R36). -/
  doneEn     : Bool
  /-- IRQ_EN.ERR_E (R36). -/
  errEn      : Bool
  /-- SRC_LEN (R37). -/
  srcLen     : Word
  /-- DEC_COUNT (R38). -/
  decCount   : Word
  /-- OUT_LEN (R39). -/
  outLen     : Word
  /-- OUT_BITS (R39). -/
  outBits    : Word
  /-- TREE_ROOT (R43); `none` is NONE. -/
  treeRoot   : Option NodeIx
  /-- NODE_COUNT (R43). -/
  nodeCount  : BitVec 10
  /-- NLEAF (R43). -/
  nleaf      : BitVec 9
  /-- ERR_POS (R47). -/
  errPos     : Word
  /-- ERR_BIT (R47). -/
  errBit     : Word
  /-- IBUF_SIZE is 2 to this power (R8, R48); no step changes it (log 3). -/
  ibufLog2   : Fin 29
  /-- OBUF_SIZE is 2 to this power (R8, R48); no step changes it (log 3). -/
  obufLog2   : Fin 29
  /-- FREQ (R40). -/
  freq       : Vector Word 256
  /-- NODE (R42). -/
  node       : Vector Node 511
  /-- CODE (R45). -/
  code       : Vector Code 256
  /-- IBUF (R49). -/
  ibuf       : Memory
  /-- OBUF (R49). -/
  obuf       : Memory
  /-- The host access that waits for completion (R80). -/
  held       : Option Access
  /-- MODEL: the rest of the host program (R19, R110). -/
  hostOps    : List HostOp
  /-- MODEL: whose turn comes next; after its end the engine goes first (R249). -/
  schedule   : List Turn
  /-- MODEL: what the bus has answered, newest first (R21). -/
  answers    : List Answer
  /-- MODEL: how many free draws have been made (R14). -/
  draws      : Nat
  deriving DecidableEq, Repr

/-- Why the machine stops. -/
inductive Fault where
  /-- Raised by DERIVE alone, on a NODE arena in which a path from TREE_ROOT comes back to itself: the loop
  of R160 then never ends. BUILD makes no such arena (R148), so no run from reset raises it. Safe: where the
  hardware would spin for ever the model stops (log 9). -/
  | engineNeverCompletes
  deriving DecidableEq, Repr

/-- Why an instruction has no meaning. -/
inductive Refusal where
  /-- Raised by an arm of `exec` whose instruction has no meaning yet; no arm raises it. Safe. -/
  | notModelled (mnemonic : String)
  deriving DecidableEq, Repr

/-- The state right after reset (R53, R241), with the buffer sizes the spec gives as default (R8, log 3).
FREQ, NODE, CODE, IBUF and OBUF are free draws (log 4). -/
def State.reset : State where
  pending    := none
  done       := false
  err        := false
  treeValid  := false
  codesValid := false
  errCode    := 0
  lastOp     := 0
  donePend   := false
  errPend    := false
  doneEn     := false
  errEn      := false
  srcLen     := 0
  decCount   := 0
  outLen     := 0
  outBits    := 0
  treeRoot   := none
  nodeCount  := 0
  nleaf      := 0
  errPos     := 0
  errBit     := 0
  ibufLog2   := Config.defaultSizeLog2
  obufLog2   := Config.defaultSizeLog2
  freq       := Vector.ofFn fun s => Config.freeFreq 0 s
  node       := Vector.ofFn fun i =>
    { weight := Config.freeNodeWeight 0 i, internal := Config.freeNodeInternal 0 i, sym := Config.freeNodeSym 0 i,
      left := Config.freeNodeLeft 0 i, right := Config.freeNodeRight 0 i }
  code       := Vector.ofFn fun s => (Config.freeCode 0 s).take Config.maxCode
  ibuf       := ⟨[], 0⟩
  obuf       := ⟨[], 1⟩
  held       := none
  hostOps    := []
  schedule   := []
  answers    := []
  draws      := 2

end Sys2Proof.Machine
end

