-- ==== Sys2Proof/Machine/Flags.lean ====
section
/-! DEFINITION. Flags: the STATUS, IRQ_PEND and IRQ_EN words, the interrupt line, the validity flags, the error codes. -/

namespace Sys2Proof.Machine

/-- STATUS.BUSY: 1 exactly when a command is pending (R30, R51). -/
def State.busy (s : State) : Bool := s.pending.isSome

/-- The STATUS word (R29): bit 0 BUSY, 1 DONE, 2 ERR, 3 TREE_VALID, 4 CODES_VALID, 11:8 ERRCODE, 15:12 LASTOP. -/
def State.statusWord (s : State) : Word :=
  0#16 ++ s.lastOp ++ s.errCode ++ 0#3 ++ BitVec.ofBool s.codesValid ++ BitVec.ofBool s.treeValid ++
    BitVec.ofBool s.err ++ BitVec.ofBool s.done ++ BitVec.ofBool s.busy

/-- The IRQ_PEND word (R35): bit 0 DONE_P, bit 1 ERR_P. -/
def State.irqPendWord (s : State) : Word := 0#30 ++ BitVec.ofBool s.errPend ++ BitVec.ofBool s.donePend

/-- The IRQ_EN word (R36): bit 0 DONE_E, bit 1 ERR_E. -/
def State.irqEnWord (s : State) : Word := 0#30 ++ BitVec.ofBool s.errEn ++ BitVec.ofBool s.doneEn

/-- The interrupt output, computed from the current state at every moment (R36, R217). -/
def State.irq (s : State) : Bool := (s.donePend && s.doneEn) || (s.errPend && s.errEn)

/-- Both validity flags are cleared: a FREQ write, CLRFREQ, COUNT past its range check, WEIGHT_OVF (R33). -/
def invalidate (s : State) : State := { s with treeValid := false, codesValid := false }

/-- The command errors (R211). -/
inductive CmdError where
  | illCmd
  | lenRange
  | countOvf
  | weightOvf
  | noTree
  | noCodes
  | noCode
  | obufOvf
  | fmtEmptyTree
  | fmtCount
  | decTrunc
  | decBadPath
  deriving DecidableEq, Repr

/-- The ERRCODE of an error (R211). 0 is OK, and 13 to 15 are never raised. -/
def CmdError.code : CmdError → BitVec 4
  | .illCmd => 1
  | .lenRange => 2
  | .countOvf => 3
  | .weightOvf => 4
  | .noTree => 5
  | .noCodes => 6
  | .noCode => 7
  | .obufOvf => 8
  | .fmtEmptyTree => 9
  | .fmtCount => 10
  | .decTrunc => 11
  | .decBadPath => 12

/-- A raised error with the `pos` and `bit` its rule names (R14, R47, R211). -/
structure Raised where
  error : CmdError
  pos   : Nat
  bit   : Nat
  deriving DecidableEq, Repr

end Sys2Proof.Machine
end

