-- ==== Sys2Proof/Machine/Ops.lean ====
section
/-! DEFINITION. The shared operations: tables and buffers, acceptance of a command, and its completion with
success or with an error. -/

namespace Sys2Proof.Machine

/-! ### Tables indexed by symbol, and the node arena -/

/-- Entry `s` of a table with one entry per symbol (FREQ, CODE; R40, R45). -/
def tableGet {α : Type} (t : Vector α 256) (s : Byte) : α := t[s.toNat]'s.isLt

/-- The table with entry `s` replaced. -/
def tableSet {α : Type} (t : Vector α 256) (s : Byte) (v : α) : Vector α 256 := t.set s.toNat v s.isLt

/-! ### Buffers -/

/-- IBUF_SIZE in bytes (R8, R48). -/
def State.ibufSize (s : State) : Nat := 2 ^ s.ibufLog2.val

/-- OBUF_SIZE in bytes (R8, R48). -/
def State.obufSize (s : State) : Nat := 2 ^ s.obufLog2.val

/-- The byte listed for index `k`. -/
def lookupCell (k : Nat) : List Host.Cell → Option Byte
  | [] => none
  | c :: cs => if c.1 = k then some c.2 else lookupCell k cs

/-- The list with byte `b` for index `k`, in rising order of the indices. -/
def insertCell (k : Nat) (b : Byte) : List Host.Cell → List Host.Cell
  | [] => [(k, b)]
  | c :: cs =>
    if k < c.1 then (k, b) :: c :: cs
    else if k = c.1 then (k, b) :: cs
    else c :: insertCell k b cs

/-- What an index that is not listed holds: no value of the model's, but the free draw of the buffer's last
reset or havoc (R14, R53, R214, log 5). -/
def Memory.unlisted (m : Memory) (k : Nat) : Byte := Config.freeByte m.draw k

/-- The byte at index `k`. -/
def Memory.read (m : Memory) (k : Nat) : Byte := (lookupCell k m.cells).getD (m.unlisted k)

/-- The buffer with byte `b` at index `k`. -/
def Memory.write (m : Memory) (k : Nat) (b : Byte) : Memory := { m with cells := insertCell k b m.cells }

/-- The buffer with the bytes `bs` at `k`, `k + 1`, …, the first at the lowest index (R71). -/
def Memory.writeBytes (m : Memory) (k : Nat) : List Byte → Memory
  | [] => m
  | b :: bs => (m.write k b).writeBytes (k + 1) bs

/-- The canonical form: strictly rising indices, so at most one entry for an index (log 5). -/
abbrev Memory.wf (m : Memory) : Prop := m.cells.Pairwise fun c d => c.1 < d.1

/-- Every listed index lies below the buffer's size. -/
abbrev Memory.inside (m : Memory) (size : Nat) : Prop := ∀ c ∈ m.cells, c.1 < size

/-- A buffer no byte of which is known: every byte is a free draw (`havoc`, R14). -/
def Memory.drawn (draw : Nat) : Memory := ⟨[], draw⟩

/-! ### Acceptance and completion -/

/-- Acceptance of the command word `w` (R34): the flags of the last command are cleared, nothing else changes.
BUSY becomes 1 because `pending` holds a word. -/
def accept (w : Word) (s : State) : State :=
  { s with pending := some w, done := false, err := false, errCode := 0, lastOp := w.extractLsb' 0 4 }

/-- What every completion does (R213): DONE_P, DONE, BUSY and `pending`. -/
def finish (s : State) : State := { s with pending := none, done := true, donePend := true }

/-- Completion with success (R213). -/
def succeed (s : State) : State :=
  finish { s with err := false, errCode := 0, errPos := 0, errBit := 0 }

/-- TAKING AN EXCEPTION: completion with an error (R210, R213). The error's own changes to the rest of the
state (R214) are made by the command before it raises. -/
def raise (r : Raised) (s : State) : State :=
  finish { s with
    err := true, errCode := r.error.code
    errPos := BitVec.ofNat 32 r.pos, errBit := BitVec.ofNat 32 r.bit
    errPend := true }

/-- THE RETURN from an exception is the host's own: it clears the pending bits it has handled by writing 1 to
them (W1C, R35, R218). -/
def clearIrqPend (w : Word) (s : State) : State :=
  { s with donePend := s.donePend && !w.getLsbD 0, errPend := s.errPend && !w.getLsbD 1 }

/-- OUT_LEN and OUT_BITS are 0 after an ENCODE or DECODE that raised an error (R39, R214). -/
def clearOut (s : State) : State := { s with outLen := 0, outBits := 0 }

/-- havoc(OBUF): every byte becomes a new free draw (R14, R214, log 6). -/
def havocObuf (s : State) : State := { s with obuf := .drawn s.draws, draws := s.draws + 1 }

/-- Completion of an illegal word: ILL_CMD(0, 0), and the word runs nothing (R102, R213). -/
def completeIllegal (s : State) : State := raise ⟨.illCmd, 0, 0⟩ s

end Sys2Proof.Machine
end

