-- ==== Sys2Proof/Machine/Operands.lean ====
section
/-! DEFINITION. Operands: the input bytes and the input bit stream, bytes made of stream bits, and the words of
the NODE and CODE windows. -/

namespace Sys2Proof.Machine

/-! ### Bit sequences as numbers -/

/-- The value of a bit sequence whose first bit is the least significant one. -/
def bitsToNat : List Bool → Nat
  | [] => 0
  | b :: bs => b.toNat + 2 * bitsToNat bs

/-- Bits `i`, `i + 1`, …, `i + n − 1` of a sequence, 0 past its end. -/
def bitSlice (bs : List Bool) (i n : Nat) : List Bool := (List.range n).map fun j => bs.getD (i + j) false

/-! ### The packed bit stream -/

/-- The operand IBUF[0 .. SRC_LEN − 1] (R37, R103). -/
def State.inputBytes (s : State) : List Byte := (List.range s.srcLen.toNat).map s.ibuf.read

/-- Stream bit `p` of a buffer: bit 7 − (p mod 8) of byte p div 8 (R104). -/
def Memory.streamBit (m : Memory) (p : Nat) : Bool := (m.read (p / 8)).getLsbD (7 - p % 8)

/-- The byte whose stream bits are the first eight of `bs`, most significant first, with 0 past the end
of `bs` (R104, R105). -/
def streamByte (bs : List Bool) : Byte := BitVec.ofNat 8 (bitsToNat (bitSlice bs 0 8).reverse)

/-- The bytes a stream of bits is packed into: ⌈N/8⌉ of them, the last one filled up with 0 (R105, R172). -/
def packBytes (bs : List Bool) : List Byte :=
  (List.range ((bs.length + 7) / 8)).map fun i => streamByte (bs.drop (8 * i))

/-! ### Window words -/

/-- A 9-bit link: a node index, or 0x1FF = NONE (R42, R106). -/
def linkBits : Option NodeIx → BitVec 9
  | none => 0x1FF
  | some i => BitVec.ofNat 9 i.val

/-- Word `w` of a NODE window entry (R106). -/
def Node.word (n : Node) (w : Fin 4) : Word :=
  match w with
  | 0 => n.weight
  | 1 => BitVec.ofBool n.internal ++ 0#23 ++ n.sym
  | 2 => 0#7 ++ linkBits n.right ++ 0#7 ++ linkBits n.left
  | 3 => 0

/-- `len` of a code (R45). -/
def codeLen (c : Code) : BitVec 8 := BitVec.ofNat 8 c.length

/-- Word `w` of a CODE window entry (R107): the length, then the code bits 32 to a word with c_(32j) at bit 0,
then zeros. -/
def codeWord (c : Code) (w : Fin 16) : Word :=
  if w.val = 0 then 0#24 ++ codeLen c
  else if w.val ≤ 8 then BitVec.ofNat 32 (bitsToNat (bitSlice c (32 * (w.val - 1)) 32))
  else 0

end Sys2Proof.Machine
end

