-- ==== Sys2Proof/Machine/TreeBuilder.lean ====
section
/-! DEFINITION. The priority-queue tree builder: BUILD (41_tree_builder.md). -/

namespace Sys2Proof.Machine

/-- The node arena (R42). -/
abbrev Arena := Vector Node 511

/-- The first symbol, counted from `s`, at which the running sum that starts at `total` exceeds
2^32 − 1 (R146). -/
def weightOverflow (s total : Nat) : List Word → Option Nat
  | [] => none
  | f :: fs => if Config.countMax < total + f.toNat then some s else weightOverflow (s + 1) (total + f.toNat) fs

/-- The present symbols in ascending order (R17, R141). -/
def presentSymbols (f : Vector Word 256) : List Byte :=
  ((List.range 256).map (BitVec.ofNat 8)).filter fun s => tableGet f s ≠ 0

/-- The leaf of a present symbol (R140, R141). -/
def leafNode (f : Vector Word 256) (s : Byte) : Node :=
  { weight := tableGet f s, internal := false, sym := s, left := none, right := none }

/-- The internal node over `a` and `b`, the first extracted one on the left (R144). -/
def mergedNode (A : Arena) (a b : NodeIx) : Node :=
  { weight := A[a].weight + A[b].weight, internal := true, sym := 0, left := some a, right := some b }

/-- The arena with the nodes `ns` at `i`, `i + 1`, …. -/
def placeNodes (A : Arena) (i : Nat) : List Node → Arena
  | [] => A
  | n :: ns => placeNodes (A.setIfInBounds i n) (i + 1) ns

/-- key(i) < key(j), where key(i) = (NODE[i].weight, i) (R143). -/
def keyLt (A : Arena) (i j : NodeIx) : Bool :=
  A[i].weight.toNat < A[j].weight.toNat || (A[i].weight == A[j].weight && i.val < j.val)

/-- The index of the queue with the least key, and the queue without it (R143). A queue is a set of indices:
the order of the list means nothing. -/
def extractMin (A : Arena) : List NodeIx → Option (NodeIx × List NodeIx)
  | [] => none
  | i :: q =>
    match extractMin A q with
    | none => some (i, [])
    | some (j, rest) => if keyLt A i j then some (i, j :: rest) else some (j, i :: rest)

/-- `rounds` merge rounds, the first of which creates NODE[next] (R144). -/
def mergeRounds : (rounds : Nat) → Arena → List NodeIx → (next : Nat) → Arena × List NodeIx
  | 0, A, q, _ => (A, q)
  | rounds + 1, A, q, next =>
    match extractMin A q with
    | none => (A, q)
    | some (a, q1) =>
      match extractMin A q1 with
      | none => (A, q)
      | some (b, q2) =>
        mergeRounds rounds (A.setIfInBounds next (mergedNode A a b)) (Fin.ofNat 511 next :: q2) (next + 1)

/-- What BUILD makes of a table: the arena, the root, and the numbers of nodes and leaves (R145). -/
structure Tree where
  arena : Arena
  root  : Option NodeIx
  count : Nat
  nleaf : Nat
  deriving DecidableEq, Repr

/-- The single-symbol tree over the leaf NODE[0] (R142). -/
def singleRoot (A : Arena) : Node :=
  { weight := A[0].weight, internal := true, sym := 0, left := some 0, right := none }

/-- The tree of the table `f`, written over the arena `A` (R140 to R145). -/
def buildTree (f : Vector Word 256) (A : Arena) : Tree :=
  let syms := presentSymbols f
  let n := syms.length
  let A1 := placeNodes A 0 (syms.map (leafNode f))
  if n = 0 then { arena := A1, root := none, count := 0, nleaf := 0 }
  else if n = 1 then { arena := A1.set 1 (singleRoot A1), root := some 1, count := 2, nleaf := 1 }
  else
    let r := mergeRounds (n - 1) A1 ((List.range n).map (Fin.ofNat 511)) n
    { arena := r.1, root := r.2.head?, count := 2 * n - 1, nleaf := n }

/-- BUILD (R140). -/
def execBuild (s : State) : Host.Outcome State Fault Refusal :=
  .next <|
    match weightOverflow 0 0 s.freq.toList with
    | some k => raise ⟨.weightOvf, k, 0⟩ { invalidate s with treeRoot := none, nodeCount := 0, nleaf := 0 }
    | none =>
      let t := buildTree s.freq s.node
      succeed { s with
        node := t.arena, treeRoot := t.root
        nodeCount := BitVec.ofNat 10 t.count, nleaf := BitVec.ofNat 9 t.nleaf
        treeValid := true, codesValid := false }

end Sys2Proof.Machine
end

