-- ==== Sys2Proof/Machine/CodeDeriver.lean ====
section
/-! DEFINITION. The code deriver: DERIVE (42_encoder.md, section 1). -/

namespace Sys2Proof.Machine

/-- The code table (R45). -/
abbrev CodeTable := Vector Code 256

/-- The traversal of R160 from node `m`, reached by `path`: left subtree first, 0 for left and 1 for right
(R161), an absent child skipped. `none` when some path is longer than the fuel: a path through more nodes than
the arena has comes back to itself, and the loop of R160 never ends (log 9). -/
def deriveFrom : (fuel : Nat) → Arena → NodeIx → List Bool → CodeTable → Option CodeTable
  | 0, _, _, _, _ => none
  | fuel + 1, A, m, path, t =>
    if A[m].internal then
      (A[m].left.elim (some t) fun l => deriveFrom fuel A l (path ++ [false]) t).bind fun t1 =>
        A[m].right.elim (some t1) fun r => deriveFrom fuel A r (path ++ [true]) t1
    else some (tableSet t A[m].sym path)

/-- The code table of a tree: every entry empty first, then the traversal (R160). -/
def deriveCodes (A : Arena) : Option NodeIx → Option CodeTable
  | none => some (Vector.replicate 256 [])
  | some root => deriveFrom Config.nodeMax A root [] (Vector.replicate 256 [])

/-- DERIVE (R160). -/
def execDerive (s : State) : Host.Outcome State Fault Refusal :=
  if s.treeValid then
    match deriveCodes s.node s.treeRoot with
    | none => .fault .engineNeverCompletes
    | some t => .next (succeed { s with code := t, codesValid := true })
  else .next (raise ⟨.noTree, 0, 0⟩ s)

end Sys2Proof.Machine
end

