-- ==== Sys2Proof/Machine/Frequency.lean ====
section
/-! DEFINITION. The frequency counter: CLRFREQ and COUNT (40_frequency.md). -/

namespace Sys2Proof.Machine

/-- CLRFREQ (R120). -/
def execClrfreq (s : State) : Host.Outcome State Fault Refusal :=
  .next (succeed { invalidate s with freq := Vector.replicate 256 0 })

/-- COUNT's loop over the input bytes, the first of which has index `i`: the table it leaves, and the index at
which COUNT_OVF stopped it (R121, R122). -/
def countBytes (i : Nat) : List Byte → Vector Word 256 → Vector Word 256 × Option Nat
  | [], f => (f, none)
  | b :: bs, f =>
    if (tableGet f b).toNat = Config.countMax then (f, some i)
    else countBytes (i + 1) bs (tableSet f b (tableGet f b + 1))

/-- COUNT (R121): the range check first, then the flags, then the loop. -/
def execCount (s : State) : Host.Outcome State Fault Refusal :=
  .next <|
    if s.ibufSize < s.srcLen.toNat then raise ⟨.lenRange, 0, 0⟩ s
    else
      match countBytes 0 s.inputBytes s.freq with
      | (f, none) => succeed { invalidate s with freq := f }
      | (f, some i) => raise ⟨.countOvf, i, 0⟩ { invalidate s with freq := f }

end Sys2Proof.Machine
end

