-- ==== Sys2Proof/Machine/Packer.lean ====
section
/-! DEFINITION. The bit packer: ENCODE (42_encoder.md, section 2). -/

namespace Sys2Proof.Machine

/-- ENCODE's loop over the input bytes, the first of which has index `i`, after the stream `acc` has been
packed: the whole stream, or the error that ends it (R170). `obufBits` is 8·OBUF_SIZE, and the bit cursor p is
the number of bits packed so far. -/
def packSymbols (t : CodeTable) (obufBits : Nat) (i : Nat) (acc : List Bool) : List Byte → Except Raised (List Bool)
  | [] => .ok acc
  | b :: bs =>
    let c := tableGet t b
    if c.length = 0 then .error ⟨.noCode, i, acc.length⟩
    else if obufBits < acc.length + c.length then .error ⟨.obufOvf, i, acc.length⟩
    else packSymbols t obufBits (i + 1) (acc ++ c) bs

/-- ENCODE (R170): the checks in order, then the stream, packed from OBUF[0] on in whole bytes (R76, R171, R172). -/
def execEncode (s : State) : Host.Outcome State Fault Refusal :=
  .next <|
    if s.codesValid = false then raise ⟨.noCodes, 0, 0⟩ (clearOut s)
    else if s.ibufSize < s.srcLen.toNat then raise ⟨.lenRange, 0, 0⟩ (clearOut s)
    else
      match packSymbols s.code (8 * s.obufSize) 0 [] s.inputBytes with
      | .error r => raise r (havocObuf (clearOut s))
      | .ok bits =>
        succeed { s with
          obuf := s.obuf.writeBytes 0 (packBytes bits)
          outBits := BitVec.ofNat 32 bits.length
          outLen := BitVec.ofNat 32 ((bits.length + 7) / 8) }

end Sys2Proof.Machine
end

