-- ==== Sys2Proof/Machine/Unpacker.lean ====
section
/-! DEFINITION. The bit decoder and unpacker: DECODE (43_decoder.md). -/

namespace Sys2Proof.Machine

/-- The descent of symbol `k`, at node `m` and stream bit `p`, with `rem` bits of the payload not yet read: the
symbol of the leaf it reaches and the bit after it, or the error that ends it (R190, R191). -/
def descend (A : Arena) (mem : Memory) (root : NodeIx) (k : Nat) :
    (rem : Nat) → (m : NodeIx) → (p : Nat) → Except Raised (Byte × Nat)
  | 0, m, p =>
    if A[m].internal then
      if m = root then .error ⟨.fmtCount, k, p⟩ else .error ⟨.decTrunc, k, p⟩
    else .ok (A[m].sym, p)
  | rem + 1, m, p =>
    if A[m].internal then
      match (if mem.streamBit p then A[m].right else A[m].left) with
      | none => .error ⟨.decBadPath, k, p⟩
      | some c => descend A mem root k rem c (p + 1)
    else .ok (A[m].sym, p)

/-- DECODE's loop over the symbols `k`, `k + 1`, …, of which `n` are still to come, from stream bit `p`: their
bytes and the bit after the last one, or the error that ends it (R190). -/
def decodeSymbols (A : Arena) (mem : Memory) (root : NodeIx) (nbits : Nat) :
    (n : Nat) → (k : Nat) → (p : Nat) → Except Raised (List Byte × Nat)
  | 0, _, p => .ok ([], p)
  | n + 1, k, p =>
    match descend A mem root k (nbits - p) root p with
    | .error r => .error r
    | .ok (sym, p1) =>
      match decodeSymbols A mem root nbits n (k + 1) p1 with
      | .error r => .error r
      | .ok (syms, p2) => .ok (sym :: syms, p2)

/-- The walk of R190. Of the empty tree no symbol is asked here, so no bit is read. -/
def decodePayload (s : State) : Except Raised (List Byte × Nat) :=
  match s.treeRoot with
  | none => .ok ([], 0)
  | some root => decodeSymbols s.node s.ibuf root (8 * s.srcLen.toNat) s.decCount.toNat 0 0

/-- DECODE (R190): the four checks in order, then the walk, and the symbols to OBUF[0] on. An error of the walk
havocs OBUF (R214). -/
def execDecode (s : State) : Host.Outcome State Fault Refusal :=
  .next <|
    if s.treeValid = false then raise ⟨.noTree, 0, 0⟩ (clearOut s)
    else if s.ibufSize < s.srcLen.toNat then raise ⟨.lenRange, 0, 0⟩ (clearOut s)
    else if s.obufSize < s.decCount.toNat then raise ⟨.obufOvf, 0, 0⟩ (clearOut s)
    else if 0 < s.decCount.toNat ∧ s.treeRoot = none then raise ⟨.fmtEmptyTree, 0, 0⟩ (clearOut s)
    else
      match decodePayload s with
      | .error r => raise r (havocObuf (clearOut s))
      | .ok (syms, p) =>
        succeed { s with
          obuf := s.obuf.writeBytes 0 syms
          outLen := s.decCount
          outBits := BitVec.ofNat 32 p }

end Sys2Proof.Machine
end

