-- ==== Sys2Proof/Machine/Engine.lean ====
section
/-! DEFINITION. The engine's step: the completion of the pending command word (60_exceptions.md, section 2). -/

namespace Sys2Proof.Machine

/-- Completion of the word `w` (R213): the command it encodes, or ILL_CMD when it is illegal (R102). -/
def completeWord (w : Word) (s : State) : Host.Outcome State Fault Refusal :=
  match decode w with
  | .ok i => exec i s
  | .error _ => .next (completeIllegal s)

/-- A step of the engine agent. It has a step exactly when `pending` holds a word (R51); else nothing happens. -/
def engineStep (s : State) : Host.Outcome State Fault Refusal :=
  match s.pending with
  | none => .next s
  | some w => completeWord w s

/-- The state with the command word of `nbits` bits `w` accepted (R34) and the engine's turn next, so that the
next step completes it (log 2). -/
def placeCommand (nbits w : Nat) (s : State) : State :=
  { accept (BitVec.ofNat 32 (w % 2 ^ nbits)) s with schedule := .engine :: s.schedule }

end Sys2Proof.Machine
end

