-- ==== Sys2Proof/Machine/Bus.lean ====
section
/-! DEFINITION. The register bus: the address map, the ERROR response, held accesses, reads and writes
(10_state.md sections 2 and 3, 20_memory.md). -/

namespace Sys2Proof.Machine

/-- The control and status registers (R23). -/
inductive Csr where
  | id
  | cmd
  | status
  | irqPend
  | irqEn
  | srcLen
  | decCount
  | outLen
  | outBits
  | treeRoot
  | nodeCount
  | nleaf
  | errPos
  | errBit
  | ibufSize
  | obufSize
  deriving DecidableEq, Repr

/-- The register at offset 4·n (R23). -/
def Csr.ofIndex : Nat → Option Csr
  | 0 => some .id
  | 1 => some .cmd
  | 2 => some .status
  | 3 => some .irqPend
  | 4 => some .irqEn
  | 5 => some .srcLen
  | 6 => some .decCount
  | 7 => some .outLen
  | 8 => some .outBits
  | 9 => some .treeRoot
  | 10 => some .nodeCount
  | 11 => some .nleaf
  | 12 => some .errPos
  | 13 => some .errBit
  | 14 => some .ibufSize
  | 15 => some .obufSize
  | _ => none

/-- What an access addresses (R23). -/
inductive Target where
  | csr (r : Csr)
  | freq (s : Byte)
  | node (i : NodeIx) (w : Fin 4)
  | code (s : Byte) (w : Fin 16)
  | ibuf (k : Nat)
  | obuf (k : Nat)
  deriving DecidableEq, Repr

/-- The word region at an offset that is a multiple of 4: the CSRs and the FREQ, NODE and CODE windows (R23).
NODE 511 does not exist (R44). -/
def wordTarget (a : Nat) : Option Target :=
  if a < 0x40 then (Csr.ofIndex (a / 4)).map .csr
  else if 0x400 ≤ a ∧ a < 0x800 then some (.freq (BitVec.ofNat 8 ((a - 0x400) / 4)))
  else if 0x2000 ≤ a ∧ a < 0x3FF0 then
    some (.node (Fin.ofNat 511 ((a - 0x2000) / 16)) (Fin.ofNat 4 (a / 4)))
  else if 0x4000 ≤ a ∧ a < 0x8000 then
    some (.code (BitVec.ofNat 8 ((a - 0x4000) / 64)) (Fin.ofNat 16 (a / 4)))
  else none

/-- What an access addresses, or `none` where it gets the ERROR response (R74): misaligned (R73), a size its
region does not list (R72), a byte past the buffer's size, or an offset in no region of R23. -/
def target (s : State) (x : Access) : Option Target :=
  let a := x.addr.toNat
  let n := x.size.bytes
  if a % n ≠ 0 then none
  else if 0x1000_0000 ≤ a ∧ a + n ≤ 0x1000_0000 + s.ibufSize then some (.ibuf (a - 0x1000_0000))
  else if 0x2000_0000 ≤ a ∧ a + n ≤ 0x2000_0000 + s.obufSize then some (.obuf (a - 0x2000_0000))
  else if x.size = .b4 then wordTarget a
  else none

/-- Whether an access to this target is held while BUSY = 1 (R23, R80, R81). -/
def Target.isHeld : Target → Bool
  | .csr .id => false
  | .csr .status => false
  | .csr .irqPend => false
  | .csr .irqEn => false
  | .csr .ibufSize => false
  | .csr .obufSize => false
  | _ => true

/-! ### Reads -/

/-- What a CSR reads as (R25, R27 to R39, R43, R47, R48). -/
def readCsr (s : State) : Csr → Word
  | .id => Config.idWord
  | .cmd => 0
  | .status => s.statusWord
  | .irqPend => s.irqPendWord
  | .irqEn => s.irqEnWord
  | .srcLen => s.srcLen
  | .decCount => s.decCount
  | .outLen => s.outLen
  | .outBits => s.outBits
  | .treeRoot => (linkBits s.treeRoot).setWidth 32
  | .nodeCount => s.nodeCount.setWidth 32
  | .nleaf => s.nleaf.setWidth 32
  | .errPos => s.errPos
  | .errBit => s.errBit
  | .ibufSize => BitVec.ofNat 32 s.ibufSize
  | .obufSize => BitVec.ofNat 32 s.obufSize

/-- MemRead(k, n) of a buffer, little-endian (R71). -/
def Memory.readData (m : Memory) (k : Nat) : Size → Data
  | .b1 => .b1 (m.read k)
  | .b2 => .b2 (m.read (k + 1) ++ m.read k)
  | .b4 => .b4 (m.read (k + 3) ++ m.read (k + 2) ++ m.read (k + 1) ++ m.read k)

/-- The read data of an OKAY read. No read has a side effect (R26, R78). -/
def readTarget (s : State) (size : Size) : Target → Data
  | .csr r => .b4 (readCsr s r)
  | .freq y => .b4 (tableGet s.freq y)
  | .node i w => .b4 (s.node[i].word w)
  | .code y w => .b4 (codeWord (tableGet s.code y) w)
  | .ibuf k => s.ibuf.readData k size
  | .obuf k => s.obuf.readData k size

/-- The rdata of an ERROR read: the low bits of a free draw (R74, log 7). -/
def drawnData (draw : Nat) : Size → Data
  | .b1 => .b1 ((Config.freeRdata draw).setWidth 8)
  | .b2 => .b2 ((Config.freeRdata draw).setWidth 16)
  | .b4 => .b4 (Config.freeRdata draw)

/-! ### Writes -/

/-- A host write to a CSR (R25, R26, R34 to R38): a write to a read-only register is ignored. -/
def writeCsr (w : Word) (s : State) : Csr → State
  | .cmd => accept w s
  | .irqPend => clearIrqPend w s
  | .irqEn => { s with doneEn := w.getLsbD 0, errEn := w.getLsbD 1 }
  | .srcLen => { s with srcLen := w }
  | .decCount => { s with decCount := w }
  | .id => s
  | .status => s
  | .outLen => s
  | .outBits => s
  | .treeRoot => s
  | .nodeCount => s
  | .nleaf => s
  | .errPos => s
  | .errBit => s
  | .ibufSize => s
  | .obufSize => s

/-- The low `n` bytes of a word, the least significant first (R71). -/
def wordBytes (w : Word) (n : Nat) : List Byte := (List.range n).map fun j => w.extractLsb' (8 * j) 8

/-- A host write (R25, R41, R71). The NODE and CODE windows are read-only. -/
def writeTarget (size : Size) (w : Word) (s : State) : Target → State
  | .csr r => writeCsr w s r
  | .freq y => { invalidate s with freq := tableSet s.freq y w }
  | .node _ _ => s
  | .code _ _ => s
  | .ibuf k => { s with ibuf := s.ibuf.writeBytes k (wordBytes w size.bytes) }
  | .obuf k => { s with obuf := s.obuf.writeBytes k (wordBytes w size.bytes) }

/-! ### One transaction -/

/-- The bus answers. -/
def answer (a : Answer) (s : State) : State := { s with answers := a :: s.answers }

/-- An access that reaches its target: OKAY, with the write's effect or the read's data. -/
def perform (x : Access) (t : Target) (s : State) : State :=
  if x.write then answer ⟨.okay, none⟩ (writeTarget x.size x.wdata s t)
  else answer ⟨.okay, some (readTarget s x.size t)⟩ s

/-- The ERROR response (R74, R75): no state of the block changes, and the rdata of a read is a free draw. -/
def answerError (x : Access) (s : State) : State :=
  if x.write then answer ⟨.error, none⟩ s
  else answer ⟨.error, some (drawnData s.draws x.size)⟩ { s with draws := s.draws + 1 }

/-- One host access (R74, R80, R81): ERROR at once, held while a command is pending, or performed. -/
def issue (x : Access) (s : State) : State :=
  match target s x with
  | none => answerError x s
  | some t => if s.busy && t.isHeld then { s with held := some x } else perform x t s

/-- The `wait` poll's access: a read of STATUS (R111). -/
def statusRead : Access := ⟨0x0008, .b4, false, 0⟩

/-- A step of the host agent. An access that waits is tried again, and completes as it would from the idle
state once BUSY = 0 (R80); else the host issues the next access of its program. `wait` repeats its STATUS read
while BUSY is 1 in the value read (R111). A host with nothing to do does nothing. -/
def hostStep (s : State) : State :=
  match s.held with
  | some x => issue x { s with held := none }
  | none =>
    match s.hostOps with
    | [] => s
    | .access x :: rest => issue x { s with hostOps := rest }
    | .wait :: rest =>
      if s.busy then issue statusRead s
      else issue statusRead { s with hostOps := rest }

end Sys2Proof.Machine
end

