-- ==== Sys2Proof/Machine/Reset.lean ====
section
/-! DEFINITION. The reset event (70_reset_and_hazards.md, section 1). -/

namespace Sys2Proof.Machine

/-- The answer to an access dropped by reset: both its response and its rdata are free draws (R243, log 7). -/
def droppedAnswer (draw : Nat) (x : Access) : Answer :=
  { resp := if Config.freeRespError draw then .error else .okay
    rdata := if x.write then none else some (drawnData draw x.size) }

/-- A held access is dropped, with no effect on the block (R243). -/
def dropHeld (s : State) : State :=
  match s.held with
  | none => s
  | some x => answer (droppedAnswer s.draws x) { s with held := none, draws := s.draws + 1 }

/-- Every register and flag of the block at its value of R53, and new free draws for FREQ, NODE, CODE, IBUF and
OBUF (R241). A pending command is dropped (R242). -/
def resetBlock (s : State) : State :=
  { s with
    pending := none, done := false, err := false, treeValid := false, codesValid := false
    errCode := 0, lastOp := 0
    donePend := false, errPend := false, doneEn := false, errEn := false
    srcLen := 0, decCount := 0, outLen := 0, outBits := 0
    treeRoot := none, nodeCount := 0, nleaf := 0, errPos := 0, errBit := 0
    freq := Vector.ofFn fun y => Config.freeFreq s.draws y
    node := Vector.ofFn fun i =>
      { weight := Config.freeNodeWeight s.draws i, internal := Config.freeNodeInternal s.draws i
        sym := Config.freeNodeSym s.draws i, left := Config.freeNodeLeft s.draws i
        right := Config.freeNodeRight s.draws i }
    code := Vector.ofFn fun y => (Config.freeCode s.draws y).take Config.maxCode
    ibuf := .drawn s.draws
    obuf := .drawn (s.draws + 1)
    draws := s.draws + 2 }

/-- The reset event (R240 to R243). The host program, the schedule and the answers already given are outside
the block and stay. -/
def resetEvent (s : State) : State := resetBlock (dropHeld s)

end Sys2Proof.Machine
end

