-- ==== Sys2Proof/Machine/Agents.lean ====
section
/-! DEFINITION. The agents and the external event of R20, one step of each. -/

namespace Sys2Proof.Machine

/-- One step of the given agent or event (R20). -/
def stepTurn (t : Turn) (s : State) : Host.Outcome State Fault Refusal :=
  match t with
  | .host => .next (hostStep s)
  | .engine => engineStep s
  | .reset => .next (resetEvent s)

/-- Whose turn it is when the schedule has ended: the engine's while a command is pending, so that no command
waits for ever (weak fairness, R249), else the host's (log 1). -/
def State.fairTurn (s : State) : Turn := if s.busy then .engine else .host

end Sys2Proof.Machine
end

