-- ==== Sys2Proof/Machine/Step.lean ====
section
/-! DEFINITION. One step of the whole machine: the agent whose turn it is moves (R20, R82). -/

namespace Sys2Proof.Machine

/-- One step of the machine: the turn the schedule gives, or, when the schedule has ended, the fair turn. -/
def step (s : State) : Host.Outcome State Fault Refusal :=
  match s.schedule with
  | [] => stepTurn s.fairTurn s
  | t :: rest => stepTurn t { s with schedule := rest }

/-- `s` with the command word accepted and due in the next step: see `placeCommand`. -/
def State.withFetchWord (s : State) (nbits w : Nat) : State := placeCommand nbits w s

end Sys2Proof.Machine
end

