-- ==== Sys2Proof/Safety.lean ====
section
/-! DEFINITION. The terms claims use: completed states, paths in the tree, streams, mapped accesses, and the invariant
of the machine. -/

namespace Sys2Proof.Machine

/-- A step is safe when the machine goes on. -/
def StepsOn (s : State) : Prop := ∃ t, step s = .next t

/-! ### Completion, in full (R213) -/

/-- `s` with the completion fields of a success (R213). -/
def completedOk (s : State) : State :=
  { s with
    pending := none, done := true, err := false, errCode := 0, errPos := 0, errBit := 0, donePend := true }

/-- `s` with the completion fields of the error with this ERRCODE, ERR_POS and ERR_BIT (R213). -/
def completedErr (code : BitVec 4) (pos bit : Nat) (s : State) : State :=
  { s with
    pending := none, done := true, err := true, errCode := code
    errPos := BitVec.ofNat 32 pos, errBit := BitVec.ofNat 32 bit, donePend := true, errPend := true }

/-! ### Counts -/

/-- FREQ[0] + … + FREQ[k − 1], exactly (R146). -/
def freqSum (f : Vector Word 256) (k : Nat) : Nat := ((f.toList.take k).map BitVec.toNat).sum

/-- The number of present symbols (R17, R141). -/
def numPresent (f : Vector Word 256) : Nat := (presentSymbols f).length

/-! ### Paths and codes (R161) -/

/-- The child of a node that the bit selects: 0 left, 1 right (R161, R191). -/
def childOf (n : Node) (b : Bool) : Option NodeIx := if b then n.right else n.left

/-- The node a path leads to from `m`, if it exists: every step leaves an internal node. -/
def followPath (A : Arena) : NodeIx → List Bool → Option NodeIx
  | m, [] => some m
  | m, b :: bs =>
    if A[m].internal then
      match childOf A[m] b with
      | none => none
      | some c => followPath A c bs
    else none

/-- `bits` is the path from `root` to a leaf with symbol `y`. -/
def IsCode (A : Arena) (root : NodeIx) (bits : List Bool) (y : Byte) : Prop :=
  ∃ i, followPath A root bits = some i ∧ A[i].internal = false ∧ A[i].sym = y

/-- The codes of the symbols, concatenated in order (R173). -/
def codeStream (t : CodeTable) (ys : List Byte) : List Bool := ys.flatMap (tableGet t)

/-- From stream bit `p` on, the buffer's stream begins with `bits` (R104). -/
def StreamIs (m : Memory) (p : Nat) (bits : List Bool) : Prop :=
  ∀ j < bits.length, m.streamBit (p + j) = bits.getD j false

/-- `codes` are the codes of `ys` in the tree, one by one (R161). -/
def AreCodes (A : Arena) (root : NodeIx) (codes : List (List Bool)) (ys : List Byte) : Prop :=
  List.Forall₂ (IsCode A root) codes ys

/-! ### The tree -/

/-- `i` is a child of a node with an index below `bound`. -/
def IsChildBelow (A : Arena) (bound : Nat) (i : NodeIx) : Prop :=
  ∃ m : NodeIx, m.val < bound ∧ A[m].internal = true ∧ (A[m].left = some i ∨ A[m].right = some i)

/-- The queue of R140 just before NODE[next] is created, said without a queue: the nodes that exist and have
no parent yet. -/
def Waiting (A : Arena) (next : Nat) (i : NodeIx) : Prop := i.val < next ∧ ¬ IsChildBelow A next i

/-- key(i) ≤ key(j) in the lexicographic order of R143. -/
def KeyLe (A : Arena) (i j : NodeIx) : Prop :=
  A[i].weight.toNat < A[j].weight.toNat ∨ (A[i].weight = A[j].weight ∧ i.val ≤ j.val)

/-! ### The bus -/

/-- The accesses that do not get the ERROR response (R23, R72, R73, R74): aligned, and inside a region that takes
their size. -/
def Mapped (s : State) (x : Access) : Prop :=
  x.addr.toNat % x.size.bytes = 0 ∧
    ((x.size = .b4 ∧
        (x.addr.toNat < 0x40 ∨ (0x400 ≤ x.addr.toNat ∧ x.addr.toNat < 0x800) ∨
          (0x2000 ≤ x.addr.toNat ∧ x.addr.toNat < 0x3FF0) ∨ (0x4000 ≤ x.addr.toNat ∧ x.addr.toNat < 0x8000))) ∨
      (0x1000_0000 ≤ x.addr.toNat ∧ x.addr.toNat + x.size.bytes ≤ 0x1000_0000 + s.ibufSize) ∨
      (0x2000_0000 ≤ x.addr.toNat ∧ x.addr.toNat + x.size.bytes ≤ 0x2000_0000 + s.obufSize))

/-- The host is about to issue `x`: no access is held, and `x` is the next of its program. -/
def Issues (s : State) (x : Access) (rest : List HostOp) : Prop := s.held = none ∧ s.hostOps = .access x :: rest

/-- A 4-byte read at `a` is answered at once, OKAY with the word `v`, and changes nothing of the block (R26, R78). -/
def ReadsAs (s : State) (a : BitVec 32) (v : Word) : Prop :=
  ∀ d rest, Issues s ⟨a, .b4, false, d⟩ rest →
    hostStep s = { s with hostOps := rest, answers := ⟨.okay, some (.b4 v)⟩ :: s.answers }

/-! ### The invariant -/

/-- NODE, TREE_ROOT, NODE_COUNT and NLEAF hold the tree BUILD makes of the current FREQ (R29). -/
def TreeCurrent (s : State) : Prop :=
  freqSum s.freq 256 ≤ Config.countMax ∧
    ∃ A, s.node = (buildTree s.freq A).arena ∧ s.treeRoot = (buildTree s.freq A).root ∧
      s.nodeCount = BitVec.ofNat 10 (buildTree s.freq A).count ∧ s.nleaf = BitVec.ofNat 9 (buildTree s.freq A).nleaf

/-- What every step keeps, from any state that has it. -/
structure Inv (s : State) : Prop where
  /-- Both buffers are in canonical form, and list no byte past their size (R49). -/
  ibuf_wf : s.ibuf.wf
  obuf_wf : s.obuf.wf
  ibuf_inside : s.ibuf.inside s.ibufSize
  obuf_inside : s.obuf.inside s.obufSize
  /-- The buffers' free draws are old ones, so that a new draw is another. -/
  ibuf_draw : s.ibuf.draw < s.draws
  obuf_draw : s.obuf.draw < s.draws
  /-- CODES_VALID = 1 implies TREE_VALID = 1 (R33). -/
  codes_need_tree : s.codesValid = true → s.treeValid = true
  /-- The meaning of TREE_VALID (R29). -/
  tree_current : s.treeValid = true → TreeCurrent s
  /-- The meaning of CODES_VALID (R29). -/
  codes_current : s.codesValid = true → deriveCodes s.node s.treeRoot = some s.code
  /-- Every code fits: 0 ≤ len ≤ 255 (R45). -/
  code_len : ∀ y, (tableGet s.code y).length ≤ Config.maxCode
  /-- While BUSY = 1, DONE = ERR = ERRCODE = 0 and LASTOP is the pending word's (R34, R81). -/
  busy_clear : ∀ w, s.pending = some w →
    s.done = false ∧ s.err = false ∧ s.errCode = 0 ∧ s.lastOp = w.extractLsb' 0 4
  /-- ERR = 1 exactly when ERRCODE ≠ 0, and ERRCODE is never 13 to 15 (R32, R211). -/
  err_code : s.err = true ↔ s.errCode ≠ 0
  err_code_le : s.errCode.toNat ≤ 12
  /-- After a success ERR_POS = ERR_BIT = 0 (R47). -/
  err_pos : s.done = true → s.err = false → s.errPos = 0 ∧ s.errBit = 0
  /-- A held access is one that is held: mapped, and to a held target (R80). -/
  held_target : ∀ x, s.held = some x → ∃ t, target s x = some t ∧ t.isHeld = true

/-- `u` is set up to decode what ENCODE left in `t` (R194): BUILD has made the tree of the same FREQ, over whatever
NODE held, the payload is in IBUF, SRC_LEN = OUT_LEN and DEC_COUNT = L, with room for the payload and for the output. -/
def ReadyToDecode (t u : State) (L : Word) : Prop :=
  Inv u ∧ u.treeValid = true ∧ u.freq = t.freq ∧ u.srcLen = t.outLen ∧ u.decCount = L ∧
    t.outLen.toNat ≤ u.ibufSize ∧ L.toNat ≤ u.obufSize ∧ ∀ k < t.outLen.toNat, u.ibuf.read k = t.obuf.read k

end Sys2Proof.Machine
end

