-- ==== Sys2Proof/Certificates/Slice0/Obligations.lean ====
section
/-! DEFINITION. The statements about the model, for the provers. Each says which rule of spec/ it formalises. -/

open Sys2Proof Sys2Proof.Machine

/-! ### Encodings -/

/-- R101: the opcode map. The six words, each the one encoding of its command, and nothing else is legal. -/
def Obligations.WordIsLegalExactlyAsTheMapSays : Prop :=
  (encode .clrfreq = 0x00000001 ∧ encode .count = 0x00000002 ∧ encode .build = 0x00000003 ∧
    encode .derive = 0x00000004 ∧ encode .encode = 0x00000005 ∧ encode .decode = 0x00000006) ∧
  (∀ (w : Word) (i : Instr), decode w = .ok i ↔ w = encode i) ∧
  ∀ w : Word, (∃ i, decode w = .ok i) ↔
    w.extractLsb' 4 28 = 0 ∧ 1 ≤ (w.extractLsb' 0 4).toNat ∧ (w.extractLsb' 0 4).toNat ≤ 6

/-- R100, R101: the six words written out bit by bit, and three illegal ones. -/
def Obligations.WrittenOutWordsDecode : Prop :=
  decode 0b0000000000000000000000000000_0001 = .ok .clrfreq ∧
  decode 0b0000000000000000000000000000_0010 = .ok .count ∧
  decode 0b0000000000000000000000000000_0011 = .ok .build ∧
  decode 0b0000000000000000000000000000_0100 = .ok .derive ∧
  decode 0b0000000000000000000000000000_0101 = .ok .encode ∧
  decode 0b0000000000000000000000000000_0110 = .ok .decode ∧
  decode 0b0000000000000000000000000000_0000 = .error .opcode ∧
  decode 0b0000000000000000000000000000_0111 = .error .opcode ∧
  decode 0b0000000000000000000000000001_0010 = .error .reservedBits

/-- R100, R102: the decoder names why a word is illegal. -/
def Obligations.RejectionNamesTheField : Prop :=
  ∀ w : Word,
    (decode w = .error .reservedBits ↔ w.extractLsb' 4 28 ≠ 0) ∧
    (decode w = .error .opcode ↔
      w.extractLsb' 4 28 = 0 ∧ ((w.extractLsb' 0 4).toNat = 0 ∨ 7 ≤ (w.extractLsb' 0 4).toNat))

/-! ### Steps -/

/-- R20, R51, R213: the engine's step is the pending command, whether the schedule names the engine or has ended;
and a placed command is the one that runs. -/
def Obligations.StepRunsThePendingCommand : Prop :=
  ∀ (s : State) (w : Word) (i : Instr), decode w = .ok i →
    (s.pending = some w → s.schedule = [] → step s = exec i s) ∧
    (∀ rest, s.pending = some w → s.schedule = .engine :: rest → step s = exec i { s with schedule := rest }) ∧
    step (s.withFetchWord 32 w.toNat) =
      exec i { s with
        pending := some w, done := false, err := false, errCode := 0, lastOp := w.extractLsb' 0 4 }

/-- R20, R240, R249: a step is one step of the agent or event the schedule names; when the schedule has ended and no
command is pending, it is the host's. -/
def Obligations.StepIsTheTurnOfOneAgent : Prop :=
  ∀ s : State,
    (∀ rest, s.schedule = .host :: rest → step s = .next (hostStep { s with schedule := rest })) ∧
    (∀ rest, s.schedule = .reset :: rest → step s = .next (resetEvent { s with schedule := rest })) ∧
    (∀ rest, s.schedule = .engine :: rest → s.pending = none → step s = .next { s with schedule := rest }) ∧
    (s.schedule = [] → s.pending = none → step s = .next (hostStep s))

/-- R111: `wait` reads STATUS, and is repeated while bit 0 of the value read is 1. -/
def Obligations.WaitPollsWhileBusy : Prop :=
  ∀ (s : State) (rest : List HostOp), s.held = none → s.hostOps = .wait :: rest →
    hostStep s = { s with
      hostOps := if s.statusWord.getLsbD 0 then s.hostOps else rest
      answers := ⟨.okay, some (.b4 s.statusWord)⟩ :: s.answers }

/-- R102: an illegal word is accepted like any other, and completes with ILL_CMD(0, 0), which changes nothing but
STATUS, IRQ_PEND, ERR_POS and ERR_BIT (and `pending`, which is BUSY). -/
def Obligations.IllegalWordCompletesWithIllCmd : Prop :=
  ∀ w : Word, (w.extractLsb' 4 28 ≠ 0 ∨ (w.extractLsb' 0 4).toNat = 0 ∨ 7 ≤ (w.extractLsb' 0 4).toNat) →
    (∀ (s : State) (rest : List HostOp), s.held = none → s.hostOps = .w32 0x0004 w :: rest → s.pending = none →
      hostStep s = { s with
        hostOps := rest, answers := ⟨.okay, none⟩ :: s.answers
        pending := some w, done := false, err := false, errCode := 0, lastOp := w.extractLsb' 0 4 }) ∧
    ∀ (s : State) (rest : List Turn), s.pending = some w → s.schedule = .engine :: rest →
      step s = .next { s with
        schedule := rest, pending := none, done := true, err := true, errCode := 1, errPos := 0, errBit := 0
        donePend := true, errPend := true }

/-- R34: a CMD write of any word, legal or not, while BUSY = 0; and while BUSY = 1, when it is held. -/
def Obligations.CmdWriteIsAccepted : Prop :=
  ∀ (s : State) (w : Word) (rest : List HostOp), s.held = none → s.hostOps = .w32 0x0004 w :: rest →
    (s.pending = none → hostStep s = { s with
      hostOps := rest, answers := ⟨.okay, none⟩ :: s.answers
      pending := some w, done := false, err := false, errCode := 0, lastOp := w.extractLsb' 0 4 }) ∧
    (s.pending ≠ none → hostStep s = { s with hostOps := rest, held := some ⟨0x0004, .b4, true, w⟩ })

/-- R80: while BUSY = 1 an access to a held target does not complete and changes nothing, however often the
host's turn comes; once BUSY = 0 it completes as it would from the idle state. -/
def Obligations.HeldAccessWaitsForCompletion : Prop :=
  (∀ (s : State) (x : Access) (t : Target) (rest : List HostOp), Issues s x rest → target s x = some t →
    (t = .csr .cmd ∨ t = .csr .srcLen ∨ t = .csr .decCount ∨ t = .csr .outLen ∨ t = .csr .outBits ∨
      t = .csr .treeRoot ∨ t = .csr .nodeCount ∨ t = .csr .nleaf ∨ t = .csr .errPos ∨ t = .csr .errBit ∨
      (∃ y, t = .freq y) ∨ (∃ i w, t = .node i w) ∨ (∃ y w, t = .code y w) ∨ (∃ k, t = .ibuf k) ∨
      (∃ k, t = .obuf k)) →
    s.busy = true →
      hostStep s = { s with hostOps := rest, held := some x } ∧
      hostStep { s with hostOps := rest, held := some x } = { s with hostOps := rest, held := some x }) ∧
  (∀ (s : State) (x : Access), s.held = some x → s.busy = false →
    hostStep s = hostStep { s with held := none, hostOps := .access x :: s.hostOps })

/-- R81: the registers that are never held answer at once in every state, and a STATUS read while BUSY = 1 shows
DONE = ERR = ERRCODE = 0 beside the validity bits as they are before the command's completion. -/
def Obligations.UnheldRegistersAnswerAtOnce : Prop :=
  (∀ (s : State) (x : Access) (t : Target) (rest : List HostOp), Issues s x rest → target s x = some t →
    (t = .csr .id ∨ t = .csr .status ∨ t = .csr .irqPend ∨ t = .csr .irqEn ∨ t = .csr .ibufSize ∨
      t = .csr .obufSize) →
    (hostStep s).held = none ∧ ∃ d, (hostStep s).answers = ⟨.okay, d⟩ :: s.answers) ∧
  (∀ (s : State) (rest : List HostOp), Inv s → s.held = none → s.hostOps = .r32 0x0008 :: rest → s.busy = true →
    ∃ v : Word, (hostStep s).answers = ⟨.okay, some (.b4 v)⟩ :: s.answers ∧
      v.getLsbD 0 = true ∧ v.getLsbD 1 = false ∧ v.getLsbD 2 = false ∧ v.extractLsb' 8 4 = 0 ∧
      v.getLsbD 3 = s.treeValid ∧ v.getLsbD 4 = s.codesValid)

/-- R74, R75: which accesses get the ERROR response (`Mapped` says which do not), at once even while BUSY = 1,
with no change to the state of the block; the rdata is not constrained. Every other access is OKAY, now or
once it is no longer held. -/
def Obligations.ErrorResponseExactlyWhenUnmapped : Prop :=
  ∀ (s : State) (x : Access) (rest : List HostOp), Issues s x rest →
    (¬ Mapped s x → ∃ d n, hostStep s =
      { s with hostOps := rest, answers := ⟨.error, d⟩ :: s.answers, draws := n }) ∧
    (Mapped s x →
      (s.busy = true ∧ hostStep s = { s with hostOps := rest, held := some x }) ∨
      ∃ d, (hostStep s).answers = ⟨.okay, d⟩ :: s.answers)

/-- R23, R44, R72, R73: the target of an access, row by row of the map, both ways: which accesses reach it, and that no
other does. Then the first and the last access of each window. -/
def Obligations.MapNamesEachTarget : Prop :=
  (∀ (s : State) (x : Access),
    (∀ r, target s x = some (.csr r) ↔ x.size = .b4 ∧ x.addr =
      match r with
      | .id => 0x0000
      | .cmd => 0x0004
      | .status => 0x0008
      | .irqPend => 0x000C
      | .irqEn => 0x0010
      | .srcLen => 0x0014
      | .decCount => 0x0018
      | .outLen => 0x001C
      | .outBits => 0x0020
      | .treeRoot => 0x0024
      | .nodeCount => 0x0028
      | .nleaf => 0x002C
      | .errPos => 0x0030
      | .errBit => 0x0034
      | .ibufSize => 0x0038
      | .obufSize => 0x003C) ∧
    (∀ y, target s x = some (.freq y) ↔ x.size = .b4 ∧ x.addr.toNat = 0x0400 + 4 * y.toNat) ∧
    (∀ i w, target s x = some (.node i w) ↔ x.size = .b4 ∧ x.addr.toNat = 0x2000 + 16 * i.val + 4 * w.val) ∧
    (∀ y w, target s x = some (.code y w) ↔ x.size = .b4 ∧ x.addr.toNat = 0x4000 + 64 * y.toNat + 4 * w.val) ∧
    (∀ k, target s x = some (.ibuf k) ↔
      x.addr.toNat = 0x1000_0000 + k ∧ x.addr.toNat % x.size.bytes = 0 ∧ k + x.size.bytes ≤ s.ibufSize) ∧
    (∀ k, target s x = some (.obuf k) ↔
      x.addr.toNat = 0x2000_0000 + k ∧ x.addr.toNat % x.size.bytes = 0 ∧ k + x.size.bytes ≤ s.obufSize)) ∧
  (∀ (s : State) (wr : Bool) (d : Word),
    target s ⟨0x0400, .b4, wr, d⟩ = some (.freq 0) ∧ target s ⟨0x07FC, .b4, wr, d⟩ = some (.freq 255) ∧
    target s ⟨0x2000, .b4, wr, d⟩ = some (.node 0 0) ∧ target s ⟨0x3FEC, .b4, wr, d⟩ = some (.node 510 3) ∧
    target s ⟨0x4000, .b4, wr, d⟩ = some (.code 0 0) ∧ target s ⟨0x7FFC, .b4, wr, d⟩ = some (.code 255 15) ∧
    target s ⟨0x1000_0000, .b1, wr, d⟩ = some (.ibuf 0) ∧ target s ⟨0x2000_0000, .b1, wr, d⟩ = some (.obuf 0) ∧
    target s ⟨0x1000_0000 + BitVec.ofNat 32 (s.ibufSize - 1), .b1, wr, d⟩ = some (.ibuf (s.ibufSize - 1)) ∧
    target s ⟨0x2000_0000 + BitVec.ofNat 32 (s.obufSize - 1), .b1, wr, d⟩ = some (.obuf (s.obufSize - 1)))

/-- R26, R78, R83: no read has a side effect, and its answer is a function of the present state. It holds while BUSY = 1
too, for the registers that are not held (R81). `RegistersReadTheirValues` says the word of every register and FREQ
entry, the three statements on windows and buffers the rest. -/
def Obligations.ReadsHaveNoSideEffect : Prop :=
  ∀ (s : State) (x : Access) (t : Target) (rest : List HostOp), Issues s x rest → x.write = false →
    target s x = some t →
    (s.busy = false ∨ t = .csr .id ∨ t = .csr .status ∨ t = .csr .irqPend ∨ t = .csr .irqEn ∨ t = .csr .ibufSize ∨
      t = .csr .obufSize) →
    hostStep s = { s with hostOps := rest, answers := ⟨.okay, some (readTarget s x.size t)⟩ :: s.answers }

/-- R23, R27 to R48: the word a read of each register answers, at its offset: the registers that are never held in every
state, the others and FREQ while BUSY = 0. `StatusWordFields` says the fields of the STATUS word. Bits without a field
read as 0 (R24). -/
def Obligations.RegistersReadTheirValues : Prop :=
  ∀ s : State,
    (ReadsAs s 0x0000 0x48554631 ∧
      ReadsAs s 0x0008 s.statusWord ∧
      (∃ v, ReadsAs s 0x000C v ∧ v.getLsbD 0 = s.donePend ∧ v.getLsbD 1 = s.errPend ∧ v.extractLsb' 2 30 = 0) ∧
      (∃ v, ReadsAs s 0x0010 v ∧ v.getLsbD 0 = s.doneEn ∧ v.getLsbD 1 = s.errEn ∧ v.extractLsb' 2 30 = 0) ∧
      (∃ v, ReadsAs s 0x0038 v ∧ v.toNat = 2 ^ s.ibufLog2.val) ∧
      (∃ v, ReadsAs s 0x003C v ∧ v.toNat = 2 ^ s.obufLog2.val)) ∧
    (s.busy = false →
      ReadsAs s 0x0004 0 ∧
      ReadsAs s 0x0014 s.srcLen ∧
      ReadsAs s 0x0018 s.decCount ∧
      ReadsAs s 0x001C s.outLen ∧
      ReadsAs s 0x0020 s.outBits ∧
      (s.treeRoot = none → ReadsAs s 0x0024 0x1FF) ∧
      (∀ i : NodeIx, s.treeRoot = some i → ReadsAs s 0x0024 (BitVec.ofNat 32 i.val)) ∧
      (∃ v, ReadsAs s 0x0028 v ∧ v.toNat = s.nodeCount.toNat) ∧
      (∃ v, ReadsAs s 0x002C v ∧ v.toNat = s.nleaf.toNat) ∧
      ReadsAs s 0x0030 s.errPos ∧
      ReadsAs s 0x0034 s.errBit ∧
      ∀ (y : Byte) (a : BitVec 32), a.toNat = 0x0400 + 4 * y.toNat → ReadsAs s a (tableGet s.freq y))

/-- R29: the fields of the word a STATUS read returns. -/
def Obligations.StatusWordFields : Prop :=
  ∀ s : State,
    s.statusWord.getLsbD 0 = s.pending.isSome ∧ s.statusWord.getLsbD 1 = s.done ∧ s.statusWord.getLsbD 2 = s.err ∧
    s.statusWord.getLsbD 3 = s.treeValid ∧ s.statusWord.getLsbD 4 = s.codesValid ∧
    s.statusWord.extractLsb' 5 3 = 0 ∧ s.statusWord.extractLsb' 8 4 = s.errCode ∧
    s.statusWord.extractLsb' 12 4 = s.lastOp ∧ s.statusWord.extractLsb' 16 16 = 0

/-- R106: the NODE window, word by word, at its offsets. -/
def Obligations.NodeWindowReadsTheEntry : Prop :=
  ∀ (s : State) (i : NodeIx) (a : BitVec 32) (w : Fin 4), a.toNat = 0x2000 + 16 * i.val + 4 * w.val →
    ∃ v : Word, (∀ rest, s.held = none → s.hostOps = .r32 a :: rest → s.busy = false →
      (hostStep s).answers = ⟨.okay, some (.b4 v)⟩ :: s.answers) ∧
    (w = 0 → v = s.node[i].weight) ∧
    (w = 1 → v.getLsbD 31 = s.node[i].internal ∧ v.extractLsb' 0 8 = s.node[i].sym ∧ v.extractLsb' 8 23 = 0) ∧
    (w = 2 → v.extractLsb' 0 9 = s.node[i].left.elim 0x1FF (fun c => BitVec.ofNat 9 c.val) ∧
      v.extractLsb' 9 7 = 0 ∧ v.extractLsb' 16 9 = s.node[i].right.elim 0x1FF (fun c => BitVec.ofNat 9 c.val) ∧
      v.extractLsb' 25 7 = 0) ∧
    (w = 3 → v = 0)

/-- R107: the CODE window, word by word, at its offsets. -/
def Obligations.CodeWindowReadsTheEntry : Prop :=
  ∀ (s : State) (y : Byte) (a : BitVec 32) (w : Fin 16), a.toNat = 0x4000 + 64 * y.toNat + 4 * w.val →
    (tableGet s.code y).length ≤ 255 →
    ∃ v : Word, (∀ rest, s.held = none → s.hostOps = .r32 a :: rest → s.busy = false →
      (hostStep s).answers = ⟨.okay, some (.b4 v)⟩ :: s.answers) ∧
    (w.val = 0 → v.toNat = (tableGet s.code y).length) ∧
    (∀ j, w.val = 1 + j → j ≤ 7 → ∀ b < 32, v.getLsbD b = (tableGet s.code y).getD (32 * j + b) false) ∧
    (9 ≤ w.val → v = 0)

/-- R25: writes to read-only registers and windows are OKAY and do nothing, while BUSY = 1 too for those that are not held
(R81), and CMD reads as 0. -/
def Obligations.ReadOnlyWritesAreIgnored : Prop :=
  (∀ (s : State) (x : Access) (t : Target) (rest : List HostOp), Issues s x rest → x.write = true →
    target s x = some t →
    ((t = .csr .id ∨ t = .csr .status ∨ t = .csr .ibufSize ∨ t = .csr .obufSize) ∨
      (s.busy = false ∧
        (t = .csr .outLen ∨ t = .csr .outBits ∨ t = .csr .treeRoot ∨ t = .csr .nodeCount ∨ t = .csr .nleaf ∨
          t = .csr .errPos ∨ t = .csr .errBit ∨ (∃ i w, t = .node i w) ∨ (∃ y w, t = .code y w)))) →
    hostStep s = { s with hostOps := rest, answers := ⟨.okay, none⟩ :: s.answers }) ∧
  (∀ s : State, s.busy = false → ReadsAs s 0x0004 0)

/-- R41: a FREQ write stores the value and clears both validity flags, even when the value is the old one. -/
def Obligations.FreqWriteInvalidates : Prop :=
  ∀ (s : State) (y : Byte) (v : Word) (rest : List HostOp), s.held = none → s.hostOps = .setfreq y v :: rest →
    s.busy = false →
    ∃ f, hostStep s = { s with
        hostOps := rest, answers := ⟨.okay, none⟩ :: s.answers
        freq := f, treeValid := false, codesValid := false } ∧
      tableGet f y = v ∧ ∀ z, z ≠ y → tableGet f z = tableGet s.freq z

/-- R35, R36, R37, R38: the other registers the host writes. IRQ_PEND and IRQ_EN are written while BUSY too. -/
def Obligations.RegisterWritesStore : Prop :=
  ∀ (s : State) (w : Word) (rest : List HostOp), s.held = none →
    (s.hostOps = .w32 0x000C w :: rest → hostStep s = { s with
      hostOps := rest, answers := ⟨.okay, none⟩ :: s.answers
      donePend := s.donePend && !w.getLsbD 0, errPend := s.errPend && !w.getLsbD 1 }) ∧
    (s.hostOps = .w32 0x0010 w :: rest → hostStep s = { s with
      hostOps := rest, answers := ⟨.okay, none⟩ :: s.answers, doneEn := w.getLsbD 0, errEn := w.getLsbD 1 }) ∧
    (s.hostOps = .w32 0x0014 w :: rest → s.busy = false → hostStep s = { s with
      hostOps := rest, answers := ⟨.okay, none⟩ :: s.answers, srcLen := w }) ∧
    (s.hostOps = .w32 0x0018 w :: rest → s.busy = false → hostStep s = { s with
      hostOps := rest, answers := ⟨.okay, none⟩ :: s.answers, decCount := w })

/-- R71: byte order. A buffer write stores its bytes, the least significant at the lowest index, and no other
byte changes; a buffer read puts them together in the same order. -/
def Obligations.BufferAccessesAreLittleEndian : Prop :=
  (∀ (s : State) (x : Access) (k : Nat) (rest : List HostOp), Issues s x rest → x.write = true → s.busy = false →
    (target s x = some (.ibuf k) → ∃ m, hostStep s =
        { s with hostOps := rest, answers := ⟨.okay, none⟩ :: s.answers, ibuf := m } ∧
      ∀ j, m.read j = if k ≤ j ∧ j < k + x.size.bytes then x.wdata.extractLsb' (8 * (j - k)) 8 else s.ibuf.read j) ∧
    (target s x = some (.obuf k) → ∃ m, hostStep s =
        { s with hostOps := rest, answers := ⟨.okay, none⟩ :: s.answers, obuf := m } ∧
      ∀ j, m.read j = if k ≤ j ∧ j < k + x.size.bytes then x.wdata.extractLsb' (8 * (j - k)) 8 else s.obuf.read j)) ∧
  (∀ (s : State) (x : Access) (m : Memory) (k : Nat) (rest : List HostOp), Issues s x rest → x.write = false →
    s.busy = false → (target s x = some (.ibuf k) ∧ m = s.ibuf) ∨ (target s x = some (.obuf k) ∧ m = s.obuf) →
    (x.size = .b1 → (hostStep s).answers = ⟨.okay, some (.b1 (m.read k))⟩ :: s.answers) ∧
    (x.size = .b2 → ∃ v, (hostStep s).answers = ⟨.okay, some (.b2 v)⟩ :: s.answers ∧
      ∀ j < 2, v.extractLsb' (8 * j) 8 = m.read (k + j)) ∧
    (x.size = .b4 → ∃ v, (hostStep s).answers = ⟨.okay, some (.b4 v)⟩ :: s.answers ∧
      ∀ j < 4, v.extractLsb' (8 * j) 8 = m.read (k + j)))

/-- R246 (and S15 of 93): a STATUS read while a command is pending may come before the completion, and then shows
BUSY = 1 and DONE = 0, or after it, and then shows BUSY = 0 and DONE = 1. -/
def Obligations.BothStatusOrdersAreAdmitted : Prop :=
  ∀ (s : State) (w : Word) (rest : List HostOp), Inv s → s.pending = some w →
    s.held = none → s.hostOps = .r32 0x0008 :: rest →
    (∃ t v, step { s with schedule := [.host] } = .next t ∧ t.answers = ⟨.okay, some (.b4 v)⟩ :: s.answers ∧
      v.getLsbD 0 = true ∧ v.getLsbD 1 = false) ∧
    (∃ t u v, step { s with schedule := [.engine, .host] } = .next t ∧ step t = .next u ∧
      u.answers = ⟨.okay, some (.b4 v)⟩ :: s.answers ∧ v.getLsbD 0 = false ∧ v.getLsbD 1 = true)

/-- R83, R250: while a command is pending no step of the host changes its operands, its results, the tables or
the buffers: only the interrupt registers, and what is the host's own. -/
def Obligations.HostCannotDisturbAPendingCommand : Prop :=
  ∀ s : State, s.busy = true → ∃ (dp ep de ee : Bool) (x : Option Access) (o : List HostOp) (a : List Answer) (n : Nat),
    hostStep s = { s with
      donePend := dp, errPend := ep, doneEn := de, errEn := ee, held := x, hostOps := o, answers := a, draws := n }

/-- R39, R42, R43, R45, R47, R48: no host step writes the results of a command. -/
def Obligations.HostNeverWritesResults : Prop :=
  ∀ s : State,
    (hostStep s).outLen = s.outLen ∧ (hostStep s).outBits = s.outBits ∧ (hostStep s).treeRoot = s.treeRoot ∧
    (hostStep s).nodeCount = s.nodeCount ∧ (hostStep s).nleaf = s.nleaf ∧ (hostStep s).errPos = s.errPos ∧
    (hostStep s).errBit = s.errBit ∧ (hostStep s).node = s.node ∧ (hostStep s).code = s.code ∧
    (hostStep s).ibufLog2 = s.ibufLog2 ∧ (hostStep s).obufLog2 = s.obufLog2

/-! ### Reset -/

/-- R241, R242: the reset event. A pending command is dropped without a completion; FREQ, NODE, CODE and the bytes
of the buffers are not constrained; a held access is dropped (R243), and its answer is not constrained.
That the dropped access gets exactly one answer, in this step, is the model's choice (log 7), and so is that the host's
program stays (log 2). -/
def Obligations.ResetEventGivesTheResetState : Prop :=
  ∀ (s : State) (rest : List Turn), s.schedule = .reset :: rest →
    ∃ f n c d e m a, step s = .next { s with
        schedule := rest, pending := none, done := false, err := false, treeValid := false, codesValid := false
        errCode := 0, lastOp := 0, donePend := false, errPend := false, doneEn := false, errEn := false
        srcLen := 0, decCount := 0, outLen := 0, outBits := 0, treeRoot := none, nodeCount := 0, nleaf := 0
        errPos := 0, errBit := 0, freq := f, node := n, code := c, ibuf := ⟨[], d⟩, obuf := ⟨[], e⟩
        held := none, draws := m, answers := a } ∧
      (s.held = none → a = s.answers) ∧ (s.held ≠ none → ∃ r, a = r :: s.answers)

/-- R53: the values the spec gives for reset, and the sizes' default (R8). -/
def Obligations.ResetStateValues : Prop :=
  State.reset.pending = none ∧ State.reset.statusWord = 0 ∧ State.reset.irqPendWord = 0 ∧
  State.reset.irqEnWord = 0 ∧ State.reset.srcLen = 0 ∧ State.reset.decCount = 0 ∧ State.reset.outLen = 0 ∧
  State.reset.outBits = 0 ∧ State.reset.errPos = 0 ∧ State.reset.errBit = 0 ∧
  readCsr State.reset .treeRoot = 0x1FF ∧ State.reset.nodeCount = 0 ∧ State.reset.nleaf = 0 ∧
  readCsr State.reset .id = 0x48554631 ∧ readCsr State.reset .ibufSize = 65536 ∧
  readCsr State.reset .obufSize = 65536 ∧ State.reset.irq = false

/-! ### CLRFREQ and COUNT -/

/-- R120: CLRFREQ completes in every state. -/
def Obligations.ClrfreqClearsTheTable : Prop :=
  ∀ s : State, ∃ f, exec .clrfreq s = .next (completedOk { s with freq := f, treeValid := false, codesValid := false }) ∧
    ∀ y, tableGet f y = 0

/-- R121, R122: COUNT. Every count with room: the occurrences are added. A count that is full: COUNT_OVF at the
first such byte, with the bytes before it counted. SRC_LEN too large: LEN_RANGE, and nothing else. -/
def Obligations.CountAddsEachInputByte : Prop :=
  ∀ s : State,
    (s.srcLen.toNat ≤ s.ibufSize →
      (∀ y, (tableGet s.freq y).toNat + s.inputBytes.count y ≤ 2 ^ 32 - 1) →
      ∃ f, exec .count s = .next (completedOk { s with freq := f, treeValid := false, codesValid := false }) ∧
        ∀ y, (tableGet f y).toNat = (tableGet s.freq y).toNat + s.inputBytes.count y) ∧
    (∀ pre b post, s.srcLen.toNat ≤ s.ibufSize → s.inputBytes = pre ++ b :: post →
      (∀ y, (tableGet s.freq y).toNat + pre.count y ≤ 2 ^ 32 - 1) →
      (tableGet s.freq b).toNat + pre.count b = 2 ^ 32 - 1 →
      ∃ f, exec .count s =
          .next (completedErr 3 pre.length 0 { s with freq := f, treeValid := false, codesValid := false }) ∧
        ∀ y, (tableGet f y).toNat = (tableGet s.freq y).toNat + pre.count y) ∧
    (s.ibufSize < s.srcLen.toNat → exec .count s = .next (completedErr 2 0 0 s))

/-- R123, R124: after CLRFREQ and COUNT the table is the histogram of the input, and its sum is the number of
input bytes. It cannot fail on an input the buffer can hold (R122). -/
def Obligations.ClearedCountIsTheHistogram : Prop :=
  ∀ s t : State, s.srcLen.toNat ≤ s.ibufSize → exec .clrfreq s = .next t →
    ∃ u, exec .count t = .next u ∧ u.err = false ∧
      (∀ y, (tableGet u.freq y).toNat = s.inputBytes.count y) ∧ freqSum u.freq 256 = s.srcLen.toNat

/-! ### BUILD -/

/-- R146: the weight check names the first symbol at which the running sum is too large, and leaves NODE alone. -/
def Obligations.BuildRejectsTooLargeSum : Prop :=
  ∀ (s : State) (k : Nat), k < 256 → freqSum s.freq k ≤ 2 ^ 32 - 1 → 2 ^ 32 - 1 < freqSum s.freq (k + 1) →
    exec .build s = .next (completedErr 4 k 0
      { s with treeValid := false, codesValid := false, treeRoot := none, nodeCount := 0, nleaf := 0 })

/-- R141, R145: BUILD completes when the sum fits. The leaves are the present symbols in ascending order, the result
registers count them, and the entries from NODE_COUNT on keep their values (R42). -/
def Obligations.BuildPlacesLeavesAndResults : Prop :=
  ∀ s : State, freqSum s.freq 256 ≤ 2 ^ 32 - 1 →
    ∃ (A : Arena) (ys : List Byte), exec .build s = .next (completedOk { s with
        node := A, treeValid := true, codesValid := false
        treeRoot := if ys.length = 0 then none else if ys.length = 1 then some 1
          else some (Fin.ofNat 511 (2 * ys.length - 2))
        nodeCount := BitVec.ofNat 10 (if ys.length = 0 then 0 else if ys.length = 1 then 2 else 2 * ys.length - 1)
        nleaf := BitVec.ofNat 9 ys.length }) ∧
      ys.length ≤ 256 ∧ (∀ y, y ∈ ys ↔ tableGet s.freq y ≠ 0) ∧
      (ys.Pairwise fun y z => y.toNat < z.toNat) ∧
      (∀ (i : NodeIx) (h : i.val < ys.length), A[i] = ⟨tableGet s.freq ys[i.val], false, ys[i.val], none, none⟩) ∧
      ∀ i : NodeIx, (if ys.length = 0 then 0 else if ys.length = 1 then 2 else 2 * ys.length - 1) ≤ i.val →
        A[i] = s.node[i]

/-- R142: the empty table and the single-symbol table. -/
def Obligations.DegenerateTablesBuild : Prop :=
  (∀ s : State, (∀ y, tableGet s.freq y = 0) →
    exec .build s = .next (completedOk
      { s with treeRoot := none, nodeCount := 0, nleaf := 0, treeValid := true, codesValid := false })) ∧
  (∀ (s : State) (y : Byte), tableGet s.freq y ≠ 0 → (∀ z, z ≠ y → tableGet s.freq z = 0) →
    ∃ A : Arena, exec .build s = .next (completedOk
        { s with node := A, treeRoot := some 1, nodeCount := 2, nleaf := 1, treeValid := true, codesValid := false }) ∧
      A[(0 : NodeIx)] = ⟨tableGet s.freq y, false, y, none, none⟩ ∧
      A[(1 : NodeIx)] = ⟨tableGet s.freq y, true, 0, some 0, none⟩ ∧
      ∀ i : NodeIx, 2 ≤ i.val → A[i] = s.node[i])

/-- R143, R144: every internal node of a tree of two or more leaves merges the two least of the nodes that were
waiting when it was created, the least on the left, in the order of (weight, index), and its weight is the exact
sum of theirs. It takes n − 1 rounds, after which the root alone waits. `Waiting` says without a queue which nodes the
queue of R140 holds. -/
def Obligations.BuildMergesTheTwoLeast : Prop :=
  ∀ s t : State, exec .build s = .next t → t.err = false → 2 ≤ numPresent s.freq →
    t.nodeCount.toNat = numPresent s.freq + (numPresent s.freq - 1) ∧
    (∀ j : NodeIx, Waiting t.node t.nodeCount.toNat j ↔ t.treeRoot = some j) ∧
    ∀ m : NodeIx, numPresent s.freq ≤ m.val → m.val < t.nodeCount.toNat →
      ∃ a b : NodeIx, a ≠ b ∧ t.node[m].internal = true ∧ t.node[m].sym = 0 ∧
        t.node[m].left = some a ∧ t.node[m].right = some b ∧
        t.node[m].weight.toNat = t.node[a].weight.toNat + t.node[b].weight.toNat ∧
        Waiting t.node m.val a ∧ Waiting t.node m.val b ∧
        (∀ j, Waiting t.node m.val j → KeyLe t.node a j) ∧
        (∀ j, Waiting t.node m.val j → j ≠ a → KeyLe t.node b j)

/-- R148: the shape of a tree of two or more leaves. Every node has exactly one path from the root. -/
def Obligations.BuiltTreeIsATree : Prop :=
  ∀ s t : State, exec .build s = .next t → t.err = false → 2 ≤ numPresent s.freq →
    ∃ root : NodeIx, t.treeRoot = some root ∧
      (∀ m : NodeIx, m.val < t.nodeCount.toNat → t.node[m].internal = true →
        ∃ a b, t.node[m].left = some a ∧ t.node[m].right = some b ∧ a.val < m.val ∧ b.val < m.val ∧
          t.node[m].weight.toNat = t.node[a].weight.toNat + t.node[b].weight.toNat) ∧
      (∀ i : NodeIx, i.val < t.nodeCount.toNat → ∃ p, followPath t.node root p = some i ∧
        ∀ q, followPath t.node root q = some i → q = p) ∧
      ∀ (i : NodeIx) (p : List Bool), followPath t.node root p = some i → p.length ≤ numPresent s.freq - 1

/-- R147: the tree is a function of FREQ alone. -/
def Obligations.BuildDependsOnFreqAlone : Prop :=
  ∀ s s' t t' : State, s.freq = s'.freq → exec .build s = .next t → exec .build s' = .next t' →
    t.err = t'.err ∧ t.treeRoot = t'.treeRoot ∧ t.nodeCount = t'.nodeCount ∧ t.nleaf = t'.nleaf ∧
    ∀ i : NodeIx, i.val < t.nodeCount.toNat → t.node[i] = t'.node[i]

/-! ### DERIVE -/

/-- R160: DERIVE without a tree. -/
def Obligations.DeriveNeedsATree : Prop :=
  ∀ s : State, s.treeValid = false → exec .derive s = .next (completedErr 5 0 0 s)

/-- R160, R161: DERIVE completes on every tree BUILD made (`Inv`), and gives every present symbol the path to its
leaf, of 1 to 255 bits, and every other symbol no code. -/
def Obligations.DeriveGivesEachSymbolItsPath : Prop :=
  ∀ s : State, Inv s → s.treeValid = true →
    ∃ c : CodeTable, exec .derive s = .next (completedOk { s with code := c, codesValid := true }) ∧
      ∀ y, (tableGet s.freq y = 0 → tableGet c y = []) ∧
        (tableGet s.freq y ≠ 0 → 1 ≤ (tableGet c y).length ∧ (tableGet c y).length ≤ 255 ∧
          ∃ root, s.treeRoot = some root ∧ IsCode s.node root (tableGet c y) y)

/-- R161: the code of a symbol is the path to its leaf, whichever path that is. -/
def Obligations.ThePathIsTheCode : Prop :=
  ∀ (s : State) (root : NodeIx) (bits : List Bool) (y : Byte), Inv s → s.codesValid = true → s.treeRoot = some root →
    IsCode s.node root bits y → tableGet s.code y = bits

/-- R162: the properties of a derived table. -/
def Obligations.DerivedCodesArePrefixFree : Prop :=
  ∀ s : State, Inv s → s.codesValid = true →
    (∀ y, tableGet s.freq y ≠ 0 → 1 ≤ (tableGet s.code y).length ∧ (tableGet s.code y).length ≤ 255) ∧
    (∀ y, tableGet s.freq y = 0 → (tableGet s.code y).length = 0) ∧
    ∀ y z, tableGet s.freq y ≠ 0 → tableGet s.freq z ≠ 0 → y ≠ z →
      tableGet s.code y ≠ tableGet s.code z ∧ ¬ (tableGet s.code y <+: tableGet s.code z)

/-! ### ENCODE -/

/-- R170: the two checks before the loop, in order. OBUF is unchanged. -/
def Obligations.EncodeChecksBeforePacking : Prop :=
  ∀ s : State,
    (s.codesValid = false → exec .encode s = .next (completedErr 6 0 0 { s with outLen := 0, outBits := 0 })) ∧
    (s.codesValid = true → s.ibufSize < s.srcLen.toNat →
      exec .encode s = .next (completedErr 2 0 0 { s with outLen := 0, outBits := 0 }))

/-- R170: the two errors of the loop, at the first symbol that has no code or whose code does not fit. What OBUF
holds then is not constrained. -/
def Obligations.EncodeStopsAtTheFirstBadSymbol : Prop :=
  ∀ (s : State) (pre : List Byte) (b : Byte) (post : List Byte), s.codesValid = true → s.srcLen.toNat ≤ s.ibufSize →
    s.inputBytes = pre ++ b :: post → (∀ y ∈ pre, tableGet s.code y ≠ []) →
    (codeStream s.code pre).length ≤ 8 * s.obufSize →
    (tableGet s.code b = [] → ∃ d n, exec .encode s = .next (completedErr 7 pre.length (codeStream s.code pre).length
      { s with outLen := 0, outBits := 0, obuf := ⟨[], d⟩, draws := n })) ∧
    (tableGet s.code b ≠ [] → 8 * s.obufSize < (codeStream s.code pre).length + (tableGet s.code b).length →
      ∃ d n, exec .encode s = .next (completedErr 8 pre.length (codeStream s.code pre).length
        { s with outLen := 0, outBits := 0, obuf := ⟨[], d⟩, draws := n }))

/-- R171, R172, R173: ENCODE completes when every symbol has a code and the codes fit. OUT_BITS is the sum of the
code lengths, OUT_LEN the bytes they take, stream bit p of OBUF the p-th bit of the codes in input order, the
padding is 0, and the bytes from OUT_LEN on are unchanged. -/
def Obligations.EncodePacksTheCodes : Prop :=
  ∀ s : State, s.codesValid = true → s.srcLen.toNat ≤ s.ibufSize → (∀ y ∈ s.inputBytes, tableGet s.code y ≠ []) →
    (s.inputBytes.map fun y => (tableGet s.code y).length).sum ≤ 8 * s.obufSize →
    ∃ (m : Memory) (nb : Nat), nb = (s.inputBytes.map fun y => (tableGet s.code y).length).sum ∧
      exec .encode s = .next (completedOk { s with
        obuf := m, outBits := BitVec.ofNat 32 nb, outLen := BitVec.ofNat 32 ((nb + 7) / 8) }) ∧
      nb < 2 ^ 32 ∧
      (∀ p < nb, m.streamBit p = (codeStream s.code s.inputBytes).getD p false) ∧
      (∀ p, nb ≤ p → p < 8 * ((nb + 7) / 8) → m.streamBit p = false) ∧
      ∀ k, (nb + 7) / 8 ≤ k → m.read k = s.obuf.read k

/-! ### DECODE -/

/-- R190: the four checks before the walk, in order. OBUF is unchanged. -/
def Obligations.DecodeChecksBeforeWalking : Prop :=
  ∀ s : State,
    (s.treeValid = false → exec .decode s = .next (completedErr 5 0 0 { s with outLen := 0, outBits := 0 })) ∧
    (s.treeValid = true → s.ibufSize < s.srcLen.toNat →
      exec .decode s = .next (completedErr 2 0 0 { s with outLen := 0, outBits := 0 })) ∧
    (s.treeValid = true → s.srcLen.toNat ≤ s.ibufSize → s.obufSize < s.decCount.toNat →
      exec .decode s = .next (completedErr 8 0 0 { s with outLen := 0, outBits := 0 })) ∧
    (s.treeValid = true → s.srcLen.toNat ≤ s.ibufSize → s.decCount.toNat ≤ s.obufSize → 0 < s.decCount.toNat →
      s.treeRoot = none → exec .decode s = .next (completedErr 9 0 0 { s with outLen := 0, outBits := 0 }))

/-- R190, R191, R193: DECODE completes when the payload begins with DEC_COUNT codes of the tree, whatever bits come
after them, and when it is asked for no symbol. -/
def Obligations.DecodeEmitsTheSymbols : Prop :=
  (∀ (s : State) (root : NodeIx) (codes : List (List Bool)) (ys : List Byte), s.treeValid = true →
    s.srcLen.toNat ≤ s.ibufSize → s.decCount.toNat ≤ s.obufSize → s.treeRoot = some root →
    ys.length = s.decCount.toNat → AreCodes s.node root codes ys → StreamIs s.ibuf 0 codes.flatten →
    codes.flatten.length ≤ 8 * s.srcLen.toNat →
    ∃ m, exec .decode s = .next (completedOk { s with
        obuf := m, outLen := s.decCount, outBits := BitVec.ofNat 32 codes.flatten.length }) ∧
      (∀ (k : Nat) (h : k < ys.length), m.read k = ys[k]) ∧ ∀ k, ys.length ≤ k → m.read k = s.obuf.read k) ∧
  (∀ s : State, s.treeValid = true → s.srcLen.toNat ≤ s.ibufSize → s.decCount = 0 →
    exec .decode s = .next (completedOk { s with outLen := 0, outBits := 0 }))

/-- R190, R211: the three errors of the walk, after the codes of `ys` have been read: the payload ends at the root,
it ends inside a descent, or a bit selects an absent child. What OBUF holds then is not constrained. -/
def Obligations.DecodeWalkErrors : Prop :=
  ∀ (s : State) (root : NodeIx) (codes : List (List Bool)) (ys : List Byte) (part : List Bool) (m : NodeIx),
    s.treeValid = true → s.srcLen.toNat ≤ s.ibufSize → s.decCount.toNat ≤ s.obufSize → s.treeRoot = some root →
    ys.length < s.decCount.toNat → AreCodes s.node root codes ys → StreamIs s.ibuf 0 (codes.flatten ++ part) →
    followPath s.node root part = some m → s.node[m].internal = true →
    ((codes.flatten ++ part).length = 8 * s.srcLen.toNat → m = root →
      ∃ d n, exec .decode s = .next (completedErr 10 ys.length (codes.flatten ++ part).length
        { s with outLen := 0, outBits := 0, obuf := ⟨[], d⟩, draws := n })) ∧
    ((codes.flatten ++ part).length = 8 * s.srcLen.toNat → m ≠ root →
      ∃ d n, exec .decode s = .next (completedErr 11 ys.length (codes.flatten ++ part).length
        { s with outLen := 0, outBits := 0, obuf := ⟨[], d⟩, draws := n })) ∧
    ((codes.flatten ++ part).length < 8 * s.srcLen.toNat →
      childOf s.node[m] (s.ibuf.streamBit (codes.flatten ++ part).length) = none →
      ∃ d n, exec .decode s = .next (completedErr 12 ys.length (codes.flatten ++ part).length
        { s with outLen := 0, outBits := 0, obuf := ⟨[], d⟩, draws := n }))

/-- R194: what ENCODE packs, DECODE unpacks, and it reads exactly the bits that were packed. -/
def Obligations.DecodeInvertsEncode : Prop :=
  ∀ s t u : State, Inv s → exec .encode s = .next t → t.err = false → ReadyToDecode t u s.srcLen →
    ∃ v, exec .decode u = .next v ∧ v.err = false ∧ v.outLen = s.srcLen ∧ v.outBits = t.outBits ∧
      ∀ k < s.srcLen.toNat, v.obuf.read k = s.ibuf.read k

/-- R195: a payload without its last byte is never decoded without an error. -/
def Obligations.TruncationIsDetected : Prop :=
  ∀ s t u : State, Inv s → exec .encode s = .next t → t.err = false → 1 ≤ s.srcLen.toNat →
    ReadyToDecode t u s.srcLen →
    ∃ v, exec .decode { u with srcLen := t.outLen - 1 } = .next v ∧ v.err = true ∧
      (v.errCode = 10 ∨ v.errCode = 11)

/-! ### Sequences of commands -/

/-- R175, the first of its two claims: when FREQ is the histogram of the input, OUT_BITS is the weighted path length,
the sum over the symbols of FREQ[y] times the length of its code. -/
def Obligations.EncodedLengthIsTheWeightedPathLength : Prop :=
  ∀ s t : State, Inv s → (∀ y, (tableGet s.freq y).toNat = s.inputBytes.count y) →
    exec .encode s = .next t → t.err = false →
    t.outBits.toNat = ((List.range 256).map fun k =>
      (tableGet s.freq (BitVec.ofNat 8 k)).toNat * (tableGet s.code (BitVec.ofNat 8 k)).length).sum

/-- R251: CLRFREQ, COUNT, BUILD, DERIVE and ENCODE over one input. The first four raise no error, and ENCODE raises
none but OBUF_OVF: every input byte has a code. With room for 255 bits a byte (MAXCODE, R9) it raises none. -/
def Obligations.CompressSequenceNeedsOnlyRoom : Prop :=
  ∀ s : State, s.srcLen.toNat ≤ s.ibufSize →
    ∃ a b c d e : State, exec .clrfreq s = .next a ∧ exec .count a = .next b ∧ exec .build b = .next c ∧
      exec .derive c = .next d ∧ exec .encode d = .next e ∧
      a.err = false ∧ b.err = false ∧ c.err = false ∧ d.err = false ∧ d.codesValid = true ∧
      (e.err = true → e.errCode = 8) ∧
      (255 * s.srcLen.toNat ≤ 8 * s.obufSize → e.err = false)

/-! ### Every command -/

/-- R211, R213: what every completion leaves in STATUS, ERR_POS, ERR_BIT and IRQ_PEND, and the interrupt line after
it (R217). -/
def Obligations.EveryCompletionLeavesItsOutcome : Prop :=
  ∀ (i : Instr) (s t : State), exec i s = .next t →
    t.pending = none ∧ t.done = true ∧ t.donePend = true ∧ t.lastOp = s.lastOp ∧
    ((t.err = false ∧ t.errCode = 0 ∧ t.errPos = 0 ∧ t.errBit = 0 ∧ t.errPend = s.errPend ∧
        t.irq = (s.doneEn || (s.errPend && s.errEn))) ∨
      (t.err = true ∧ 1 ≤ t.errCode.toNat ∧ t.errCode.toNat ≤ 12 ∧ t.errPend = true ∧
        t.irq = (s.doneEn || s.errEn)))

/-- R36, R37, R38, R48, R49, R103: what no command writes: its operand registers, IBUF, the interrupt enables, the
sizes, and all that belongs to the host. -/
def Obligations.CommandsLeaveOperandsAlone : Prop :=
  ∀ (i : Instr) (s t : State), exec i s = .next t →
    t.srcLen = s.srcLen ∧ t.decCount = s.decCount ∧ t.doneEn = s.doneEn ∧ t.errEn = s.errEn ∧
    t.ibufLog2 = s.ibufLog2 ∧ t.obufLog2 = s.obufLog2 ∧ t.ibuf = s.ibuf ∧ (∀ k, t.ibuf.read k = s.ibuf.read k) ∧
    t.held = s.held ∧ t.hostOps = s.hostOps ∧ t.schedule = s.schedule ∧ t.answers = s.answers

/-- R39, R40, R42, R43, R45, R49: which command writes which table, result register or buffer, for the commands
that do not. -/
def Obligations.OnlyItsCommandWritesATable : Prop :=
  ∀ (i : Instr) (s t : State), exec i s = .next t →
    (i ≠ .clrfreq → i ≠ .count → t.freq = s.freq) ∧
    (i ≠ .build → t.node = s.node ∧ t.treeRoot = s.treeRoot ∧ t.nodeCount = s.nodeCount ∧ t.nleaf = s.nleaf) ∧
    (i ≠ .derive → t.code = s.code) ∧
    (i ≠ .encode → i ≠ .decode → t.outLen = s.outLen ∧ t.outBits = s.outBits ∧ t.obuf = s.obuf ∧
      (∀ k, t.obuf.read k = s.obuf.read k) ∧ t.draws = s.draws)

/-- R33: the events that write TREE_VALID and CODES_VALID, that nothing else writes them, and that every step keeps
CODES_VALID ⇒ TREE_VALID. -/
def Obligations.ValidityFlagsChangeOnlyAtTheirEvents : Prop :=
  (∀ s t : State, exec .clrfreq s = .next t → t.treeValid = false ∧ t.codesValid = false) ∧
  (∀ s t : State, exec .count s = .next t →
    if s.ibufSize < s.srcLen.toNat then t.treeValid = s.treeValid ∧ t.codesValid = s.codesValid
    else t.treeValid = false ∧ t.codesValid = false) ∧
  (∀ s t : State, exec .build s = .next t → t.treeValid = !t.err ∧ t.codesValid = false) ∧
  (∀ s t : State, exec .derive s = .next t → t.treeValid = s.treeValid ∧ t.codesValid = (s.codesValid || !t.err)) ∧
  (∀ s t : State, exec .encode s = .next t → t.treeValid = s.treeValid ∧ t.codesValid = s.codesValid) ∧
  (∀ s t : State, exec .decode s = .next t → t.treeValid = s.treeValid ∧ t.codesValid = s.codesValid) ∧
  (∀ s : State, (resetEvent s).treeValid = false ∧ (resetEvent s).codesValid = false) ∧
  (∀ s : State, ((hostStep s).treeValid = s.treeValid ∧ (hostStep s).codesValid = s.codesValid) ∨
    ((hostStep s).treeValid = false ∧ (hostStep s).codesValid = false ∧
      ∃ x y, x.write = true ∧ target s x = some (.freq y) ∧ s.busy = false ∧
        (s.held = some x ∨ ∃ rest, Issues s x rest))) ∧
  (∀ s t : State, (s.codesValid = true → s.treeValid = true) → step s = .next t →
    t.codesValid = true → t.treeValid = true)

/-! ### The whole machine -/

/-- `Inv` holds after reset. The free draws of reset are not constrained by it beyond R45. -/
def Obligations.InvariantHoldsAtReset : Prop := Inv State.reset

/-- Every step of every agent, and the reset event, keeps the invariant: the buffers' canonical form, CODES_VALID ⇒
TREE_VALID (R33), the meanings of the two flags (R29), codes of at most 255 bits (R45), the cleared flags of a busy
block (R34, R81), and no ERRCODE 13 to 15 (R211). -/
def Obligations.StepKeepsTheInvariant : Prop := ∀ s t : State, Inv s → step s = .next t → Inv t

/-- R249: every command ends. From a state that has the invariant a step neither faults nor refuses. -/
def Obligations.StepNeverStops : Prop := ∀ s : State, Inv s → StepsOn s

/-- R111, R249: a pending command is completed or dropped by reset after finitely many steps, whatever the host does
meanwhile: at most one step more than the schedule is long. -/
def Obligations.PendingCommandIsCompleted : Prop :=
  ∀ s : State, Inv s → s.busy = true →
    ∃ k ≤ s.schedule.length + 1, ∃ t, Host.Core.run Sys2Proof.core k s = .next t ∧ t.busy = false
end

