-- ==== Sys2Proof/Laws/State.lean ====
section
/-! SUPPORT. What each named update of the state leaves in each field: one lemma a field, true by rfl. -/

namespace Sys2Proof.Machine

variable (s : State)

/-! ### invalidate -/

@[simp] theorem invalidate_pending : (invalidate s).pending = s.pending := rfl
@[simp] theorem invalidate_done : (invalidate s).done = s.done := rfl
@[simp] theorem invalidate_err : (invalidate s).err = s.err := rfl
@[simp] theorem invalidate_treeValid : (invalidate s).treeValid = false := rfl
@[simp] theorem invalidate_codesValid : (invalidate s).codesValid = false := rfl
@[simp] theorem invalidate_errCode : (invalidate s).errCode = s.errCode := rfl
@[simp] theorem invalidate_lastOp : (invalidate s).lastOp = s.lastOp := rfl
@[simp] theorem invalidate_donePend : (invalidate s).donePend = s.donePend := rfl
@[simp] theorem invalidate_errPend : (invalidate s).errPend = s.errPend := rfl
@[simp] theorem invalidate_doneEn : (invalidate s).doneEn = s.doneEn := rfl
@[simp] theorem invalidate_errEn : (invalidate s).errEn = s.errEn := rfl
@[simp] theorem invalidate_srcLen : (invalidate s).srcLen = s.srcLen := rfl
@[simp] theorem invalidate_decCount : (invalidate s).decCount = s.decCount := rfl
@[simp] theorem invalidate_outLen : (invalidate s).outLen = s.outLen := rfl
@[simp] theorem invalidate_outBits : (invalidate s).outBits = s.outBits := rfl
@[simp] theorem invalidate_treeRoot : (invalidate s).treeRoot = s.treeRoot := rfl
@[simp] theorem invalidate_nodeCount : (invalidate s).nodeCount = s.nodeCount := rfl
@[simp] theorem invalidate_nleaf : (invalidate s).nleaf = s.nleaf := rfl
@[simp] theorem invalidate_errPos : (invalidate s).errPos = s.errPos := rfl
@[simp] theorem invalidate_errBit : (invalidate s).errBit = s.errBit := rfl
@[simp] theorem invalidate_ibufLog2 : (invalidate s).ibufLog2 = s.ibufLog2 := rfl
@[simp] theorem invalidate_obufLog2 : (invalidate s).obufLog2 = s.obufLog2 := rfl
@[simp] theorem invalidate_freq : (invalidate s).freq = s.freq := rfl
@[simp] theorem invalidate_node : (invalidate s).node = s.node := rfl
@[simp] theorem invalidate_code : (invalidate s).code = s.code := rfl
@[simp] theorem invalidate_ibuf : (invalidate s).ibuf = s.ibuf := rfl
@[simp] theorem invalidate_obuf : (invalidate s).obuf = s.obuf := rfl
@[simp] theorem invalidate_held : (invalidate s).held = s.held := rfl
@[simp] theorem invalidate_hostOps : (invalidate s).hostOps = s.hostOps := rfl
@[simp] theorem invalidate_schedule : (invalidate s).schedule = s.schedule := rfl
@[simp] theorem invalidate_answers : (invalidate s).answers = s.answers := rfl
@[simp] theorem invalidate_draws : (invalidate s).draws = s.draws := rfl

/-! ### accept -/

@[simp] theorem accept_pending (w : Word) : (accept w s).pending = some w := rfl
@[simp] theorem accept_done (w : Word) : (accept w s).done = false := rfl
@[simp] theorem accept_err (w : Word) : (accept w s).err = false := rfl
@[simp] theorem accept_treeValid (w : Word) : (accept w s).treeValid = s.treeValid := rfl
@[simp] theorem accept_codesValid (w : Word) : (accept w s).codesValid = s.codesValid := rfl
@[simp] theorem accept_errCode (w : Word) : (accept w s).errCode = 0 := rfl
@[simp] theorem accept_lastOp (w : Word) : (accept w s).lastOp = w.extractLsb' 0 4 := rfl
@[simp] theorem accept_donePend (w : Word) : (accept w s).donePend = s.donePend := rfl
@[simp] theorem accept_errPend (w : Word) : (accept w s).errPend = s.errPend := rfl
@[simp] theorem accept_doneEn (w : Word) : (accept w s).doneEn = s.doneEn := rfl
@[simp] theorem accept_errEn (w : Word) : (accept w s).errEn = s.errEn := rfl
@[simp] theorem accept_srcLen (w : Word) : (accept w s).srcLen = s.srcLen := rfl
@[simp] theorem accept_decCount (w : Word) : (accept w s).decCount = s.decCount := rfl
@[simp] theorem accept_outLen (w : Word) : (accept w s).outLen = s.outLen := rfl
@[simp] theorem accept_outBits (w : Word) : (accept w s).outBits = s.outBits := rfl
@[simp] theorem accept_treeRoot (w : Word) : (accept w s).treeRoot = s.treeRoot := rfl
@[simp] theorem accept_nodeCount (w : Word) : (accept w s).nodeCount = s.nodeCount := rfl
@[simp] theorem accept_nleaf (w : Word) : (accept w s).nleaf = s.nleaf := rfl
@[simp] theorem accept_errPos (w : Word) : (accept w s).errPos = s.errPos := rfl
@[simp] theorem accept_errBit (w : Word) : (accept w s).errBit = s.errBit := rfl
@[simp] theorem accept_ibufLog2 (w : Word) : (accept w s).ibufLog2 = s.ibufLog2 := rfl
@[simp] theorem accept_obufLog2 (w : Word) : (accept w s).obufLog2 = s.obufLog2 := rfl
@[simp] theorem accept_freq (w : Word) : (accept w s).freq = s.freq := rfl
@[simp] theorem accept_node (w : Word) : (accept w s).node = s.node := rfl
@[simp] theorem accept_code (w : Word) : (accept w s).code = s.code := rfl
@[simp] theorem accept_ibuf (w : Word) : (accept w s).ibuf = s.ibuf := rfl
@[simp] theorem accept_obuf (w : Word) : (accept w s).obuf = s.obuf := rfl
@[simp] theorem accept_held (w : Word) : (accept w s).held = s.held := rfl
@[simp] theorem accept_hostOps (w : Word) : (accept w s).hostOps = s.hostOps := rfl
@[simp] theorem accept_schedule (w : Word) : (accept w s).schedule = s.schedule := rfl
@[simp] theorem accept_answers (w : Word) : (accept w s).answers = s.answers := rfl
@[simp] theorem accept_draws (w : Word) : (accept w s).draws = s.draws := rfl

/-! ### succeed -/

@[simp] theorem succeed_pending : (succeed s).pending = none := rfl
@[simp] theorem succeed_done : (succeed s).done = true := rfl
@[simp] theorem succeed_err : (succeed s).err = false := rfl
@[simp] theorem succeed_treeValid : (succeed s).treeValid = s.treeValid := rfl
@[simp] theorem succeed_codesValid : (succeed s).codesValid = s.codesValid := rfl
@[simp] theorem succeed_errCode : (succeed s).errCode = 0 := rfl
@[simp] theorem succeed_lastOp : (succeed s).lastOp = s.lastOp := rfl
@[simp] theorem succeed_donePend : (succeed s).donePend = true := rfl
@[simp] theorem succeed_errPend : (succeed s).errPend = s.errPend := rfl
@[simp] theorem succeed_doneEn : (succeed s).doneEn = s.doneEn := rfl
@[simp] theorem succeed_errEn : (succeed s).errEn = s.errEn := rfl
@[simp] theorem succeed_srcLen : (succeed s).srcLen = s.srcLen := rfl
@[simp] theorem succeed_decCount : (succeed s).decCount = s.decCount := rfl
@[simp] theorem succeed_outLen : (succeed s).outLen = s.outLen := rfl
@[simp] theorem succeed_outBits : (succeed s).outBits = s.outBits := rfl
@[simp] theorem succeed_treeRoot : (succeed s).treeRoot = s.treeRoot := rfl
@[simp] theorem succeed_nodeCount : (succeed s).nodeCount = s.nodeCount := rfl
@[simp] theorem succeed_nleaf : (succeed s).nleaf = s.nleaf := rfl
@[simp] theorem succeed_errPos : (succeed s).errPos = 0 := rfl
@[simp] theorem succeed_errBit : (succeed s).errBit = 0 := rfl
@[simp] theorem succeed_ibufLog2 : (succeed s).ibufLog2 = s.ibufLog2 := rfl
@[simp] theorem succeed_obufLog2 : (succeed s).obufLog2 = s.obufLog2 := rfl
@[simp] theorem succeed_freq : (succeed s).freq = s.freq := rfl
@[simp] theorem succeed_node : (succeed s).node = s.node := rfl
@[simp] theorem succeed_code : (succeed s).code = s.code := rfl
@[simp] theorem succeed_ibuf : (succeed s).ibuf = s.ibuf := rfl
@[simp] theorem succeed_obuf : (succeed s).obuf = s.obuf := rfl
@[simp] theorem succeed_held : (succeed s).held = s.held := rfl
@[simp] theorem succeed_hostOps : (succeed s).hostOps = s.hostOps := rfl
@[simp] theorem succeed_schedule : (succeed s).schedule = s.schedule := rfl
@[simp] theorem succeed_answers : (succeed s).answers = s.answers := rfl
@[simp] theorem succeed_draws : (succeed s).draws = s.draws := rfl

/-! ### raise -/

@[simp] theorem raise_pending (r : Raised) : (raise r s).pending = none := rfl
@[simp] theorem raise_done (r : Raised) : (raise r s).done = true := rfl
@[simp] theorem raise_err (r : Raised) : (raise r s).err = true := rfl
@[simp] theorem raise_treeValid (r : Raised) : (raise r s).treeValid = s.treeValid := rfl
@[simp] theorem raise_codesValid (r : Raised) : (raise r s).codesValid = s.codesValid := rfl
@[simp] theorem raise_errCode (r : Raised) : (raise r s).errCode = r.error.code := rfl
@[simp] theorem raise_lastOp (r : Raised) : (raise r s).lastOp = s.lastOp := rfl
@[simp] theorem raise_donePend (r : Raised) : (raise r s).donePend = true := rfl
@[simp] theorem raise_errPend (r : Raised) : (raise r s).errPend = true := rfl
@[simp] theorem raise_doneEn (r : Raised) : (raise r s).doneEn = s.doneEn := rfl
@[simp] theorem raise_errEn (r : Raised) : (raise r s).errEn = s.errEn := rfl
@[simp] theorem raise_srcLen (r : Raised) : (raise r s).srcLen = s.srcLen := rfl
@[simp] theorem raise_decCount (r : Raised) : (raise r s).decCount = s.decCount := rfl
@[simp] theorem raise_outLen (r : Raised) : (raise r s).outLen = s.outLen := rfl
@[simp] theorem raise_outBits (r : Raised) : (raise r s).outBits = s.outBits := rfl
@[simp] theorem raise_treeRoot (r : Raised) : (raise r s).treeRoot = s.treeRoot := rfl
@[simp] theorem raise_nodeCount (r : Raised) : (raise r s).nodeCount = s.nodeCount := rfl
@[simp] theorem raise_nleaf (r : Raised) : (raise r s).nleaf = s.nleaf := rfl
@[simp] theorem raise_errPos (r : Raised) : (raise r s).errPos = BitVec.ofNat 32 r.pos := rfl
@[simp] theorem raise_errBit (r : Raised) : (raise r s).errBit = BitVec.ofNat 32 r.bit := rfl
@[simp] theorem raise_ibufLog2 (r : Raised) : (raise r s).ibufLog2 = s.ibufLog2 := rfl
@[simp] theorem raise_obufLog2 (r : Raised) : (raise r s).obufLog2 = s.obufLog2 := rfl
@[simp] theorem raise_freq (r : Raised) : (raise r s).freq = s.freq := rfl
@[simp] theorem raise_node (r : Raised) : (raise r s).node = s.node := rfl
@[simp] theorem raise_code (r : Raised) : (raise r s).code = s.code := rfl
@[simp] theorem raise_ibuf (r : Raised) : (raise r s).ibuf = s.ibuf := rfl
@[simp] theorem raise_obuf (r : Raised) : (raise r s).obuf = s.obuf := rfl
@[simp] theorem raise_held (r : Raised) : (raise r s).held = s.held := rfl
@[simp] theorem raise_hostOps (r : Raised) : (raise r s).hostOps = s.hostOps := rfl
@[simp] theorem raise_schedule (r : Raised) : (raise r s).schedule = s.schedule := rfl
@[simp] theorem raise_answers (r : Raised) : (raise r s).answers = s.answers := rfl
@[simp] theorem raise_draws (r : Raised) : (raise r s).draws = s.draws := rfl

/-! ### clearOut -/

@[simp] theorem clearOut_pending : (clearOut s).pending = s.pending := rfl
@[simp] theorem clearOut_done : (clearOut s).done = s.done := rfl
@[simp] theorem clearOut_err : (clearOut s).err = s.err := rfl
@[simp] theorem clearOut_treeValid : (clearOut s).treeValid = s.treeValid := rfl
@[simp] theorem clearOut_codesValid : (clearOut s).codesValid = s.codesValid := rfl
@[simp] theorem clearOut_errCode : (clearOut s).errCode = s.errCode := rfl
@[simp] theorem clearOut_lastOp : (clearOut s).lastOp = s.lastOp := rfl
@[simp] theorem clearOut_donePend : (clearOut s).donePend = s.donePend := rfl
@[simp] theorem clearOut_errPend : (clearOut s).errPend = s.errPend := rfl
@[simp] theorem clearOut_doneEn : (clearOut s).doneEn = s.doneEn := rfl
@[simp] theorem clearOut_errEn : (clearOut s).errEn = s.errEn := rfl
@[simp] theorem clearOut_srcLen : (clearOut s).srcLen = s.srcLen := rfl
@[simp] theorem clearOut_decCount : (clearOut s).decCount = s.decCount := rfl
@[simp] theorem clearOut_outLen : (clearOut s).outLen = 0 := rfl
@[simp] theorem clearOut_outBits : (clearOut s).outBits = 0 := rfl
@[simp] theorem clearOut_treeRoot : (clearOut s).treeRoot = s.treeRoot := rfl
@[simp] theorem clearOut_nodeCount : (clearOut s).nodeCount = s.nodeCount := rfl
@[simp] theorem clearOut_nleaf : (clearOut s).nleaf = s.nleaf := rfl
@[simp] theorem clearOut_errPos : (clearOut s).errPos = s.errPos := rfl
@[simp] theorem clearOut_errBit : (clearOut s).errBit = s.errBit := rfl
@[simp] theorem clearOut_ibufLog2 : (clearOut s).ibufLog2 = s.ibufLog2 := rfl
@[simp] theorem clearOut_obufLog2 : (clearOut s).obufLog2 = s.obufLog2 := rfl
@[simp] theorem clearOut_freq : (clearOut s).freq = s.freq := rfl
@[simp] theorem clearOut_node : (clearOut s).node = s.node := rfl
@[simp] theorem clearOut_code : (clearOut s).code = s.code := rfl
@[simp] theorem clearOut_ibuf : (clearOut s).ibuf = s.ibuf := rfl
@[simp] theorem clearOut_obuf : (clearOut s).obuf = s.obuf := rfl
@[simp] theorem clearOut_held : (clearOut s).held = s.held := rfl
@[simp] theorem clearOut_hostOps : (clearOut s).hostOps = s.hostOps := rfl
@[simp] theorem clearOut_schedule : (clearOut s).schedule = s.schedule := rfl
@[simp] theorem clearOut_answers : (clearOut s).answers = s.answers := rfl
@[simp] theorem clearOut_draws : (clearOut s).draws = s.draws := rfl

/-! ### havocObuf -/

@[simp] theorem havocObuf_pending : (havocObuf s).pending = s.pending := rfl
@[simp] theorem havocObuf_done : (havocObuf s).done = s.done := rfl
@[simp] theorem havocObuf_err : (havocObuf s).err = s.err := rfl
@[simp] theorem havocObuf_treeValid : (havocObuf s).treeValid = s.treeValid := rfl
@[simp] theorem havocObuf_codesValid : (havocObuf s).codesValid = s.codesValid := rfl
@[simp] theorem havocObuf_errCode : (havocObuf s).errCode = s.errCode := rfl
@[simp] theorem havocObuf_lastOp : (havocObuf s).lastOp = s.lastOp := rfl
@[simp] theorem havocObuf_donePend : (havocObuf s).donePend = s.donePend := rfl
@[simp] theorem havocObuf_errPend : (havocObuf s).errPend = s.errPend := rfl
@[simp] theorem havocObuf_doneEn : (havocObuf s).doneEn = s.doneEn := rfl
@[simp] theorem havocObuf_errEn : (havocObuf s).errEn = s.errEn := rfl
@[simp] theorem havocObuf_srcLen : (havocObuf s).srcLen = s.srcLen := rfl
@[simp] theorem havocObuf_decCount : (havocObuf s).decCount = s.decCount := rfl
@[simp] theorem havocObuf_outLen : (havocObuf s).outLen = s.outLen := rfl
@[simp] theorem havocObuf_outBits : (havocObuf s).outBits = s.outBits := rfl
@[simp] theorem havocObuf_treeRoot : (havocObuf s).treeRoot = s.treeRoot := rfl
@[simp] theorem havocObuf_nodeCount : (havocObuf s).nodeCount = s.nodeCount := rfl
@[simp] theorem havocObuf_nleaf : (havocObuf s).nleaf = s.nleaf := rfl
@[simp] theorem havocObuf_errPos : (havocObuf s).errPos = s.errPos := rfl
@[simp] theorem havocObuf_errBit : (havocObuf s).errBit = s.errBit := rfl
@[simp] theorem havocObuf_ibufLog2 : (havocObuf s).ibufLog2 = s.ibufLog2 := rfl
@[simp] theorem havocObuf_obufLog2 : (havocObuf s).obufLog2 = s.obufLog2 := rfl
@[simp] theorem havocObuf_freq : (havocObuf s).freq = s.freq := rfl
@[simp] theorem havocObuf_node : (havocObuf s).node = s.node := rfl
@[simp] theorem havocObuf_code : (havocObuf s).code = s.code := rfl
@[simp] theorem havocObuf_ibuf : (havocObuf s).ibuf = s.ibuf := rfl
@[simp] theorem havocObuf_obuf : (havocObuf s).obuf = .drawn s.draws := rfl
@[simp] theorem havocObuf_held : (havocObuf s).held = s.held := rfl
@[simp] theorem havocObuf_hostOps : (havocObuf s).hostOps = s.hostOps := rfl
@[simp] theorem havocObuf_schedule : (havocObuf s).schedule = s.schedule := rfl
@[simp] theorem havocObuf_answers : (havocObuf s).answers = s.answers := rfl
@[simp] theorem havocObuf_draws : (havocObuf s).draws = s.draws + 1 := rfl

/-! ### clearIrqPend -/

@[simp] theorem clearIrqPend_pending (w : Word) : (clearIrqPend w s).pending = s.pending := rfl
@[simp] theorem clearIrqPend_done (w : Word) : (clearIrqPend w s).done = s.done := rfl
@[simp] theorem clearIrqPend_err (w : Word) : (clearIrqPend w s).err = s.err := rfl
@[simp] theorem clearIrqPend_treeValid (w : Word) : (clearIrqPend w s).treeValid = s.treeValid := rfl
@[simp] theorem clearIrqPend_codesValid (w : Word) : (clearIrqPend w s).codesValid = s.codesValid := rfl
@[simp] theorem clearIrqPend_errCode (w : Word) : (clearIrqPend w s).errCode = s.errCode := rfl
@[simp] theorem clearIrqPend_lastOp (w : Word) : (clearIrqPend w s).lastOp = s.lastOp := rfl
@[simp] theorem clearIrqPend_donePend (w : Word) : (clearIrqPend w s).donePend = (s.donePend && !w.getLsbD 0) := rfl
@[simp] theorem clearIrqPend_errPend (w : Word) : (clearIrqPend w s).errPend = (s.errPend && !w.getLsbD 1) := rfl
@[simp] theorem clearIrqPend_doneEn (w : Word) : (clearIrqPend w s).doneEn = s.doneEn := rfl
@[simp] theorem clearIrqPend_errEn (w : Word) : (clearIrqPend w s).errEn = s.errEn := rfl
@[simp] theorem clearIrqPend_srcLen (w : Word) : (clearIrqPend w s).srcLen = s.srcLen := rfl
@[simp] theorem clearIrqPend_decCount (w : Word) : (clearIrqPend w s).decCount = s.decCount := rfl
@[simp] theorem clearIrqPend_outLen (w : Word) : (clearIrqPend w s).outLen = s.outLen := rfl
@[simp] theorem clearIrqPend_outBits (w : Word) : (clearIrqPend w s).outBits = s.outBits := rfl
@[simp] theorem clearIrqPend_treeRoot (w : Word) : (clearIrqPend w s).treeRoot = s.treeRoot := rfl
@[simp] theorem clearIrqPend_nodeCount (w : Word) : (clearIrqPend w s).nodeCount = s.nodeCount := rfl
@[simp] theorem clearIrqPend_nleaf (w : Word) : (clearIrqPend w s).nleaf = s.nleaf := rfl
@[simp] theorem clearIrqPend_errPos (w : Word) : (clearIrqPend w s).errPos = s.errPos := rfl
@[simp] theorem clearIrqPend_errBit (w : Word) : (clearIrqPend w s).errBit = s.errBit := rfl
@[simp] theorem clearIrqPend_ibufLog2 (w : Word) : (clearIrqPend w s).ibufLog2 = s.ibufLog2 := rfl
@[simp] theorem clearIrqPend_obufLog2 (w : Word) : (clearIrqPend w s).obufLog2 = s.obufLog2 := rfl
@[simp] theorem clearIrqPend_freq (w : Word) : (clearIrqPend w s).freq = s.freq := rfl
@[simp] theorem clearIrqPend_node (w : Word) : (clearIrqPend w s).node = s.node := rfl
@[simp] theorem clearIrqPend_code (w : Word) : (clearIrqPend w s).code = s.code := rfl
@[simp] theorem clearIrqPend_ibuf (w : Word) : (clearIrqPend w s).ibuf = s.ibuf := rfl
@[simp] theorem clearIrqPend_obuf (w : Word) : (clearIrqPend w s).obuf = s.obuf := rfl
@[simp] theorem clearIrqPend_held (w : Word) : (clearIrqPend w s).held = s.held := rfl
@[simp] theorem clearIrqPend_hostOps (w : Word) : (clearIrqPend w s).hostOps = s.hostOps := rfl
@[simp] theorem clearIrqPend_schedule (w : Word) : (clearIrqPend w s).schedule = s.schedule := rfl
@[simp] theorem clearIrqPend_answers (w : Word) : (clearIrqPend w s).answers = s.answers := rfl
@[simp] theorem clearIrqPend_draws (w : Word) : (clearIrqPend w s).draws = s.draws := rfl

/-! ### answer -/

@[simp] theorem answer_pending (a : Answer) : (answer a s).pending = s.pending := rfl
@[simp] theorem answer_done (a : Answer) : (answer a s).done = s.done := rfl
@[simp] theorem answer_err (a : Answer) : (answer a s).err = s.err := rfl
@[simp] theorem answer_treeValid (a : Answer) : (answer a s).treeValid = s.treeValid := rfl
@[simp] theorem answer_codesValid (a : Answer) : (answer a s).codesValid = s.codesValid := rfl
@[simp] theorem answer_errCode (a : Answer) : (answer a s).errCode = s.errCode := rfl
@[simp] theorem answer_lastOp (a : Answer) : (answer a s).lastOp = s.lastOp := rfl
@[simp] theorem answer_donePend (a : Answer) : (answer a s).donePend = s.donePend := rfl
@[simp] theorem answer_errPend (a : Answer) : (answer a s).errPend = s.errPend := rfl
@[simp] theorem answer_doneEn (a : Answer) : (answer a s).doneEn = s.doneEn := rfl
@[simp] theorem answer_errEn (a : Answer) : (answer a s).errEn = s.errEn := rfl
@[simp] theorem answer_srcLen (a : Answer) : (answer a s).srcLen = s.srcLen := rfl
@[simp] theorem answer_decCount (a : Answer) : (answer a s).decCount = s.decCount := rfl
@[simp] theorem answer_outLen (a : Answer) : (answer a s).outLen = s.outLen := rfl
@[simp] theorem answer_outBits (a : Answer) : (answer a s).outBits = s.outBits := rfl
@[simp] theorem answer_treeRoot (a : Answer) : (answer a s).treeRoot = s.treeRoot := rfl
@[simp] theorem answer_nodeCount (a : Answer) : (answer a s).nodeCount = s.nodeCount := rfl
@[simp] theorem answer_nleaf (a : Answer) : (answer a s).nleaf = s.nleaf := rfl
@[simp] theorem answer_errPos (a : Answer) : (answer a s).errPos = s.errPos := rfl
@[simp] theorem answer_errBit (a : Answer) : (answer a s).errBit = s.errBit := rfl
@[simp] theorem answer_ibufLog2 (a : Answer) : (answer a s).ibufLog2 = s.ibufLog2 := rfl
@[simp] theorem answer_obufLog2 (a : Answer) : (answer a s).obufLog2 = s.obufLog2 := rfl
@[simp] theorem answer_freq (a : Answer) : (answer a s).freq = s.freq := rfl
@[simp] theorem answer_node (a : Answer) : (answer a s).node = s.node := rfl
@[simp] theorem answer_code (a : Answer) : (answer a s).code = s.code := rfl
@[simp] theorem answer_ibuf (a : Answer) : (answer a s).ibuf = s.ibuf := rfl
@[simp] theorem answer_obuf (a : Answer) : (answer a s).obuf = s.obuf := rfl
@[simp] theorem answer_held (a : Answer) : (answer a s).held = s.held := rfl
@[simp] theorem answer_hostOps (a : Answer) : (answer a s).hostOps = s.hostOps := rfl
@[simp] theorem answer_schedule (a : Answer) : (answer a s).schedule = s.schedule := rfl
@[simp] theorem answer_answers (a : Answer) : (answer a s).answers = a :: s.answers := rfl
@[simp] theorem answer_draws (a : Answer) : (answer a s).draws = s.draws := rfl

/-! ### Views of the state -/

/-- `succeed` is the completion of R213 with success. -/
theorem succeed_eq_completedOk : succeed s = completedOk s := rfl

/-- `raise` is the completion of R213 with an error. -/
theorem raise_eq_completedErr (r : Raised) : raise r s = completedErr r.error.code r.pos r.bit s := rfl

@[simp] theorem busy_eq_false : s.busy = false ↔ s.pending = none := by
  simp [State.busy]

@[simp] theorem busy_eq_true : s.busy = true ↔ ∃ w, s.pending = some w := by
  simp [State.busy, Option.isSome_iff_exists]

@[simp] theorem ibufSize_pos : 0 < s.ibufSize := Nat.two_pow_pos _

@[simp] theorem obufSize_pos : 0 < s.obufSize := Nat.two_pow_pos _

/-! ### The fields of the IRQ_PEND, IRQ_EN and STATUS words (R29, R35, R36) -/

theorem irqPendWord_fields : s.irqPendWord.getLsbD 0 = s.donePend ∧ s.irqPendWord.getLsbD 1 = s.errPend ∧
    s.irqPendWord.extractLsb' 2 30 = 0 := by
  simp only [State.irqPendWord]
  cases s.donePend <;> cases s.errPend <;> exact ⟨rfl, rfl, rfl⟩

theorem irqEnWord_fields : s.irqEnWord.getLsbD 0 = s.doneEn ∧ s.irqEnWord.getLsbD 1 = s.errEn ∧
    s.irqEnWord.extractLsb' 2 30 = 0 := by
  simp only [State.irqEnWord]
  cases s.doneEn <;> cases s.errEn <;> exact ⟨rfl, rfl, rfl⟩

theorem statusWord_busy : s.statusWord.getLsbD 0 = s.busy := by
  simp only [State.statusWord, BitVec.getLsbD_append]; simp

theorem statusWord_done : s.statusWord.getLsbD 1 = s.done := by
  simp only [State.statusWord, BitVec.getLsbD_append]; simp

theorem statusWord_err : s.statusWord.getLsbD 2 = s.err := by
  simp only [State.statusWord, BitVec.getLsbD_append]; simp

theorem statusWord_treeValid : s.statusWord.getLsbD 3 = s.treeValid := by
  simp only [State.statusWord, BitVec.getLsbD_append]; simp

theorem statusWord_codesValid : s.statusWord.getLsbD 4 = s.codesValid := by
  simp only [State.statusWord, BitVec.getLsbD_append]; simp

theorem ibufSize_le : s.ibufSize ≤ 2 ^ 28 := Nat.pow_le_pow_right (by decide) (by omega)

theorem obufSize_le : s.obufSize ≤ 2 ^ 28 := Nat.pow_le_pow_right (by decide) (by omega)

end Sys2Proof.Machine
end

