-- ==== Sys2Proof/Laws/Memory.lean ====
section
/-! SUPPORT. Tables and buffers: reading after writing, and the canonical form. -/

namespace Sys2Proof.Machine

/-! ### Tables -/

section Table

variable {α : Type} (t : Vector α 256)

@[simp] theorem tableGet_tableSet_self (y : Byte) (v : α) : tableGet (tableSet t y v) y = v := by
  simp [tableGet, tableSet]

theorem tableGet_tableSet (y z : Byte) (v : α) :
    tableGet (tableSet t y v) z = if y = z then v else tableGet t z := by
  simp only [tableGet, tableSet, Vector.getElem_set, BitVec.toNat_inj]

theorem tableGet_tableSet_of_ne {y z : Byte} (v : α) (h : y ≠ z) : tableGet (tableSet t y v) z = tableGet t z := by
  simp [tableGet_tableSet, h]

@[simp] theorem tableGet_replicate (v : α) (y : Byte) : tableGet (Vector.replicate 256 v) y = v := by
  simp [tableGet]

end Table

/-! ### Lists of cells -/

section Cells

variable (cs : List Host.Cell) (k j : Nat) (b : Byte)

theorem lookupCell_insertCell_self : lookupCell k (insertCell k b cs) = some b := by
  induction cs with
  | nil => simp [insertCell, lookupCell]
  | cons c cs ih =>
    rw [insertCell]
    split
    · simp [lookupCell]
    · split
      · simp [lookupCell]
      · rename_i h
        simp [lookupCell, ih, Ne.symm h]

theorem lookupCell_insertCell_of_ne (h : j ≠ k) : lookupCell j (insertCell k b cs) = lookupCell j cs := by
  induction cs with
  | nil => simp [insertCell, lookupCell, h.symm]
  | cons c cs ih =>
    rw [insertCell]
    split
    · simp [lookupCell, h.symm]
    · split
      · rename_i hk
        simp [lookupCell, hk ▸ h.symm, h.symm]
      · simp [lookupCell, ih]

theorem mem_insertCell {c : Host.Cell} (h : c ∈ insertCell k b cs) : c = (k, b) ∨ c ∈ cs := by
  induction cs with
  | nil => simpa [insertCell] using h
  | cons d cs ih =>
    rw [insertCell] at h
    split at h
    · simpa using h
    · split at h
      · simp at h; tauto
      · rcases List.mem_cons.1 h with h | h
        · simp [h]
        · rcases ih h with h | h <;> simp [h]

theorem insertCell_rising (h : cs.Pairwise fun c d => c.1 < d.1) :
    (insertCell k b cs).Pairwise fun c d => c.1 < d.1 := by
  induction cs with
  | nil => simp [insertCell]
  | cons c cs ih =>
    rw [List.pairwise_cons] at h
    rw [insertCell]
    split
    · rename_i hk
      refine List.pairwise_cons.2 ⟨fun d hd => ?_, List.pairwise_cons.2 h⟩
      rcases List.mem_cons.1 hd with rfl | hd
      · exact hk
      · exact hk.trans (h.1 d hd)
    · split
      · rename_i hk
        exact List.pairwise_cons.2 ⟨fun d hd => hk ▸ h.1 d hd, h.2⟩
      · refine List.pairwise_cons.2 ⟨fun d hd => ?_, ih h.2⟩
        rcases mem_insertCell cs k b hd with rfl | hd
        · show c.1 < k
          omega
        · exact h.1 d hd

end Cells

/-! ### One byte of a buffer -/

section Bytes

variable (m : Memory) (k j : Nat) (b : Byte) (bs : List Byte)

@[simp] theorem read_write_self : (m.write k b).read k = b := by
  simp [Memory.read, Memory.write, lookupCell_insertCell_self]

theorem read_write_of_ne (h : j ≠ k) : (m.write k b).read j = m.read j := by
  simp [Memory.read, Memory.write, Memory.unlisted, lookupCell_insertCell_of_ne _ _ _ _ h]

theorem read_write : (m.write k b).read j = if j = k then b else m.read j := by
  split
  · rename_i h; rw [h, read_write_self]
  · rename_i h; exact read_write_of_ne m k j b h

theorem read_writeBytes_below (h : j < k) : (m.writeBytes k bs).read j = m.read j := by
  induction bs generalizing m k with
  | nil => rfl
  | cons b bs ih => rw [Memory.writeBytes, ih _ _ (by omega), read_write_of_ne _ _ _ _ (by omega)]

/-- MemWrite changes exactly the bytes it stores, the first at the lowest index (R71). -/
theorem read_writeBytes : (m.writeBytes k bs).read j =
    if k ≤ j ∧ j < k + bs.length then bs.getD (j - k) 0 else m.read j := by
  induction bs generalizing m k with
  | nil => simp [Memory.writeBytes]
  | cons b bs ih =>
    rw [Memory.writeBytes]
    by_cases hj : j = k
    · subst hj
      rw [read_writeBytes_below _ _ _ _ (by omega), read_write_self]
      simp
    · rw [ih, read_write_of_ne _ _ _ _ hj]
      by_cases h : k + 1 ≤ j ∧ j < k + 1 + bs.length
      · rw [if_pos h, if_pos (by simp; omega)]
        obtain ⟨i, rfl⟩ : ∃ i, j = k + 1 + i := ⟨j - (k + 1), by omega⟩
        rw [show k + 1 + i - (k + 1) = i by omega, show k + 1 + i - k = i + 1 by omega, List.getD_cons_succ]
      · rw [if_neg h, if_neg (by simp; omega)]

@[simp] theorem writeBytes_draw : (m.writeBytes k bs).draw = m.draw := by
  induction bs generalizing m k with
  | nil => rfl
  | cons b bs ih => rw [Memory.writeBytes, ih]; rfl

/-! ### The canonical form -/

theorem write_wf (h : m.wf) : (m.write k b).wf := insertCell_rising _ _ _ h

theorem write_inside {size : Nat} (hk : k < size) (h : m.inside size) : (m.write k b).inside size := by
  intro c hc
  rcases mem_insertCell _ _ _ hc with rfl | hc
  · exact hk
  · exact h c hc

theorem writeBytes_wf (h : m.wf) : (m.writeBytes k bs).wf := by
  induction bs generalizing m k with
  | nil => exact h
  | cons b bs ih => exact ih _ _ (write_wf m k b h)

theorem writeBytes_inside {size : Nat} (hk : k + bs.length ≤ size) (h : m.inside size) :
    (m.writeBytes k bs).inside size := by
  induction bs generalizing m k with
  | nil => exact h
  | cons b bs ih =>
    rw [List.length_cons] at hk
    exact ih _ _ (by omega) (write_inside m k b (by omega) h)

@[simp] theorem drawn_wf (d : Nat) : (Memory.drawn d).wf := List.Pairwise.nil

@[simp] theorem drawn_inside (d size : Nat) : (Memory.drawn d).inside size := by
  intro c hc; cases hc

@[simp] theorem drawn_draw (d : Nat) : (Memory.drawn d).draw = d := rfl

theorem reset_ibuf_wf : State.reset.ibuf.wf := List.Pairwise.nil

theorem reset_obuf_wf : State.reset.obuf.wf := List.Pairwise.nil

end Bytes

end Sys2Proof.Machine
end

