-- ==== Sys2Proof/Laws/Bits.lean ====
section
/-! SUPPORT. Bit sequences as numbers, bytes of stream bits, and the packed stream in a buffer. -/

namespace Sys2Proof.Machine

/-- Bit `i` of the number is the `i`-th bit of the sequence. -/
theorem testBit_bitsToNat (bs : List Bool) (i : Nat) : (bitsToNat bs).testBit i = bs.getD i false := by
  induction bs generalizing i with
  | nil => simp [bitsToNat]
  | cons b bs ih =>
    rw [bitsToNat]
    cases i with
    | zero => cases b <;> simp
    | succ i =>
      rw [Nat.testBit_succ, show (b.toNat + 2 * bitsToNat bs) / 2 = bitsToNat bs by
        cases b <;> simp; omega, ih, List.getD_cons_succ]

@[simp] theorem bitSlice_length (bs : List Bool) (i n : Nat) : (bitSlice bs i n).length = n := by
  simp [bitSlice]

theorem getD_bitSlice (bs : List Bool) (i n j : Nat) (h : j < n) :
    (bitSlice bs i n).getD j false = bs.getD (i + j) false := by
  simp [bitSlice, List.getD_eq_getElem?_getD, h]

/-- Bit 7 − j of a stream byte is its `j`-th stream bit (R104). -/
theorem getLsbD_streamByte (bs : List Bool) (j : Nat) (h : j < 8) :
    (streamByte bs).getLsbD (7 - j) = bs.getD j false := by
  rw [streamByte, BitVec.getLsbD_ofNat, testBit_bitsToNat]
  have hr : (bitSlice bs 0 8).reverse.getD (7 - j) false = (bitSlice bs 0 8).getD j false := by
    rw [List.getD_eq_getElem?_getD, List.getElem?_reverse (by simp; omega), List.getD_eq_getElem?_getD]
    congr 2
    simp; omega
  rw [hr, getD_bitSlice _ _ _ _ h]
  simp; omega

@[simp] theorem packBytes_length (bs : List Bool) : (packBytes bs).length = (bs.length + 7) / 8 := by
  simp [packBytes]

theorem packBytes_getD (bs : List Bool) (i : Nat) (h : i < (bs.length + 7) / 8) :
    (packBytes bs).getD i 0 = streamByte (bs.drop (8 * i)) := by
  simp [packBytes, List.getD_eq_getElem?_getD, h]

/-- Every stream bit of the packed bytes is the stream's, and the padding bits are 0 (R104, R105, R172). -/
theorem streamBit_writeBytes_packBytes (m : Memory) (bs : List Bool) (p : Nat) (h : p < 8 * ((bs.length + 7) / 8)) :
    (m.writeBytes 0 (packBytes bs)).streamBit p = bs.getD p false := by
  rw [Memory.streamBit, read_writeBytes, if_pos (by rw [packBytes_length]; omega), Nat.sub_zero,
    packBytes_getD _ _ (by omega), getLsbD_streamByte _ _ (by omega), List.getD_eq_getElem?_getD, List.getElem?_drop,
    ← List.getD_eq_getElem?_getD, show 8 * (p / 8) + p % 8 = p by omega]

theorem read_writeBytes_packBytes_of_le (m : Memory) (bs : List Bool) (k : Nat) (h : (bs.length + 7) / 8 ≤ k) :
    (m.writeBytes 0 (packBytes bs)).read k = m.read k := by
  rw [read_writeBytes, if_neg (by rw [packBytes_length]; omega)]

/-- A code bit of the CODE window (R107). -/
theorem getLsbD_codeWord (c : Code) (j b : Nat) (hj : j < 8) (hb : b < 32) :
    (codeWord c (Fin.ofNat 16 (j + 1))).getLsbD b = c.getD (32 * j + b) false := by
  have hv : (Fin.ofNat 16 (j + 1)).val = j + 1 := Nat.mod_eq_of_lt (by omega)
  rw [codeWord, if_neg (by rw [hv]; omega), if_pos (by rw [hv]; omega), hv, BitVec.getLsbD_ofNat, testBit_bitsToNat,
    Nat.add_sub_cancel, getD_bitSlice _ _ _ _ hb]
  simp [hb]

/-- The stream bits of a byte determine it. -/
theorem read_eq_of_streamBit (m m' : Memory) (k : Nat)
    (h : ∀ j < 8, m.streamBit (8 * k + j) = m'.streamBit (8 * k + j)) : m.read k = m'.read k := by
  refine BitVec.eq_of_getLsbD_eq fun i hi => ?_
  have := h (7 - i) (by omega)
  simp only [Memory.streamBit, show (8 * k + (7 - i)) / 8 = k by omega, show (8 * k + (7 - i)) % 8 = 7 - i by omega,
    show 7 - (7 - i) = i by omega] at this
  exact this

/-- Two buffers with the same bytes have the same stream. -/
theorem streamBit_congr (m m' : Memory) (n : Nat) (h : ∀ k < n, m.read k = m'.read k) (p : Nat) (hp : p < 8 * n) :
    m.streamBit p = m'.streamBit p := by
  rw [Memory.streamBit, Memory.streamBit, h _ (by omega)]

end Sys2Proof.Machine
end

