-- ==== Sys2Proof/Laws/Bus.lean ====
section
/-! SUPPORT. The register bus: which accesses are mapped, and what one step of the host can do. -/

namespace Sys2Proof.Machine

/-! ### The address map -/

theorem csr_ofIndex_isSome (n : Nat) : (Csr.ofIndex n).isSome = true ↔ n < 16 := by
  constructor
  · intro h
    by_contra hn
    have : Csr.ofIndex n = none := by
      unfold Csr.ofIndex
      split <;> first | omega | rfl
    rw [this] at h; cases h
  · intro h
    have : ∀ k < 16, (Csr.ofIndex k).isSome = true := by decide
    exact this n h

theorem wordTarget_isSome (a : Nat) :
    (wordTarget a).isSome = true ↔
      a < 0x40 ∨ (0x400 ≤ a ∧ a < 0x800) ∨ (0x2000 ≤ a ∧ a < 0x3FF0) ∨ (0x4000 ≤ a ∧ a < 0x8000) := by
  unfold wordTarget
  split
  · rw [Option.isSome_map, csr_ofIndex_isSome]; omega
  · split
    · simp; omega
    · split
      · simp; omega
      · split <;> simp <;> omega

/-- An access is not an ERROR case exactly when it is mapped (R74). -/
theorem target_isSome (s : State) (x : Access) : (target s x).isSome = true ↔ Mapped s x := by
  unfold target Mapped
  simp only []
  split
  · rename_i h
    simp [h]
  · rename_i h
    simp only [ne_eq, not_not] at h
    split
    · rename_i h1
      simp [h, h1]
    · split
      · rename_i h1 h2
        simp [h, h2]
      · rename_i h1 h2
        split
        · rename_i hs
          rw [wordTarget_isSome]
          tauto
        · rename_i hs
          simp [hs, h1, h2]

theorem target_eq_none (s : State) (x : Access) : target s x = none ↔ ¬ Mapped s x := by
  rw [← target_isSome]
  simp

/-- The map depends on the sizes only. -/
theorem target_congr {s t : State} (hi : t.ibufLog2 = s.ibufLog2) (ho : t.obufLog2 = s.obufLog2) (x : Access) :
    target t x = target s x := by
  have hi' : t.ibufSize = s.ibufSize := by rw [State.ibufSize, State.ibufSize, hi]
  have ho' : t.obufSize = s.obufSize := by rw [State.obufSize, State.obufSize, ho]
  rw [target, target, hi', ho']

theorem wordTarget_ne_buffer (a k : Nat) : wordTarget a ≠ some (.ibuf k) ∧ wordTarget a ≠ some (.obuf k) := by
  unfold wordTarget
  split
  · cases Csr.ofIndex (a / 4) <;> simp
  · split
    · simp
    · split
      · simp
      · split <;> simp

/-- A buffer access lies inside the buffer. -/
theorem target_ibuf_inside {s : State} {x : Access} {k : Nat} (h : target s x = some (.ibuf k)) :
    k + x.size.bytes ≤ s.ibufSize := by
  unfold target at h
  simp only [] at h
  split at h
  · cases h
  · split at h
    · simp only [Option.some.injEq, Target.ibuf.injEq] at h; omega
    · split at h
      · simp only [Option.some.injEq, reduceCtorEq] at h
      · split at h
        · exact absurd h (wordTarget_ne_buffer _ _).1
        · cases h

theorem target_obuf_inside {s : State} {x : Access} {k : Nat} (h : target s x = some (.obuf k)) :
    k + x.size.bytes ≤ s.obufSize := by
  unfold target at h
  simp only [] at h
  split at h
  · cases h
  · split at h
    · simp only [Option.some.injEq, reduceCtorEq] at h
    · split at h
      · simp only [Option.some.injEq, Target.obuf.injEq] at h; omega
      · split at h
        · exact absurd h (wordTarget_ne_buffer _ _).2
        · cases h

/-- The word regions, with their bounds (R23). -/
theorem wordTarget_eq_some {a : Nat} {t : Target} : wordTarget a = some t ↔
    (∃ r, Csr.ofIndex (a / 4) = some r ∧ t = .csr r) ∨
    (0x400 ≤ a ∧ a < 0x800 ∧ t = .freq (BitVec.ofNat 8 ((a - 0x400) / 4))) ∨
    (0x2000 ≤ a ∧ a < 0x3FF0 ∧ t = .node (Fin.ofNat 511 ((a - 0x2000) / 16)) (Fin.ofNat 4 (a / 4))) ∨
    (0x4000 ≤ a ∧ a < 0x8000 ∧ t = .code (BitVec.ofNat 8 ((a - 0x4000) / 64)) (Fin.ofNat 16 (a / 4))) := by
  constructor
  · intro h
    unfold wordTarget at h
    split at h
    · obtain ⟨r, hr, rfl⟩ := Option.map_eq_some_iff.1 h
      exact .inl ⟨r, hr, rfl⟩
    · split at h
      · exact .inr (.inl ⟨by omega, by omega, (Option.some.inj h).symm⟩)
      · split at h
        · exact .inr (.inr (.inl ⟨by omega, by omega, (Option.some.inj h).symm⟩))
        · split at h
          · exact .inr (.inr (.inr ⟨by omega, by omega, (Option.some.inj h).symm⟩))
          · cases h
  · unfold wordTarget
    rintro (⟨r, hr, rfl⟩ | ⟨h1, h2, rfl⟩ | ⟨h1, h2, rfl⟩ | ⟨h1, h2, rfl⟩)
    · have := (csr_ofIndex_isSome (a / 4)).1 (by rw [hr]; rfl)
      rw [if_pos (by omega), hr]; rfl
    · rw [if_neg (by omega), if_pos ⟨h1, h2⟩]
    · rw [if_neg (by omega), if_neg (by omega), if_pos ⟨h1, h2⟩]
    · rw [if_neg (by omega), if_neg (by omega), if_neg (by omega), if_pos ⟨h1, h2⟩]

/-- What an access addresses, said as the three kinds of region (R23, R72, R73). -/
theorem target_eq_some {s : State} {x : Access} {t : Target} : target s x = some t ↔
    x.addr.toNat % x.size.bytes = 0 ∧
      ((∃ k, t = .ibuf k ∧ x.addr.toNat = 0x1000_0000 + k ∧ k + x.size.bytes ≤ s.ibufSize) ∨
        (∃ k, t = .obuf k ∧ x.addr.toNat = 0x2000_0000 + k ∧ k + x.size.bytes ≤ s.obufSize) ∨
        (x.size = .b4 ∧ wordTarget x.addr.toNat = some t)) := by
  constructor
  · intro h
    unfold target at h
    simp only [] at h
    split at h
    · cases h
    · rename_i h0
      refine ⟨by omega, ?_⟩
      split at h
      · exact .inl ⟨_, (Option.some.inj h).symm, by omega, by omega⟩
      · split at h
        · exact .inr (.inl ⟨_, (Option.some.inj h).symm, by omega, by omega⟩)
        · split at h
          · exact .inr (.inr ⟨‹_›, h⟩)
          · cases h
  · rintro ⟨h0, h⟩
    have hi := ibufSize_le s
    have hb : 0 < x.size.bytes := by cases x.size <;> decide
    unfold target
    simp only []
    rw [if_neg (by omega)]
    rcases h with ⟨k, rfl, h1, h2⟩ | ⟨k, rfl, h1, h2⟩ | ⟨h4, hw⟩
    · rw [if_pos (by omega), show x.addr.toNat - 0x1000_0000 = k by omega]
    · rw [if_neg (by omega), if_pos (by omega), show x.addr.toNat - 0x2000_0000 = k by omega]
    · have := (wordTarget_isSome x.addr.toNat).1 (by rw [hw]; rfl)
      rw [if_neg (by omega), if_neg (by omega), if_pos h4, hw]

/-- A word region is addressed below both buffers (R23), so a 4-byte access there finds its word. -/
theorem target_word (s : State) (a : BitVec 32) (w : Bool) (d : Word) (h4 : a.toNat % 4 = 0) (hlt : a.toNat < 0x8000) :
    target s ⟨a, .b4, w, d⟩ = wordTarget a.toNat := by
  unfold target
  simp only [Size.bytes]
  rw [if_neg (by omega), if_neg (by omega), if_neg (by omega)]
  rfl

theorem target_of_word (s : State) {a : BitVec 32} {t : Target} (w : Bool) (d : Word) (h4 : a.toNat % 4 = 0)
    (hlt : a.toNat < 0x8000) (h : wordTarget a.toNat = some t) : target s ⟨a, .b4, w, d⟩ = some t := by
  rw [target_word s a w d h4 hlt, h]

@[simp] theorem wordBytes_length (w : Word) (n : Nat) : (wordBytes w n).length = n := by simp [wordBytes]

theorem wordBytes_getD (w : Word) (n j : Nat) (h : j < n) : (wordBytes w n).getD j 0 = w.extractLsb' (8 * j) 8 := by
  simp [wordBytes, List.getD_eq_getElem?_getD, h]

/-- A host write to a buffer stores the access's bytes, and no other byte changes (R71). -/
theorem read_writeBytes_wordBytes (m : Memory) (k j n : Nat) (w : Word) :
    (m.writeBytes k (wordBytes w n)).read j =
      if k ≤ j ∧ j < k + n then w.extractLsb' (8 * (j - k)) 8 else m.read j := by
  rw [read_writeBytes, wordBytes_length]
  split
  · exact wordBytes_getD _ _ _ (by omega)
  · rfl

/-! ### One access -/

/-- What issuing an access can do (R74, R80, R81). -/
theorem issue_cases (x : Access) (s : State) :
    (target s x = none ∧ issue x s = answerError x s) ∨
      ∃ t, target s x = some t ∧
        ((s.busy = true ∧ t.isHeld = true ∧ issue x s = { s with held := some x }) ∨
          ((s.busy = false ∨ t.isHeld = false) ∧ issue x s = perform x t s)) := by
  unfold issue
  cases h : target s x with
  | none => exact .inl ⟨rfl, rfl⟩
  | some t =>
    refine .inr ⟨t, rfl, ?_⟩
    by_cases hb : s.busy = true ∧ t.isHeld = true
    · exact .inl ⟨hb.1, hb.2, by simp only [hb.1, hb.2, Bool.and_true, if_true]⟩
    · refine .inr ⟨by cases hs : s.busy <;> cases ht : t.isHeld <;> simp_all, ?_⟩
      simp only [Bool.and_eq_true]
      rw [if_neg hb]

theorem issue_none {x : Access} {s : State} (h : target s x = none) : issue x s = answerError x s := by
  simp [issue, h]

theorem issue_held {x : Access} {s : State} {t : Target} (h : target s x = some t) (hb : s.busy = true)
    (ht : t.isHeld = true) : issue x s = { s with held := some x } := by
  simp [issue, h, hb, ht]

theorem issue_perform {x : Access} {s : State} {t : Target} (h : target s x = some t)
    (hp : s.busy = false ∨ t.isHeld = false) : issue x s = perform x t s := by
  rcases hp with hp | hp <;> simp [issue, h, hp]

/-- The host's step, for the next access of its program. -/
theorem hostStep_issue {s : State} {x : Access} {rest : List HostOp} (h : Issues s x rest) :
    hostStep s = issue x { s with hostOps := rest } := by
  simp [hostStep, h.1, h.2]

/-- An access that reaches its target (R81, R82). -/
theorem hostStep_perform {s : State} {x : Access} {rest : List HostOp} {t : Target} (h : Issues s x rest)
    (ht : target s x = some t) (hp : s.busy = false ∨ t.isHeld = false) :
    hostStep s = perform x t { s with hostOps := rest } := by
  have ht' : target { s with hostOps := rest } x = some t := ht ▸ target_congr rfl rfl x
  rw [hostStep_issue h, issue_perform ht' hp]

/-- A read that reaches its target changes nothing but the host's own fields (R26, R78). -/
theorem hostStep_read {s : State} {x : Access} {rest : List HostOp} {t : Target} (h : Issues s x rest)
    (ht : target s x = some t) (hw : x.write = false) (hp : s.busy = false ∨ t.isHeld = false) :
    hostStep s = answer ⟨.okay, some (readTarget { s with hostOps := rest } x.size t)⟩ { s with hostOps := rest } := by
  rw [hostStep_perform h ht hp, perform, hw]
  rfl

/-- An access that waits (R80). -/
theorem hostStep_waits {s : State} {x : Access} {rest : List HostOp} {t : Target} (h : Issues s x rest)
    (ht : target s x = some t) (hb : s.busy = true) (hh : t.isHeld = true) :
    hostStep s = { s with hostOps := rest, held := some x } := by
  have ht' : target { s with hostOps := rest } x = some t := ht ▸ target_congr rfl rfl x
  rw [hostStep_issue h, issue_held ht' hb hh]

/-- An access that gets the ERROR response (R74). -/
theorem hostStep_error {s : State} {x : Access} {rest : List HostOp} (h : Issues s x rest) (ht : target s x = none) :
    hostStep s = answerError x { s with hostOps := rest } := by
  have ht' : target { s with hostOps := rest } x = none := ht ▸ target_congr rfl rfl x
  rw [hostStep_issue h, issue_none ht']

theorem hostStep_held {s : State} {x : Access} (h : s.held = some x) : hostStep s = issue x { s with held := none } := by
  simp [hostStep, h]

/-- What a host step can do: nothing, or issue one access in a state that differs from `s` in the host's own
fields only. -/
theorem hostStep_cases (s : State) :
    hostStep s = s ∨
      ∃ (x : Access) (o : List HostOp), hostStep s = issue x { s with held := none, hostOps := o } ∧
        (s.held = some x ∨ (s.held = none ∧ (x = statusRead ∨ ∃ rest, Issues s x rest))) := by
  cases hh : s.held with
  | some x => exact .inr ⟨x, s.hostOps, hostStep_held hh, .inl rfl⟩
  | none =>
    have hs : ∀ o, { s with hostOps := o } = { s with held := none, hostOps := o } := fun o => by rw [← hh]
    cases ho : s.hostOps with
    | nil => exact .inl (by simp [hostStep, hh, ho])
    | cons op rest =>
      cases op with
      | access x => exact .inr ⟨x, rest, by rw [hostStep_issue ⟨hh, ho⟩, hs], .inr ⟨rfl, .inr ⟨rest, hh, ho⟩⟩⟩
      | wait =>
        by_cases hb : s.busy = true
        · refine .inr ⟨statusRead, s.hostOps, ?_, .inr ⟨rfl, .inl rfl⟩⟩
          rw [← hs s.hostOps]
          simp only [hostStep, hh, ho, hb, if_true]
          rw [← ho, ← hh]
        · refine .inr ⟨statusRead, rest, ?_, .inr ⟨rfl, .inl rfl⟩⟩
          rw [← hs]
          simp only [hostStep, hh, ho, if_neg hb]

theorem target_statusRead (s : State) : target s statusRead = some (.csr .status) := by
  rw [statusRead, target_word s _ _ _ (by decide) (by decide)]
  rfl

/-- A performed access is answered OKAY. -/
theorem perform_answers (x : Access) (t : Target) (s : State) :
    ∃ d, (perform x t s).answers = ⟨.okay, d⟩ :: s.answers := by
  rw [perform]
  split
  · refine ⟨none, ?_⟩
    cases t with
    | csr r => cases r <;> rfl
    | _ => rfl
  · exact ⟨_, rfl⟩

end Sys2Proof.Machine
end

