-- ==== Sys2Proof/Laws/Frequency.lean ====
section
/-! SUPPORT. The frequency counter's loop, and BUILD's weight check. -/

namespace Sys2Proof.Machine

theorem tableGet_succ_toNat (f : Vector Word 256) (b : Byte) (h : (tableGet f b).toNat ≠ Config.countMax) :
    (tableGet f b + 1).toNat = (tableGet f b).toNat + 1 := by
  have := (tableGet f b).isLt
  simp only [Config.countMax] at h
  rw [BitVec.toNat_add]
  simp; omega

/-- One count (R122): exact, for a count below 2^32 − 1. -/
theorem tableGet_count_one (f : Vector Word 256) (b y : Byte) (h : (tableGet f b).toNat ≠ Config.countMax) :
    (tableGet (tableSet f b (tableGet f b + 1)) y).toNat = (tableGet f y).toNat + if b = y then 1 else 0 := by
  rw [tableGet_tableSet]
  split
  · rename_i hb; subst hb; exact tableGet_succ_toNat f b h
  · simp

/-- The loop runs to the end of `pre` when every count has room, and adds the occurrences (R121). -/
theorem countBytes_append (i : Nat) (pre post : List Byte) (f : Vector Word 256)
    (h : ∀ y, (tableGet f y).toNat + pre.count y ≤ Config.countMax) :
    ∃ g, countBytes i (pre ++ post) f = countBytes (i + pre.length) post g ∧
      ∀ y, (tableGet g y).toNat = (tableGet f y).toNat + pre.count y := by
  induction pre generalizing i f with
  | nil => exact ⟨f, by simp, by simp⟩
  | cons b pre ih =>
    have hb : (tableGet f b).toNat ≠ Config.countMax := by
      have := h b
      simp at this; omega
    have hone := fun y => tableGet_count_one f b y hb
    obtain ⟨g, hg, hc⟩ := ih (i + 1) (tableSet f b (tableGet f b + 1)) fun y => by
      have := h y
      rw [List.count_cons] at this
      rw [hone]
      simp only [beq_iff_eq] at this
      omega
    refine ⟨g, ?_, fun y => ?_⟩
    · rw [List.cons_append, countBytes, if_neg hb, hg, List.length_cons]
      congr 1; omega
    · rw [hc, hone, List.count_cons]
      simp only [beq_iff_eq]
      omega

/-- COUNT's loop with room for every count (R121, R123). -/
theorem countBytes_ok (i : Nat) (bs : List Byte) (f : Vector Word 256)
    (h : ∀ y, (tableGet f y).toNat + bs.count y ≤ Config.countMax) :
    ∃ g, countBytes i bs f = (g, none) ∧ ∀ y, (tableGet g y).toNat = (tableGet f y).toNat + bs.count y := by
  obtain ⟨g, hg, hc⟩ := countBytes_append i bs [] f h
  exact ⟨g, by simpa [countBytes] using hg, hc⟩

/-- COUNT_OVF at the first byte whose count is full (R121). -/
theorem countBytes_ovf (i : Nat) (pre : List Byte) (b : Byte) (post : List Byte) (f : Vector Word 256)
    (h : ∀ y, (tableGet f y).toNat + pre.count y ≤ Config.countMax)
    (hb : (tableGet f b).toNat + pre.count b = Config.countMax) :
    ∃ g, countBytes i (pre ++ b :: post) f = (g, some (i + pre.length)) ∧
      ∀ y, (tableGet g y).toNat = (tableGet f y).toNat + pre.count y := by
  obtain ⟨g, hg, hc⟩ := countBytes_append i pre (b :: post) f h
  exact ⟨g, by rw [hg, countBytes, if_pos (by rw [hc, hb])], hc⟩

/-! ### Histograms (R123, R124) -/

/-- The bytes in order. -/
def allBytes : List Byte := (List.range 256).map (BitVec.ofNat 8)

theorem mem_allBytes (y : Byte) : y ∈ allBytes :=
  List.mem_map.2 ⟨y.toNat, List.mem_range.2 y.isLt, by simp⟩

theorem allBytes_nodup : allBytes.Nodup := by
  refine List.Nodup.map_on (fun i hi j hj h => ?_) List.nodup_range
  have := congrArg BitVec.toNat h
  simp only [BitVec.toNat_ofNat] at this
  have := List.mem_range.1 hi
  have := List.mem_range.1 hj
  omega

/-- Every byte of a list is counted once, under its own symbol. -/
theorem sum_count_allBytes (l : List Byte) : (allBytes.map fun y => l.count y).sum = l.length := by
  have hone : ∀ (b : Byte) (ks : List Byte), (ks.map fun y => if b == y then 1 else 0).sum = ks.count b := by
    intro b ks
    induction ks with
    | nil => rfl
    | cons k ks ih =>
      rw [List.map_cons, List.sum_cons, ih, List.count_cons, Nat.add_comm]
      congr 1
      by_cases h : b = k
      · subst h; rfl
      · rw [if_neg (by simpa using h), if_neg (by simpa using Ne.symm h)]
  have hadd : ∀ (b : Byte) (l ks : List Byte), (ks.map fun y => (b :: l).count y).sum =
      (ks.map fun y => l.count y).sum + ks.count b := by
    intro b l ks
    rw [← hone]
    induction ks with
    | nil => rfl
    | cons k ks ih =>
      rw [List.map_cons, List.sum_cons, ih, List.map_cons, List.sum_cons, List.map_cons, List.sum_cons, List.count_cons]
      omega
  induction l with
  | nil =>
    generalize allBytes = ks
    induction ks with
    | nil => rfl
    | cons k ks ih => rw [List.map_cons, List.sum_cons, ih]; rfl
  | cons b l ih =>
    rw [hadd, ih, List.count_eq_one_of_mem allBytes_nodup (mem_allBytes b), List.length_cons]

/-- The sum of a table, symbol by symbol (R124, R146). -/
theorem freqSum_eq_sum (f : Vector Word 256) : freqSum f 256 = (allBytes.map fun y => (tableGet f y).toNat).sum := by
  rw [freqSum, List.take_of_length_le (by simp)]
  congr 1
  refine List.ext_getElem (by simp [allBytes]) fun i h1 h2 => ?_
  have hi : i < 256 := by simpa using h1
  simp only [allBytes, List.getElem_map, List.getElem_range, Vector.getElem_toList, tableGet, BitVec.toNat_ofNat]
  congr 2
  exact (Nat.mod_eq_of_lt hi).symm

/-! ### The weight check -/

theorem weightOverflow_eq_none_iff (s total : Nat) (fs : List Word) (h : total ≤ Config.countMax) :
    weightOverflow s total fs = none ↔ total + (fs.map BitVec.toNat).sum ≤ Config.countMax := by
  induction fs generalizing s total with
  | nil => simpa [weightOverflow] using h
  | cons f fs ih =>
    rw [weightOverflow, List.map_cons, List.sum_cons]
    split
    · simp; omega
    · rw [ih _ _ (by omega)]
      omega

/-- WEIGHT_OVF names the first symbol at which the running sum is too large (R146). -/
theorem weightOverflow_eq_some (s total k : Nat) (fs : List Word) (hk : k < fs.length)
    (hle : total + ((fs.take k).map BitVec.toNat).sum ≤ Config.countMax)
    (hlt : Config.countMax < total + ((fs.take (k + 1)).map BitVec.toNat).sum) :
    weightOverflow s total fs = some (s + k) := by
  induction fs generalizing s total k with
  | nil => simp at hk
  | cons f fs ih =>
    rw [weightOverflow]
    cases k with
    | zero =>
      simp at hlt
      rw [if_pos hlt]; rfl
    | succ k =>
      simp only [List.take_succ_cons, List.map_cons, List.sum_cons] at hle hlt
      rw [if_neg (by omega), ih (s + 1) _ k (by simpa using hk) (by omega) (by omega)]
      congr 1; omega

theorem weightOverflow_freq (f : Vector Word 256) :
    weightOverflow 0 0 f.toList = none ↔ freqSum f 256 ≤ Config.countMax := by
  rw [weightOverflow_eq_none_iff _ _ _ (Nat.zero_le _), freqSum, List.take_of_length_le (by simp), Nat.zero_add]

/-- Every outcome of the weight check other than success names a symbol. -/
theorem weightOverflow_lt (s total k : Nat) (fs : List Word) (h : weightOverflow s total fs = some k) :
    s ≤ k ∧ k < s + fs.length := by
  induction fs generalizing s total with
  | nil => cases h
  | cons f fs ih =>
    rw [weightOverflow] at h
    split at h
    · cases h; simp
    · have := ih _ _ h
      simp; omega

end Sys2Proof.Machine
end

