-- ==== Sys2Proof/Laws/Queue.lean ====
section
/-! SUPPORT. The priority order, the extraction of the minimum, and the placing of nodes. -/

namespace Sys2Proof.Machine

/-! ### The order of R143 -/

theorem keyLt_eq_false_iff (A : Arena) (i j : NodeIx) : keyLt A j i = false ↔ KeyLe A i j := by
  rw [← Bool.not_eq_true]
  simp only [keyLt, KeyLe, Bool.or_eq_true, decide_eq_true_eq, Bool.and_eq_true, beq_iff_eq, ← BitVec.toNat_inj]
  omega

theorem KeyLe.of_keyLt {A : Arena} {i j : NodeIx} (h : keyLt A i j = true) : KeyLe A i j := by
  simp only [keyLt, KeyLe, Bool.or_eq_true, decide_eq_true_eq, Bool.and_eq_true, beq_iff_eq, ← BitVec.toNat_inj] at h ⊢
  omega

theorem KeyLe.trans {A : Arena} {i j k : NodeIx} (h : KeyLe A i j) (h' : KeyLe A j k) : KeyLe A i k := by
  simp only [KeyLe, ← BitVec.toNat_inj] at h h' ⊢
  omega

/-- The order is total on distinct nodes, so a minimum is unique (R143). -/
theorem KeyLe.antisymm {A : Arena} {i j : NodeIx} (h : KeyLe A i j) (h' : KeyLe A j i) : i = j := by
  simp only [KeyLe, ← BitVec.toNat_inj] at h h'
  exact Fin.ext (by omega)

/-- The order looks at the two nodes only. -/
theorem KeyLe.congr {A B : Arena} {i j : NodeIx} (hi : B[i] = A[i]) (hj : B[j] = A[j]) :
    KeyLe B i j ↔ KeyLe A i j := by
  rw [KeyLe, KeyLe, hi, hj]

/-! ### Extraction -/

theorem extractMin_eq_none_iff (A : Arena) (q : List NodeIx) : extractMin A q = none ↔ q = [] := by
  cases q with
  | nil => simp [extractMin]
  | cons i q =>
    rw [extractMin]
    split
    · simp
    · split <;> simp

/-- Extraction takes the least key and leaves the rest of the queue (R143). -/
theorem extractMin_spec {A : Arena} {q : List NodeIx} {a : NodeIx} {rest : List NodeIx}
    (h : extractMin A q = some (a, rest)) : q.Perm (a :: rest) ∧ ∀ j ∈ rest, KeyLe A a j := by
  induction q generalizing a rest with
  | nil => cases h
  | cons i q ih =>
    rw [extractMin] at h
    split at h
    · rename_i hn
      obtain rfl := (extractMin_eq_none_iff A q).1 hn
      cases h
      exact ⟨List.Perm.refl _, by simp⟩
    · rename_i j rest' hs
      obtain ⟨hp, hle⟩ := ih hs
      split at h
      · rename_i hlt
        cases h
        refine ⟨hp.cons i, fun k hk => ?_⟩
        rcases List.mem_cons.1 hk with rfl | hk
        · exact .of_keyLt hlt
        · exact (KeyLe.of_keyLt hlt).trans (hle k hk)
      · rename_i hlt
        cases h
        refine ⟨(hp.cons i).trans (List.Perm.swap _ _ _), fun k hk => ?_⟩
        rcases List.mem_cons.1 hk with rfl | hk
        · exact (keyLt_eq_false_iff A _ _).1 (by simpa using hlt)
        · exact hle k hk

theorem extractMin_length {A : Arena} {q : List NodeIx} {a : NodeIx} {rest : List NodeIx}
    (h : extractMin A q = some (a, rest)) : q.length = rest.length + 1 := by
  simpa using (extractMin_spec h).1.length_eq

/-! ### Placing nodes -/

theorem getElem_setNode (A : Arena) (k : Nat) (n : Node) (i : NodeIx) :
    (A.setIfInBounds k n)[i] = if k = i.val then n else A[i] := by
  simp [Vector.getElem_setIfInBounds]

theorem getElem_placeNodes (A : Arena) (k : Nat) (ns : List Node) (i : NodeIx) :
    (placeNodes A k ns)[i] = if h : k ≤ i.val ∧ i.val < k + ns.length then ns[i.val - k]'(by omega) else A[i] := by
  induction ns generalizing A k with
  | nil =>
    rw [placeNodes, dif_neg (by simp)]
  | cons n ns ih =>
    rw [placeNodes, ih]
    by_cases hk : k = i.val
    · rw [dif_neg (by omega), dif_pos (by simp; omega), getElem_setNode, if_pos hk]
      simp [hk]
    · by_cases h : k + 1 ≤ i.val ∧ i.val < k + 1 + ns.length
      · rw [dif_pos h, dif_pos (by simp; omega), List.getElem_cons, dif_neg (by omega)]
        congr 1
      · rw [dif_neg h, dif_neg (by simp; omega), getElem_setNode, if_neg hk]

/-! ### Present symbols (R141) -/

theorem presentSymbols_length (f : Vector Word 256) : (presentSymbols f).length ≤ 256 := by
  refine (List.length_filter_le _ _).trans ?_
  simp

theorem mem_presentSymbols (f : Vector Word 256) (y : Byte) : y ∈ presentSymbols f ↔ tableGet f y ≠ 0 := by
  simp only [presentSymbols, List.mem_filter, List.mem_map, List.mem_range, decide_eq_true_eq, and_iff_right_iff_imp]
  exact fun _ => ⟨y.toNat, y.isLt, by simp⟩

/-- The present symbols stand in ascending order. -/
theorem presentSymbols_ascending (f : Vector Word 256) :
    (presentSymbols f).Pairwise fun y z => y.toNat < z.toNat := by
  refine List.Pairwise.filter _ (List.pairwise_map.2 ?_)
  refine List.Pairwise.imp_of_mem ?_ List.pairwise_lt_range
  intro i j hi hj h
  simp only [List.mem_range] at hi hj
  simp only [BitVec.toNat_ofNat]
  omega

theorem presentSymbols_nodup (f : Vector Word 256) : (presentSymbols f).Nodup :=
  (presentSymbols_ascending f).imp fun h e => by simp [e] at h

end Sys2Proof.Machine
end

