-- ==== Sys2Proof/Laws/Merge.lean ====
section
/-! SUPPORT. What the merge rounds build: every internal node merges the two least waiting nodes. -/

namespace Sys2Proof.Machine

/-- NODE[m] is internal and merges the two least of the nodes waiting just before it was created (R143, R144). -/
structure IsMerge (A : Arena) (m a b : NodeIx) : Prop where
  node : A[m] = mergedNode A a b
  ne : a ≠ b
  left_waits : Waiting A m.val a
  right_waits : Waiting A m.val b
  left_least : ∀ j, Waiting A m.val j → KeyLe A a j
  right_least : ∀ j, Waiting A m.val j → j ≠ a → KeyLe A b j

/-- Below `bound` the arena holds `n` leaves and then merges only. -/
structure Merged (A : Arena) (n bound : Nat) : Prop where
  leaves : ∀ i : NodeIx, i.val < n → i.val < bound → A[i].internal = false
  merges : ∀ m : NodeIx, n ≤ m.val → m.val < bound → ∃ a b, IsMerge A m a b

/-! ### Two arenas that agree below a bound -/

section Agree

variable {A B : Arena} {n bound : Nat}

theorem IsChildBelow.congr (h : ∀ i : NodeIx, i.val < bound → B[i] = A[i]) (i : NodeIx) :
    IsChildBelow B bound i ↔ IsChildBelow A bound i := by
  constructor
  · rintro ⟨m, hm, hi, hc⟩
    rw [h m hm] at hi hc
    exact ⟨m, hm, hi, hc⟩
  · rintro ⟨m, hm, hi, hc⟩
    rw [← h m hm] at hi hc
    exact ⟨m, hm, hi, hc⟩

theorem Waiting.congr (h : ∀ i : NodeIx, i.val < bound → B[i] = A[i]) (i : NodeIx) :
    Waiting B bound i ↔ Waiting A bound i := by
  rw [Waiting, Waiting, IsChildBelow.congr h]

theorem IsMerge.congr (h : ∀ i : NodeIx, i.val < bound → B[i] = A[i]) {m a b : NodeIx} (hm : m.val < bound)
    (hA : IsMerge A m a b) : IsMerge B m a b := by
  have hw : ∀ i : NodeIx, i.val < m.val → B[i] = A[i] := fun i hi => h i (hi.trans hm)
  have ha := hw a hA.left_waits.1
  have hb := hw b hA.right_waits.1
  refine ⟨?_, hA.ne, (Waiting.congr hw a).2 hA.left_waits, (Waiting.congr hw b).2 hA.right_waits, fun j hj => ?_,
    fun j hj hne => ?_⟩
  · rw [h m hm, hA.node, mergedNode, mergedNode, ha, hb]
  · exact (KeyLe.congr ha (hw j hj.1)).2 (hA.left_least j ((Waiting.congr hw j).1 hj))
  · exact (KeyLe.congr hb (hw j hj.1)).2 (hA.right_least j ((Waiting.congr hw j).1 hj) hne)

theorem Merged.congr (h : ∀ i : NodeIx, i.val < bound → B[i] = A[i]) (hA : Merged A n bound) : Merged B n bound := by
  refine ⟨fun i hi hb => ?_, fun m hm hb => ?_⟩
  · rw [h i hb]; exact hA.leaves i hi hb
  · obtain ⟨a, b, hab⟩ := hA.merges m hm hb
    exact ⟨a, b, hab.congr h hb⟩

end Agree

/-- Merges over the same leaves are the same nodes (R147). -/
theorem Merged.unique {A B : Arena} {n bound : Nat} (hA : Merged A n bound) (hB : Merged B n bound)
    (hl : ∀ i : NodeIx, i.val < n → A[i] = B[i]) (i : NodeIx) (hi : i.val < bound) : A[i] = B[i] := by
  suffices h : ∀ k, ∀ i : NodeIx, i.val = k → i.val < bound → A[i] = B[i] from h _ i rfl hi
  intro k
  induction k using Nat.strongRecOn with
  | ind k ih =>
    intro i hk hi
    by_cases hn : k < n
    · exact hl i (by omega)
    · have hag : ∀ j : NodeIx, j.val < i.val → B[j] = A[j] := fun j hj => (ih j.val (by omega) j rfl (by omega)).symm
      obtain ⟨a, b, hab⟩ := hA.merges i (by omega) (by omega)
      obtain ⟨c, d, hcd⟩ := hB.merges i (by omega) (by omega)
      have hw : ∀ j, Waiting B i.val j ↔ Waiting A i.val j := Waiting.congr hag
      have hac : a = c := by
        have hc := (hw c).1 hcd.left_waits
        have h2 := hcd.left_least a ((hw a).2 hab.left_waits)
        rw [KeyLe.congr (hag c hc.1) (hag a hab.left_waits.1)] at h2
        exact (hab.left_least c hc).antisymm h2
      subst hac
      have hbd : b = d := by
        have hd := (hw d).1 hcd.right_waits
        have h2 := hcd.right_least b ((hw b).2 hab.right_waits) hab.ne.symm
        rw [KeyLe.congr (hag d hd.1) (hag b hab.right_waits.1)] at h2
        exact (hab.right_least d hd hcd.ne.symm).antisymm h2
      subst hbd
      rw [hab.node, hcd.node, mergedNode, mergedNode, hag a hab.left_waits.1, hag b hab.right_waits.1]

/-! ### One round -/

/-- The index of a node to be created, which the arena has room for. -/
theorem ofNat_val {k : Nat} (h : k < 511) : (Fin.ofNat 511 k : NodeIx).val = k := Nat.mod_eq_of_lt h

section Round

variable {A : Arena} {n next : Nat} {q q1 q2 : List NodeIx} {a b : NodeIx}

/-- What a queue holds: exactly the waiting nodes, each once. -/
structure QueueOk (A : Arena) (q : List NodeIx) (next : Nat) : Prop where
  nodup : q.Nodup
  mem : ∀ i, i ∈ q ↔ Waiting A next i

/-- Two extractions from a queue of waiting nodes. -/
theorem QueueOk.extract_two (hq : QueueOk A q next) (h1 : extractMin A q = some (a, q1))
    (h2 : extractMin A q1 = some (b, q2)) :
    a ≠ b ∧ Waiting A next a ∧ Waiting A next b ∧ (∀ j, Waiting A next j → KeyLe A a j) ∧
      (∀ j, Waiting A next j → j ≠ a → KeyLe A b j) ∧ q2.Nodup ∧
      (∀ i, i ∈ q2 ↔ Waiting A next i ∧ i ≠ a ∧ i ≠ b) := by
  obtain ⟨p1, l1⟩ := extractMin_spec h1
  obtain ⟨p2, l2⟩ := extractMin_spec h2
  have hp : q.Perm (a :: b :: q2) := p1.trans (p2.cons a)
  have hn := hp.nodup_iff.1 hq.nodup
  simp only [List.nodup_cons, List.mem_cons, not_or] at hn
  obtain ⟨⟨hab, ha2⟩, hb2, hn2⟩ := hn
  have hmem : ∀ i, Waiting A next i ↔ i = a ∨ i = b ∨ i ∈ q2 := fun i => by
    rw [← hq.mem, hp.mem_iff]; simp
  have hself : ∀ i, KeyLe A i i := fun i => .inr ⟨rfl, Nat.le_refl _⟩
  have hl : ∀ i, i ∈ q1 ↔ i = b ∨ i ∈ q2 := fun i => by rw [p2.mem_iff]; simp
  refine ⟨hab, (hmem a).2 (.inl rfl), (hmem b).2 (.inr (.inl rfl)), fun j hj => ?_, fun j hj hne => ?_, hn2,
    fun i => ?_⟩
  · rcases (hmem j).1 hj with rfl | hj
    · exact hself j
    · exact l1 j ((hl j).2 hj)
  · rcases (hmem j).1 hj with rfl | rfl | hj
    · exact absurd rfl hne
    · exact hself j
    · exact l2 j hj
  · rw [hmem]
    constructor
    · intro hi
      exact ⟨.inr (.inr hi), fun e => ha2 (e ▸ hi), fun e => hb2 (e ▸ hi)⟩
    · rintro ⟨rfl | rfl | hi, h1, h2⟩
      · exact absurd rfl h1
      · exact absurd rfl h2
      · exact hi

/-- The children of the nodes of a merged arena lie below them. -/
theorem Merged.child_lt (hA : Merged A n next) {m c : NodeIx} (hm : m.val < next) (hi : A[m].internal = true)
    (hc : A[m].left = some c ∨ A[m].right = some c) : c.val < m.val := by
  by_cases hmn : m.val < n
  · rw [hA.leaves m hmn hm] at hi; cases hi
  · obtain ⟨a, b, hab⟩ := hA.merges m (by omega) hm
    rw [hab.node] at hc
    simp only [mergedNode, Option.some.injEq] at hc
    rcases hc with rfl | rfl
    · exact hab.left_waits.1
    · exact hab.right_waits.1

/-- One merge round keeps everything (R144). -/
theorem Merged.round (hA : Merged A n next) (hq : QueueOk A q next) (hn : n ≤ next) (hnext : next < 511)
    (h1 : extractMin A q = some (a, q1)) (h2 : extractMin A q1 = some (b, q2)) :
    Merged (A.setIfInBounds next (mergedNode A a b)) n (next + 1) ∧
      QueueOk (A.setIfInBounds next (mergedNode A a b)) (Fin.ofNat 511 next :: q2) (next + 1) := by
  obtain ⟨hab, wa, wb, la, lb, hn2, hm2⟩ := hq.extract_two h1 h2
  set B := A.setIfInBounds next (mergedNode A a b) with hB
  have hagree : ∀ i : NodeIx, i.val < next → B[i] = A[i] := fun i hi => by
    rw [hB, getElem_setNode, if_neg (by omega)]
  have hnew : ∀ i : NodeIx, i.val = next → B[i] = mergedNode A a b := fun i hi => by
    rw [hB, getElem_setNode, if_pos hi.symm]
  have hBA := hA.congr hagree
  have hmerge : ∀ m : NodeIx, m.val = next → IsMerge B m a b := fun m hm => by
    subst hm
    refine ⟨?_, hab, (Waiting.congr hagree a).2 wa, (Waiting.congr hagree b).2 wb, fun j hj => ?_, fun j hj hne => ?_⟩
    · rw [hnew m rfl, mergedNode, mergedNode, hagree a wa.1, hagree b wb.1]
    · exact (KeyLe.congr (hagree a wa.1) (hagree j hj.1)).2 (la j ((Waiting.congr hagree j).1 hj))
    · exact (KeyLe.congr (hagree b wb.1) (hagree j hj.1)).2 (lb j ((Waiting.congr hagree j).1 hj) hne)
  have hMerged : Merged B n (next + 1) := by
    refine ⟨fun i hi hb => hBA.leaves i hi (by omega), fun m hm hb => ?_⟩
    by_cases h : m.val < next
    · exact hBA.merges m hm h
    · exact ⟨a, b, hmerge m (by omega)⟩
  refine ⟨hMerged, ?_, fun i => ?_⟩
  · refine List.nodup_cons.2 ⟨fun h => ?_, hn2⟩
    have := ((hm2 _).1 h).1.1
    rw [ofNat_val hnext] at this
    omega
  · have hchild : IsChildBelow B (next + 1) i ↔ IsChildBelow A next i ∨ i = a ∨ i = b := by
      rw [← IsChildBelow.congr hagree]
      constructor
      · rintro ⟨m, hm, hi, hc⟩
        by_cases h : m.val < next
        · exact .inl ⟨m, h, hi, hc⟩
        · rw [hnew m (by omega)] at hc
          simp only [mergedNode, Option.some.injEq] at hc
          rcases hc with rfl | rfl <;> simp
      · rintro (⟨m, hm, hi, hc⟩ | h)
        · exact ⟨m, by omega, hi, hc⟩
        · refine ⟨Fin.ofNat 511 next, by rw [ofNat_val hnext]; omega, ?_, ?_⟩
          · rw [hnew _ (ofNat_val hnext)]; rfl
          · rw [hnew _ (ofNat_val hnext)]
            rcases h with rfl | rfl <;> simp [mergedNode]
    rw [List.mem_cons, hm2, Waiting, Waiting, hchild]
    constructor
    · rintro (rfl | ⟨⟨hi, hnc⟩, ha, hb⟩)
      · refine ⟨by rw [ofNat_val hnext]; omega, ?_⟩
        rintro (⟨m, hm, hi, hc⟩ | h | h)
        · have := hA.child_lt hm hi hc
          rw [ofNat_val hnext] at this; omega
        · have := wa.1; rw [← h, ofNat_val hnext] at this; omega
        · have := wb.1; rw [← h, ofNat_val hnext] at this; omega
      · exact ⟨by omega, by tauto⟩
    · rintro ⟨hi, hnc⟩
      by_cases h : i.val = next
      · exact .inl (Fin.ext (by rw [ofNat_val hnext, h]))
      · exact .inr ⟨⟨by omega, by tauto⟩, by tauto, by tauto⟩

end Round

/-! ### All rounds -/

/-- The merge rounds of a queue of `rounds + 1` nodes: they end with one node waiting, and touch only the entries
they create (R144). -/
theorem mergeRounds_spec (rounds : Nat) {A : Arena} {n next : Nat} {q : List NodeIx} (hA : Merged A n next)
    (hq : QueueOk A q next) (hlen : q.length = rounds + 1) (hn : n ≤ next) (hnext : next + rounds ≤ 511) :
    ∃ B root, mergeRounds rounds A q next = (B, [root]) ∧ Merged B n (next + rounds) ∧
      QueueOk B [root] (next + rounds) ∧
      ∀ i : NodeIx, i.val < next ∨ next + rounds ≤ i.val → B[i] = A[i] := by
  induction rounds generalizing A q next with
  | zero =>
    obtain ⟨root, rfl⟩ := List.length_eq_one_iff.1 hlen
    exact ⟨A, root, rfl, hA, hq, fun _ _ => rfl⟩
  | succ rounds ih =>
    obtain ⟨⟨a, q1⟩, h1⟩ : ∃ r, extractMin A q = some r := Option.ne_none_iff_exists'.1 fun h => by
      rw [extractMin_eq_none_iff] at h; simp [h] at hlen
    have l1 := extractMin_length h1
    obtain ⟨⟨b, q2⟩, h2⟩ : ∃ r, extractMin A q1 = some r := Option.ne_none_iff_exists'.1 fun h => by
      rw [extractMin_eq_none_iff] at h; simp [h] at l1; omega
    have l2 := extractMin_length h2
    obtain ⟨hA', hq'⟩ := hA.round hq hn (by omega) h1 h2
    obtain ⟨B, root, hm, hB, hr, hsame⟩ := ih hA' hq' (by rw [List.length_cons]; omega) (by omega) (by omega)
    refine ⟨B, root, ?_, ?_, ?_, fun i hi => ?_⟩
    · simp only [mergeRounds, h1, h2, hm]
    · rwa [show next + (rounds + 1) = next + 1 + rounds by omega]
    · rwa [show next + (rounds + 1) = next + 1 + rounds by omega]
    · rw [hsame i (by omega), getElem_setNode, if_neg (by omega)]

end Sys2Proof.Machine
end

