-- ==== Sys2Proof/Laws/Tree.lean ====
section
/-! SUPPORT. What BUILD makes of a table, and the shape of its tree. -/

namespace Sys2Proof.Machine

/-- The arena with the leaves of the present symbols placed from NODE[0] on (R141). -/
def withLeaves (f : Vector Word 256) (A : Arena) : Arena := placeNodes A 0 ((presentSymbols f).map (leafNode f))

theorem withLeaves_leaf (f : Vector Word 256) (A : Arena) (i : NodeIx) (h : i.val < numPresent f) :
    (withLeaves f A)[i] = leafNode f ((presentSymbols f)[i.val]'h) := by
  rw [withLeaves, getElem_placeNodes, dif_pos ⟨Nat.zero_le _, by simpa [numPresent] using h⟩]
  simp only [List.getElem_map, Nat.sub_zero]
  rfl

theorem withLeaves_rest (f : Vector Word 256) (A : Arena) (i : NodeIx) (h : numPresent f ≤ i.val) :
    (withLeaves f A)[i] = A[i] := by
  rw [withLeaves, getElem_placeNodes, dif_neg (by simp only [numPresent] at h; simp; omega)]

theorem numPresent_le (f : Vector Word 256) : numPresent f ≤ 256 := presentSymbols_length f

/-! ### The three cases of R140 -/

/-- The empty table (R142). -/
theorem buildTree_empty (f : Vector Word 256) (A : Arena) (h : numPresent f = 0) :
    buildTree f A = { arena := A, root := none, count := 0, nleaf := 0 } := by
  have hs : presentSymbols f = [] := List.length_eq_zero_iff.1 h
  simp [buildTree, hs, placeNodes]

/-- The single-symbol table (R142). -/
theorem buildTree_single (f : Vector Word 256) (A : Arena) (h : numPresent f = 1) :
    buildTree f A =
      { arena := (withLeaves f A).set 1 (singleRoot (withLeaves f A)), root := some 1, count := 2, nleaf := 1 } := by
  simp only [numPresent] at h
  simp [buildTree, h, withLeaves]

/-- The nodes before the first round: the leaves, all waiting. -/
theorem withLeaves_merged (f : Vector Word 256) (A : Arena) :
    Merged (withLeaves f A) (numPresent f) (numPresent f) := by
  refine ⟨fun i hi _ => ?_, fun m hm hb => absurd hb (by omega)⟩
  rw [withLeaves_leaf f A i hi]
  rfl

theorem withLeaves_queue (f : Vector Word 256) (A : Arena) :
    QueueOk (withLeaves f A) ((List.range (numPresent f)).map (Fin.ofNat 511)) (numPresent f) := by
  have hle := numPresent_le f
  refine ⟨?_, fun i => ?_⟩
  · refine List.Nodup.map_on (fun x hx y hy h => ?_) List.nodup_range
    rw [List.mem_range] at hx hy
    have := congrArg Fin.val h
    rwa [ofNat_val (by omega), ofNat_val (by omega)] at this
  · simp only [List.mem_map, List.mem_range, Waiting]
    constructor
    · rintro ⟨k, hk, rfl⟩
      refine ⟨by rw [ofNat_val (by omega)]; exact hk, ?_⟩
      rintro ⟨m, hm, hi, -⟩
      rw [(withLeaves_merged f A).leaves m hm hm] at hi
      cases hi
    · rintro ⟨hi, -⟩
      exact ⟨i.val, hi, Fin.ext (ofNat_val (by omega))⟩

/-- A table of two or more present symbols (R143, R144): the leaves, then merges only, and the last node created
is the root and the only node left waiting. -/
theorem buildTree_many (f : Vector Word 256) (A : Arena) (h : 2 ≤ numPresent f) :
    ∃ root : NodeIx, root.val = 2 * numPresent f - 2 ∧
      (buildTree f A).root = some root ∧ (buildTree f A).count = 2 * numPresent f - 1 ∧
      (buildTree f A).nleaf = numPresent f ∧
      Merged (buildTree f A).arena (numPresent f) (2 * numPresent f - 1) ∧
      (∀ i, Waiting (buildTree f A).arena (2 * numPresent f - 1) i ↔ i = root) ∧
      ∀ i : NodeIx, i.val < numPresent f ∨ 2 * numPresent f - 1 ≤ i.val →
        (buildTree f A).arena[i] = (withLeaves f A)[i] := by
  have hle := numPresent_le f
  obtain ⟨B, root, hm, hB, hq, hsame⟩ := mergeRounds_spec (numPresent f - 1) (withLeaves_merged f A)
    (withLeaves_queue f A) (by simp; omega) (Nat.le_refl _) (by omega)
  rw [show numPresent f + (numPresent f - 1) = 2 * numPresent f - 1 by omega] at hB hq hsame
  have hb : buildTree f A =
      { arena := B, root := some root, count := 2 * numPresent f - 1, nleaf := numPresent f } := by
    rw [numPresent] at h hm ⊢
    rw [withLeaves] at hm
    simp only [buildTree, if_neg (show ¬ (presentSymbols f).length = 0 by omega),
      if_neg (show ¬ (presentSymbols f).length = 1 by omega), hm, List.head?_cons]
  have hw : ∀ i, Waiting B (2 * numPresent f - 1) i ↔ i = root := fun i => by
    rw [← hq.mem, List.mem_singleton]
  refine ⟨root, ?_, by rw [hb], by rw [hb], by rw [hb], by rw [hb]; exact hB, by rw [hb]; exact hw, by
    rw [hb]; exact hsame⟩
  have hlast : (Fin.ofNat 511 (2 * numPresent f - 2) : NodeIx).val = 2 * numPresent f - 2 := ofNat_val (by omega)
  have : (Fin.ofNat 511 (2 * numPresent f - 2) : NodeIx) = root := by
    rw [← hw]
    refine ⟨by rw [hlast]; omega, ?_⟩
    rintro ⟨m, hm, hi, hc⟩
    have := hB.child_lt hm hi hc
    rw [hlast] at this
    omega
  rw [← this, hlast]

/-! ### The shape (R148), one statement for every table -/

/-- `A` holds, in its first `count` nodes, a tree of `n` leaves with this root. -/
structure TreeShape (A : Arena) (root : NodeIx) (count n : Nat) : Prop where
  leaves_le : n ≤ 256
  root_last : root.val + 1 = count
  count_le : count ≤ n + 255
  lt_count : n < count
  leaf : ∀ i : NodeIx, i.val < n → A[i].internal = false
  inner : ∀ i : NodeIx, n ≤ i.val → i.val < count → A[i].internal = true
  child_lt : ∀ (m c : NodeIx) (b : Bool), m.val < count → A[m].internal = true → childOf A[m] b = some c → c.val < m.val
  one_parent : ∀ (m m' c : NodeIx) (b b' : Bool), m.val < count → m'.val < count → A[m].internal = true →
    A[m'].internal = true → childOf A[m] b = some c → childOf A[m'] b' = some c → m = m' ∧ b = b'
  has_parent : ∀ c : NodeIx, c.val < count → c ≠ root →
    ∃ (m : NodeIx) (b : Bool), m.val < count ∧ A[m].internal = true ∧ childOf A[m] b = some c

theorem childOf_mergedNode (A : Arena) (a b : NodeIx) (d : Bool) :
    childOf (mergedNode A a b) d = some (if d then b else a) := by
  cases d <;> rfl

theorem exists_childOf_iff (n : Node) (c : NodeIx) :
    (n.left = some c ∨ n.right = some c) ↔ ∃ b, childOf n b = some c := by
  simp [childOf]

/-- Merges give every node one parent at most: a node that has one waits no more. -/
theorem Merged.one_parent {A : Arena} {n bound : Nat} (hA : Merged A n bound) (m m' c : NodeIx) (b b' : Bool)
    (hm : m.val < bound) (hm' : m'.val < bound) (hi : A[m].internal = true) (hi' : A[m'].internal = true)
    (hc : childOf A[m] b = some c) (hc' : childOf A[m'] b' = some c) : m = m' ∧ b = b' := by
  have inner : ∀ x : NodeIx, x.val < bound → A[x].internal = true → n ≤ x.val := fun x hx hxi => by
    by_contra h
    rw [hA.leaves x (by omega) hx] at hxi
    cases hxi
  have not_below : ∀ (x y : NodeIx) (d d' : Bool), x.val < bound → y.val < bound → A[x].internal = true →
      A[y].internal = true → childOf A[x] d = some c → childOf A[y] d' = some c → ¬ x.val < y.val := by
    intro x y d d' hx hy hxi hyi hxc hyc hlt
    obtain ⟨a, e, hae⟩ := hA.merges y (inner y hy hyi) hy
    rw [hae.node, childOf_mergedNode] at hyc
    have hw : Waiting A y.val c := by
      cases d' <;> simp at hyc <;> subst hyc
      · exact hae.left_waits
      · exact hae.right_waits
    exact hw.2 ⟨x, hlt, hxi, (exists_childOf_iff _ _).2 ⟨d, hxc⟩⟩
  have hmm : m = m' := by
    have h1 := not_below m m' b b' hm hm' hi hi' hc hc'
    have h2 := not_below m' m b' b hm' hm hi' hi hc' hc
    exact Fin.ext (by omega)
  subst hmm
  refine ⟨rfl, ?_⟩
  obtain ⟨a, e, hae⟩ := hA.merges m (inner m hm hi) hm
  rw [hae.node, childOf_mergedNode] at hc hc'
  have := hae.ne
  cases b <;> cases b' <;> simp_all

/-- A table of two or more present symbols. -/
theorem buildTree_many_shape (f : Vector Word 256) (A : Arena) (h : 2 ≤ numPresent f) :
    ∃ root, (buildTree f A).root = some root ∧
      TreeShape (buildTree f A).arena root (buildTree f A).count (numPresent f) := by
  obtain ⟨root, hroot, hr, hcount, -, hB, hw, -⟩ := buildTree_many f A h
  have hle := numPresent_le f
  refine ⟨root, hr, ?_⟩
  rw [hcount]
  refine ⟨hle, by omega, by omega, by omega, fun i hi => hB.leaves i hi (by omega), fun i hi hb => ?_,
    fun m c b hm hi hc => hB.child_lt hm hi ((exists_childOf_iff _ _).2 ⟨b, hc⟩), hB.one_parent, fun c hc hne => ?_⟩
  · obtain ⟨a, b, hab⟩ := hB.merges i hi hb
    rw [hab.node]; rfl
  · have : ¬ Waiting (buildTree f A).arena (2 * numPresent f - 1) c := fun hcw => hne ((hw c).1 hcw)
    simp only [Waiting, not_and, not_not] at this
    obtain ⟨m, hm, hi, hmc⟩ := this hc
    obtain ⟨b, hb⟩ := (exists_childOf_iff _ _).1 hmc
    exact ⟨m, b, hm, hi, hb⟩

/-- The single-symbol tree: a leaf, and a root with no right child (R142). -/
theorem buildTree_single_nodes (f : Vector Word 256) (A : Arena) (h : numPresent f = 1) :
    (buildTree f A).arena[(0 : NodeIx)] = leafNode f ((presentSymbols f)[0]'(by rw [numPresent] at h; omega)) ∧
      (buildTree f A).arena[(1 : NodeIx)] =
        { weight := tableGet f ((presentSymbols f)[0]'(by rw [numPresent] at h; omega)), internal := true, sym := 0,
          left := some 0, right := none } ∧
      ∀ i : NodeIx, 2 ≤ i.val → (buildTree f A).arena[i] = A[i] := by
  have h0 := withLeaves_leaf f A 0 (by rw [h]; decide)
  simp only [Fin.getElem_fin, Fin.val_zero] at h0
  rw [buildTree_single f A h]
  refine ⟨?_, ?_, fun i hi => ?_⟩
  · simpa using h0
  · have h0' : (withLeaves f A)[0].weight = tableGet f ((presentSymbols f)[0]'(by rw [numPresent] at h; omega)) := by
      rw [h0]; rfl
    simp [singleRoot, h0']
  · have := withLeaves_rest f A i (by omega)
    simp only [Fin.getElem_fin] at this ⊢
    rw [Vector.getElem_set, if_neg (by omega), this]

theorem buildTree_single_shape (f : Vector Word 256) (A : Arena) (h : numPresent f = 1) :
    TreeShape (buildTree f A).arena 1 2 1 := by
  obtain ⟨h0, h1, -⟩ := buildTree_single_nodes f A h
  have l0 : (buildTree f A).arena[(0 : NodeIx)].internal = false := by rw [h0]; rfl
  have i1 : (buildTree f A).arena[(1 : NodeIx)].internal = true := by rw [h1]
  have two : ∀ i : NodeIx, i.val < 2 → i = 0 ∨ i = 1 := fun i hi => by
    rcases Nat.lt_succ_iff_lt_or_eq.1 hi with h | h
    · exact .inl (Fin.ext (by simp; omega))
    · exact .inr (Fin.ext (by simp [h]))
  have only : ∀ (m c : NodeIx) (b : Bool), m.val < 2 → (buildTree f A).arena[m].internal = true →
      childOf (buildTree f A).arena[m] b = some c → m = 1 ∧ b = false ∧ c = 0 := by
    intro m c b hm hi hc
    rcases two m hm with rfl | rfl
    · rw [l0] at hi; cases hi
    · rw [h1] at hc
      cases b <;> simp [childOf] at hc
      exact ⟨rfl, rfl, hc.symm⟩
  refine ⟨by omega, rfl, by omega, by omega, fun i hi => ?_, fun i hi hb => ?_, fun m c b hm hi hc => ?_,
    fun m m' c b b' hm hm' hi hi' hc hc' => ?_, fun c hc hne => ?_⟩
  · obtain rfl : i = 0 := Fin.ext (by simp; omega)
    exact l0
  · rcases two i hb with rfl | rfl
    · simp at hi
    · exact i1
  · obtain ⟨rfl, -, rfl⟩ := only m c b hm hi hc
    simp
  · obtain ⟨rfl, rfl, -⟩ := only m c b hm hi hc
    obtain ⟨rfl, rfl, -⟩ := only m' c b' hm' hi' hc'
    exact ⟨rfl, rfl⟩
  · rcases two c hc with rfl | rfl
    · exact ⟨1, false, by simp, i1, by rw [h1]; rfl⟩
    · exact absurd rfl hne

/-- Every non-empty table gives a tree of its present symbols (R142, R148). -/
theorem buildTree_shape (f : Vector Word 256) (A : Arena) (h : 1 ≤ numPresent f) :
    ∃ root, (buildTree f A).root = some root ∧
      TreeShape (buildTree f A).arena root (buildTree f A).count (numPresent f) := by
  by_cases h1 : numPresent f = 1
  · refine ⟨1, by rw [buildTree_single f A h1], ?_⟩
    have hc : (buildTree f A).count = 2 := by rw [buildTree_single f A h1]
    rw [hc, h1]
    exact buildTree_single_shape f A h1
  · exact buildTree_many_shape f A (by omega)

/-- Leaf `i` is the `i`-th present symbol (R141). -/
theorem buildTree_leaf (f : Vector Word 256) (A : Arena) (i : NodeIx) (h : i.val < numPresent f) :
    (buildTree f A).arena[i] = leafNode f ((presentSymbols f)[i.val]'h) := by
  by_cases h1 : numPresent f = 1
  · obtain rfl : i = 0 := Fin.ext (by simp; omega)
    exact (buildTree_single_nodes f A h1).1
  · obtain ⟨-, -, -, -, -, -, -, hsame⟩ := buildTree_many f A (by omega)
    rw [hsame i (.inl h), withLeaves_leaf f A i h]

/-- What BUILD does not write (R42): the entries from NODE_COUNT on. -/
theorem buildTree_rest (f : Vector Word 256) (A : Arena) (i : NodeIx) (h : (buildTree f A).count ≤ i.val) :
    (buildTree f A).arena[i] = A[i] := by
  rcases Nat.lt_or_ge (numPresent f) 1 with h0 | h0
  · rw [buildTree_empty f A (by omega)]
  · by_cases h1 : numPresent f = 1
    · refine (buildTree_single_nodes f A h1).2.2 i ?_
      rw [buildTree_single f A h1] at h
      exact h
    · obtain ⟨-, -, -, hcount, -, -, -, hsame⟩ := buildTree_many f A (by omega)
      rw [hcount] at h
      rw [hsame i (.inr h), withLeaves_rest f A i (by omega)]

/-- The result registers are functions of the number of present symbols (R145). -/
theorem buildTree_results (f : Vector Word 256) (A : Arena) :
    (buildTree f A).nleaf = numPresent f ∧
      (buildTree f A).count = (if numPresent f = 0 then 0 else if numPresent f = 1 then 2 else 2 * numPresent f - 1) ∧
      (buildTree f A).root = (if numPresent f = 0 then none else if numPresent f = 1 then some 1
        else some (Fin.ofNat 511 (2 * numPresent f - 2))) := by
  have hle := numPresent_le f
  split
  · rename_i h; rw [buildTree_empty f A h]; simp [h]
  · split
    · rename_i h; rw [buildTree_single f A h]; simp [h]
    · obtain ⟨root, hroot, hr, hcount, hn, -⟩ := buildTree_many f A (by omega)
      refine ⟨hn, hcount, ?_⟩
      rw [hr, Option.some.injEq]
      exact Fin.ext (by rw [ofNat_val (by omega), hroot])

/-- What BUILD writes depends on the table alone (R147). -/
theorem buildTree_congr (f : Vector Word 256) (A B : Arena) (i : NodeIx) (hi : i.val < (buildTree f A).count) :
    (buildTree f A).arena[i] = (buildTree f B).arena[i] := by
  by_cases h2 : 2 ≤ numPresent f
  · obtain ⟨_, -, -, hc, -, hA, -, -⟩ := buildTree_many f A h2
    obtain ⟨_, -, -, -, -, hB, -, -⟩ := buildTree_many f B h2
    exact hA.unique hB (fun i hi => by rw [buildTree_leaf f A i hi, buildTree_leaf f B i hi]) i (hc ▸ hi)
  · rw [(buildTree_results f A).2.1] at hi
    by_cases h1 : numPresent f = 1
    · obtain ⟨a, b, -⟩ := buildTree_single_nodes f A h1
      obtain ⟨a', b', -⟩ := buildTree_single_nodes f B h1
      rw [h1] at hi
      simp at hi
      have : i = 0 ∨ i = 1 := by
        rcases (show i.val = 0 ∨ i.val = 1 by omega) with h | h
        · exact .inl (Fin.ext h)
        · exact .inr (Fin.ext h)
      rcases this with rfl | rfl
      · exact a.trans a'.symm
      · exact b.trans b'.symm
    · rw [if_pos (by omega)] at hi; omega

end Sys2Proof.Machine
end

