-- ==== Sys2Proof/Laws/Path.lean ====
section
/-! SUPPORT. Paths in the tree: they are unique, no code extends another, none is longer than 255 bits, and DERIVE
finds them all. -/

namespace Sys2Proof.Machine

/-! ### Any arena -/

section Any

variable (A : Arena)

@[simp] theorem followPath_nil (m : NodeIx) : followPath A m [] = some m := rfl

theorem followPath_cons (m : NodeIx) (b : Bool) (bs : List Bool) :
    followPath A m (b :: bs) = if A[m].internal then (childOf A[m] b).bind fun c => followPath A c bs else none := by
  rw [followPath]
  cases childOf A[m] b <;> rfl

theorem followPath_cons_eq_some {m i : NodeIx} {b : Bool} {bs : List Bool} :
    followPath A m (b :: bs) = some i ↔
      A[m].internal = true ∧ ∃ c, childOf A[m] b = some c ∧ followPath A c bs = some i := by
  rw [followPath_cons]
  split
  · rename_i h
    simp only [h, Option.bind_eq_some_iff, true_and]
  · rename_i h
    simp only [h, reduceCtorEq, false_and]

theorem followPath_append (m : NodeIx) (p q : List Bool) :
    followPath A m (p ++ q) = (followPath A m p).bind fun i => followPath A i q := by
  induction p generalizing m with
  | nil => rfl
  | cons b p ih =>
    rw [List.cons_append, followPath_cons, followPath_cons]
    split
    · cases childOf A[m] b with
      | none => rfl
      | some c => exact ih c
    · rfl

theorem followPath_snoc_eq_some {m i : NodeIx} {p : List Bool} {b : Bool} :
    followPath A m (p ++ [b]) = some i ↔
      ∃ j, followPath A m p = some j ∧ A[j].internal = true ∧ childOf A[j] b = some i := by
  rw [followPath_append, Option.bind_eq_some_iff]
  simp [followPath_cons_eq_some]

/-- A path stops at a leaf. -/
theorem followPath_leaf {m i : NodeIx} {bs : List Bool} (hm : A[m].internal = false) (h : followPath A m bs = some i) :
    bs = [] ∧ i = m := by
  cases bs with
  | nil => simp at h; exact ⟨rfl, h.symm⟩
  | cons b bs => rw [followPath_cons, hm] at h; simp at h

/-- No path to a leaf is extended by another path (R162). -/
theorem eq_of_isPrefix {m i j : NodeIx} {p q : List Bool} (hp : followPath A m p = some i)
    (hi : A[i].internal = false) (hq : followPath A m q = some j) (h : p <+: q) : p = q ∧ i = j := by
  obtain ⟨r, rfl⟩ := h
  rw [followPath_append, hp] at hq
  obtain ⟨rfl, rfl⟩ := followPath_leaf A hi hq
  exact ⟨by simp, rfl⟩

end Any

/-! ### The trees BUILD makes -/

section Shape

variable {A : Arena} {root : NodeIx} {count n : Nat} (hA : TreeShape A root count n)
include hA

theorem TreeShape.root_lt : root.val < count := by have := hA.root_last; omega

theorem TreeShape.root_internal : A[root].internal = true :=
  hA.inner root (by have := hA.root_last; have := hA.lt_count; omega) hA.root_lt

theorem TreeShape.follow_lt {m i : NodeIx} {p : List Bool} (hm : m.val < count) (h : followPath A m p = some i) :
    i.val < count := by
  induction p generalizing m with
  | nil => simp at h; exact h ▸ hm
  | cons b p ih =>
    obtain ⟨hi, c, hc, hp⟩ := (followPath_cons_eq_some A).1 h
    have := hA.child_lt m c b hm hi hc
    exact ih (by omega) hp

/-- Paths stay among the tree's own nodes, so the rest of the arena does not matter. -/
theorem TreeShape.followPath_congr {B : Arena} (h : ∀ i : NodeIx, i.val < count → B[i] = A[i]) {m : NodeIx}
    (hm : m.val < count) (p : List Bool) : followPath B m p = followPath A m p := by
  induction p generalizing m with
  | nil => rfl
  | cons b p ih =>
    rw [followPath_cons, followPath_cons, h m hm]
    split
    · rename_i hi
      cases hc : childOf A[m] b with
      | none => rfl
      | some c =>
        have := hA.child_lt m c b hm hi hc
        exact ih (by omega)
    · rfl

/-- A path of L ≥ 1 bits passes L internal nodes, each with a smaller index than the one before. -/
theorem TreeShape.length_le {m i : NodeIx} {b : Bool} {p : List Bool} (hm : m.val < count)
    (h : followPath A m (b :: p) = some i) : n + p.length ≤ m.val := by
  induction p generalizing m b with
  | nil =>
    obtain ⟨hi, -⟩ := (followPath_cons_eq_some A).1 h
    by_contra hlt
    rw [hA.leaf m (by simpa using hlt)] at hi
    cases hi
  | cons d p ih =>
    obtain ⟨hi, c, hc, hp⟩ := (followPath_cons_eq_some A).1 h
    have hlt := hA.child_lt m c b hm hi hc
    have := ih (by omega) hp
    rw [List.length_cons]; omega

/-- MAXCODE (R9, R162): no code is longer than 255 bits. -/
theorem TreeShape.path_length_le {i : NodeIx} {p : List Bool} (h : followPath A root p = some i) :
    p.length ≤ Config.maxCode := by
  cases p with
  | nil => simp
  | cons b p =>
    have := hA.length_le hA.root_lt h
    have := hA.root_last
    have := hA.count_le
    simp only [List.length_cons, Config.maxCode]; omega

/-- Every node is reachable from the root (R148). -/
theorem TreeShape.reachable (i : NodeIx) (hi : i.val < count) : ∃ p, followPath A root p = some i := by
  obtain ⟨k, hk⟩ : ∃ k, root.val - i.val = k := ⟨_, rfl⟩
  induction k using Nat.strongRecOn generalizing i with
  | ind k ih =>
    by_cases hr : i = root
    · exact ⟨[], by rw [hr]; rfl⟩
    · obtain ⟨m, b, hm, hmi, hc⟩ := hA.has_parent i hi hr
      have hlt := hA.child_lt m i b hm hmi hc
      have hroot := hA.root_last
      obtain ⟨p, hp⟩ := ih (root.val - m.val) (by omega) m hm rfl
      exact ⟨p ++ [b], (followPath_snoc_eq_some A).2 ⟨m, hp, hmi, hc⟩⟩

/-- Exactly once (R148): two paths from the root to one node are the same path. -/
theorem TreeShape.path_unique {i : NodeIx} {p q : List Bool} (hp : followPath A root p = some i)
    (hq : followPath A root q = some i) : p = q := by
  have root_no_parent : ∀ {r : List Bool} {b : Bool}, followPath A root (r ++ [b]) ≠ some root := fun h => by
    obtain ⟨j, hj, hji, hc⟩ := (followPath_snoc_eq_some A).1 h
    have hjl := hA.follow_lt hA.root_lt hj
    have := hA.child_lt j root _ hjl hji hc
    have := hA.root_last
    omega
  induction p using List.reverseRecOn generalizing i q with
  | nil =>
    simp at hp
    subst hp
    induction q using List.reverseRecOn with
    | nil => rfl
    | append_singleton r b _ => exact absurd hq root_no_parent
  | append_singleton p b ih =>
    obtain ⟨j, hj, hji, hc⟩ := (followPath_snoc_eq_some A).1 hp
    induction q using List.reverseRecOn with
    | nil => simp at hq; subst hq; exact absurd hp root_no_parent
    | append_singleton r d _ =>
      obtain ⟨k, hk, hki, hd⟩ := (followPath_snoc_eq_some A).1 hq
      obtain ⟨rfl, rfl⟩ := hA.one_parent j k i b d (hA.follow_lt hA.root_lt hj) (hA.follow_lt hA.root_lt hk) hji hki hc hd
      rw [ih hj hk]

/-- DERIVE's traversal ends, and puts into the table exactly the paths to the leaves below `m` (R160, R161). -/
theorem TreeShape.deriveFrom_spec (fuel : Nat) {m : NodeIx} (hm : m.val < count) (hf : m.val < fuel)
    (path : List Bool) (t : CodeTable) :
    ∃ t', deriveFrom fuel A m path t = some t' ∧ ∀ y,
      (∃ bits, IsCode A m bits y ∧ tableGet t' y = path ++ bits) ∨
        (tableGet t' y = tableGet t y ∧ ∀ bits, ¬ IsCode A m bits y) := by
  induction fuel generalizing m path t with
  | zero => omega
  | succ fuel ih =>
    rw [deriveFrom]
    by_cases hi : A[m].internal = true
    · have sub : ∀ (b : Bool) (t : CodeTable), ∃ t',
          ((childOf A[m] b).elim (some t) fun c => deriveFrom fuel A c (path ++ [b]) t) = some t' ∧ ∀ y,
          (∃ bits, IsCode A m (b :: bits) y ∧ tableGet t' y = path ++ b :: bits) ∨
            (tableGet t' y = tableGet t y ∧ ∀ bits, ¬ IsCode A m (b :: bits) y) := by
        intro b t
        cases hc : childOf A[m] b with
        | none =>
          refine ⟨t, rfl, fun y => .inr ⟨rfl, ?_⟩⟩
          rintro bits ⟨i, hp, -⟩
          obtain ⟨-, c, hc', -⟩ := (followPath_cons_eq_some A).1 hp
          rw [hc] at hc'; cases hc'
        | some c =>
          have hlt := hA.child_lt m c b hm hi hc
          obtain ⟨t', ht, hy⟩ := ih (m := c) (by omega) (by omega) (path ++ [b]) t
          have hcode : ∀ bits y, IsCode A m (b :: bits) y ↔ IsCode A c bits y := fun bits y => by
            simp only [IsCode, followPath_cons_eq_some, hi, hc, true_and, Option.some.injEq, exists_eq_left']
          refine ⟨t', ht, fun y => ?_⟩
          rcases hy y with ⟨bits, h1, h2⟩ | ⟨h1, h2⟩
          · exact .inl ⟨bits, (hcode bits y).2 h1, by simpa using h2⟩
          · exact .inr ⟨h1, fun bits h => h2 bits ((hcode bits y).1 h)⟩
      obtain ⟨t1, ht1, h1⟩ := sub false t
      obtain ⟨t2, ht2, h2⟩ := sub true t1
      refine ⟨t2, ?_, fun y => ?_⟩
      · rw [if_pos hi, show A[m].left = childOf A[m] false from rfl, ht1]
        exact ht2
      · rcases h2 y with ⟨bits, hb, he⟩ | ⟨he, hno⟩
        · exact .inl ⟨true :: bits, hb, he⟩
        · rcases h1 y with ⟨bits, hb, he'⟩ | ⟨he', hno'⟩
          · exact .inl ⟨false :: bits, hb, he.trans he'⟩
          · refine .inr ⟨he.trans he', fun bits hb => ?_⟩
            cases bits with
            | nil =>
              obtain ⟨i, hp, hl, -⟩ := hb
              simp at hp
              rw [← hp, hi] at hl; cases hl
            | cons b bits =>
              cases b
              · exact hno' bits hb
              · exact hno bits hb
    · have hi' : A[m].internal = false := by simpa using hi
      refine ⟨tableSet t A[m].sym path, if_neg hi, fun y => ?_⟩
      by_cases hy : A[m].sym = y
      · exact .inl ⟨[], ⟨m, rfl, hi', hy⟩, by subst hy; simp⟩
      · refine .inr ⟨tableGet_tableSet_of_ne _ _ hy, ?_⟩
        rintro bits ⟨i, hp, -, hs⟩
        obtain ⟨-, rfl⟩ := followPath_leaf A hi' hp
        exact hy hs

/-- The derived table (R160, R161): a path to a leaf with the symbol, or nothing when there is none. -/
theorem TreeShape.deriveCodes_spec :
    ∃ t, deriveCodes A (some root) = some t ∧ ∀ y,
      (IsCode A root (tableGet t y) y ∧ tableGet t y ≠ []) ∨ (tableGet t y = [] ∧ ∀ bits, ¬ IsCode A root bits y) := by
  obtain ⟨t, ht, hy⟩ := hA.deriveFrom_spec Config.nodeMax hA.root_lt root.isLt [] (Vector.replicate 256 [])
  refine ⟨t, ht, fun y => ?_⟩
  rcases hy y with ⟨bits, hc, he⟩ | ⟨he, hno⟩
  · rw [List.nil_append] at he
    refine .inl ⟨he ▸ hc, fun hnil => ?_⟩
    rw [he] at hnil
    subst hnil
    obtain ⟨i, hp, hl, -⟩ := hc
    simp at hp
    rw [← hp, hA.root_internal] at hl; cases hl
  · exact .inr ⟨by simpa using he, hno⟩

end Shape

end Sys2Proof.Machine
end

