-- ==== Sys2Proof/Laws/Codes.lean ====
section
/-! SUPPORT. The leaves of a tree BUILD made, and the codes DERIVE makes of it. -/

namespace Sys2Proof.Machine

/-- The symbols with a path are the present ones (R141, R161). -/
theorem exists_isCode_iff (f : Vector Word 256) (A : Arena) {root : NodeIx} (hr : (buildTree f A).root = some root)
    (y : Byte) : (∃ bits, IsCode (buildTree f A).arena root bits y) ↔ tableGet f y ≠ 0 := by
  have h1 : 1 ≤ numPresent f := by
    by_contra h
    rw [(buildTree_results f A).2.2, if_pos (by omega)] at hr
    cases hr
  obtain ⟨root', hr', hS⟩ := buildTree_shape f A h1
  obtain rfl : root = root' := by rw [hr] at hr'; exact Option.some.inj hr'
  rw [← mem_presentSymbols]
  constructor
  · rintro ⟨bits, i, hp, hi, rfl⟩
    have hlt := hS.follow_lt hS.root_lt hp
    have hn : i.val < numPresent f := by
      by_contra h
      rw [hS.inner i (by omega) hlt] at hi
      cases hi
    rw [buildTree_leaf f A i hn]
    exact List.getElem_mem _
  · intro hy
    obtain ⟨k, hk, rfl⟩ := List.getElem_of_mem hy
    have hk' : k < numPresent f := hk
    have hn := numPresent_le f
    obtain ⟨i, rfl⟩ : ∃ i : NodeIx, i.val = k := ⟨⟨k, by omega⟩, rfl⟩
    obtain ⟨p, hp⟩ := hS.reachable i (by have := hS.lt_count; omega)
    exact ⟨p, i, hp, hS.leaf i hk', by rw [buildTree_leaf f A i hk']; rfl⟩

/-- Two leaves have two symbols, so a symbol has one path (R141, R148). -/
theorem isCode_unique (f : Vector Word 256) (A : Arena) {root : NodeIx} (hr : (buildTree f A).root = some root)
    {y : Byte} {p q : List Bool} (hp : IsCode (buildTree f A).arena root p y)
    (hq : IsCode (buildTree f A).arena root q y) : p = q := by
  have h1 : 1 ≤ numPresent f := by
    by_contra h
    rw [(buildTree_results f A).2.2, if_pos (by omega)] at hr
    cases hr
  obtain ⟨root', hr', hS⟩ := buildTree_shape f A h1
  obtain rfl : root = root' := by rw [hr] at hr'; exact Option.some.inj hr'
  have hleaf : ∀ {bits}, IsCode (buildTree f A).arena root bits y → ∃ i : NodeIx, ∃ h : i.val < numPresent f,
      followPath (buildTree f A).arena root bits = some i ∧ (presentSymbols f)[i.val]'h = y := by
    rintro bits ⟨i, hb, hi, hs⟩
    have hlt := hS.follow_lt hS.root_lt hb
    have hn : i.val < numPresent f := by
      by_contra h
      rw [hS.inner i (by omega) hlt] at hi
      cases hi
    rw [buildTree_leaf f A i hn] at hs
    exact ⟨i, hn, hb, hs⟩
  obtain ⟨i, hi, hpi, hyi⟩ := hleaf hp
  obtain ⟨j, hj, hqj, hyj⟩ := hleaf hq
  have hij : i.val = j.val := (List.Nodup.getElem_inj_iff (presentSymbols_nodup f)).1 (hyi.trans hyj.symm)
  obtain rfl : i = j := Fin.ext hij
  exact hS.path_unique hpi hqj

/-- Two builds of one table give every symbol the same path (R147, R194). -/
theorem IsCode.rebuilt {f : Vector Word 256} {A B : Arena} {root : NodeIx} (hr : (buildTree f A).root = some root)
    {y : Byte} {bits : List Bool} (h : IsCode (buildTree f A).arena root bits y) :
    IsCode (buildTree f B).arena root bits y := by
  have h1 : 1 ≤ numPresent f := by
    by_contra h
    rw [(buildTree_results f A).2.2, if_pos (by omega)] at hr
    cases hr
  obtain ⟨root', hr', hS⟩ := buildTree_shape f A h1
  obtain rfl : root = root' := by rw [hr] at hr'; exact Option.some.inj hr'
  have hag := fun i hi => (buildTree_congr f A B i hi).symm
  obtain ⟨i, hp, hi, hs⟩ := h
  have hlt := hS.follow_lt hS.root_lt hp
  exact ⟨i, (hS.followPath_congr hag hS.root_lt bits).trans hp, by rw [hag i hlt]; exact hi, by rw [hag i hlt]; exact hs⟩

/-- DERIVE ends on every tree BUILD made (R160, log 9), with the path of every present symbol (R161) and no code for
the others. -/
theorem deriveCodes_buildTree (f : Vector Word 256) (A : Arena) :
    ∃ t, deriveCodes (buildTree f A).arena (buildTree f A).root = some t ∧
      ∀ y, (tableGet f y = 0 → tableGet t y = []) ∧
        (tableGet f y ≠ 0 → tableGet t y ≠ [] ∧ (tableGet t y).length ≤ Config.maxCode ∧
          ∃ root, (buildTree f A).root = some root ∧ IsCode (buildTree f A).arena root (tableGet t y) y) := by
  by_cases h0 : numPresent f = 0
  · have hr := (buildTree_results f A).2.2
    rw [if_pos h0] at hr
    refine ⟨_, by rw [hr]; rfl, fun y => ⟨fun _ => tableGet_replicate _ _, fun hy => ?_⟩⟩
    rw [← mem_presentSymbols, List.eq_nil_of_length_eq_zero h0] at hy
    cases hy
  · obtain ⟨root, hr, hS⟩ := buildTree_shape f A (by omega)
    obtain ⟨t, ht, hspec⟩ := hS.deriveCodes_spec
    refine ⟨t, by rw [hr]; exact ht, fun y => ⟨fun hy => ?_, fun hy => ?_⟩⟩
    · rcases hspec y with ⟨hc, -⟩ | ⟨h, -⟩
      · exact absurd hy ((exists_isCode_iff f A hr y).1 ⟨_, hc⟩)
      · exact h
    · rcases hspec y with ⟨hc, hne⟩ | ⟨-, hno⟩
      · obtain ⟨i, hp, -⟩ := id hc
        exact ⟨hne, hS.path_length_le hp, root, hr, hc⟩
      · obtain ⟨bits, hb⟩ := (exists_isCode_iff f A hr y).2 hy
        exact absurd hb (hno bits)

end Sys2Proof.Machine
end

