-- ==== Sys2Proof/Laws/Decode.lean ====
section
/-! SUPPORT. The decoder and the encoder. -/

namespace Sys2Proof

@[simp] theorem ofWord_toWord (c : Cmd32) : Cmd32.ofWord c.toWord = c := by
  obtain ⟨op, rsv⟩ := c
  simp only [Cmd32.ofWord, Cmd32.toWord, Cmd32.mk.injEq]
  refine ⟨BitVec.eq_of_getLsbD_eq fun i hi => ?_, BitVec.eq_of_getLsbD_eq fun i hi => ?_⟩
  · rw [BitVec.getLsbD_extractLsb', BitVec.getLsbD_append]
    simp [hi]
  · rw [BitVec.getLsbD_extractLsb', BitVec.getLsbD_append]
    simp [hi]

@[simp] theorem toWord_ofWord (w : Word) : (Cmd32.ofWord w).toWord = w := by
  refine BitVec.eq_of_getLsbD_eq fun i hi => ?_
  rw [Cmd32.toWord, BitVec.getLsbD_append]
  simp only [Cmd32.ofWord, BitVec.getLsbD_extractLsb']
  split
  · simp [*]
  · rename_i h
    rw [show 4 + (i - 4) = i by omega]
    simp; omega

theorem decodeOp_eq_some_iff (op : BitVec 4) (i : Instr) : decodeOp op = some i ↔ op = i.op := by
  cases i <;> (revert op; decide)

theorem decodeOp_eq_none_iff (op : BitVec 4) : decodeOp op = none ↔ ¬ (1 ≤ op.toNat ∧ op.toNat ≤ 6) := by
  revert op; decide

/-- The one way to be decoded (R101). -/
theorem decode_eq_ok_iff (w : Word) (i : Instr) :
    decode w = .ok i ↔ (Cmd32.ofWord w).rsv = 0 ∧ (Cmd32.ofWord w).op = i.op := by
  rw [decode]
  split
  · rename_i h
    rw [← decodeOp_eq_some_iff]
    cases decodeOp (Cmd32.ofWord w).op <;> simp [h]
  · rename_i h
    exact ⟨nofun, fun hi => absurd hi.1 h⟩

/-- The two ways to be rejected (R102). -/
theorem decode_eq_error_iff (w : Word) (r : Reject) :
    decode w = .error r ↔
      (r = .reservedBits ∧ (Cmd32.ofWord w).rsv ≠ 0) ∨
        (r = .opcode ∧ (Cmd32.ofWord w).rsv = 0 ∧ decodeOp (Cmd32.ofWord w).op = none) := by
  rw [decode]
  split
  · rename_i h
    cases decodeOp (Cmd32.ofWord w).op <;> simp [h, eq_comm]
  · rename_i h
    constructor
    · rintro ⟨⟩
      exact .inl ⟨rfl, h⟩
    · rintro (⟨rfl, -⟩ | ⟨-, h0, -⟩)
      · rfl
      · exact absurd h0 h

theorem decode_encode (i : Instr) : decode (encode i) = .ok i := by
  rw [decode_eq_ok_iff, encode, ofWord_toWord]
  exact ⟨rfl, rfl⟩

end Sys2Proof
end

