-- ==== Sys2Proof/Laws/Stream.lean ====
section
/-! SUPPORT. The packer's loop and the unpacker's walk. -/

namespace Sys2Proof.Machine

/-! ### Streams -/

theorem StreamIs.append {m : Memory} {p : Nat} {a b : List Bool} :
    StreamIs m p (a ++ b) ↔ StreamIs m p a ∧ StreamIs m (p + a.length) b := by
  constructor
  · refine fun h => ⟨fun j hj => ?_, fun j hj => ?_⟩
    · rw [h j (by simp; omega), List.getD_append _ _ _ _ hj]
    · have := h (a.length + j) (by simp; omega)
      rw [List.getD_append_right _ _ _ _ (by omega), Nat.add_sub_cancel_left] at this
      rwa [Nat.add_assoc]
  · rintro ⟨ha, hb⟩ j hj
    rw [List.length_append] at hj
    by_cases h : j < a.length
    · rw [ha j h, List.getD_append _ _ _ _ h]
    · have := hb (j - a.length) (by omega)
      rw [List.getD_append_right _ _ _ _ (by omega), ← this]
      congr 1; omega

theorem StreamIs.cons {m : Memory} {p : Nat} {b : Bool} {bs : List Bool} :
    StreamIs m p (b :: bs) ↔ m.streamBit p = b ∧ StreamIs m (p + 1) bs := by
  rw [show b :: bs = [b] ++ bs from rfl, StreamIs.append]
  simp [StreamIs]

theorem codeStream_cons (t : CodeTable) (b : Byte) (bs : List Byte) :
    codeStream t (b :: bs) = tableGet t b ++ codeStream t bs := rfl

theorem codeStream_append (t : CodeTable) (as bs : List Byte) :
    codeStream t (as ++ bs) = codeStream t as ++ codeStream t bs := by
  simp [codeStream]

/-! ### Packing (R170) -/

section Pack

variable (t : CodeTable) (obufBits : Nat)

/-- The loop runs to the end of `pre` when each of its symbols has a code and the codes fit. -/
theorem packSymbols_append (i : Nat) (acc : List Bool) (pre post : List Byte) (hc : ∀ b ∈ pre, tableGet t b ≠ [])
    (hfit : acc.length + (codeStream t pre).length ≤ obufBits) :
    packSymbols t obufBits i acc (pre ++ post) =
      packSymbols t obufBits (i + pre.length) (acc ++ codeStream t pre) post := by
  induction pre generalizing i acc with
  | nil => simp [codeStream]
  | cons b pre ih =>
    rw [codeStream_cons, List.length_append] at hfit
    rw [List.cons_append, packSymbols]
    rw [if_neg (by simpa using hc b (by simp)), if_neg (by omega),
      ih (i + 1) _ (fun b hb => hc b (by simp [hb])) (by rw [List.length_append]; omega), codeStream_cons,
      List.append_assoc, List.length_cons]
    congr 1; omega

theorem packSymbols_ok (i : Nat) (acc : List Bool) (bs : List Byte) (hc : ∀ b ∈ bs, tableGet t b ≠ [])
    (hfit : acc.length + (codeStream t bs).length ≤ obufBits) :
    packSymbols t obufBits i acc bs = .ok (acc ++ codeStream t bs) := by
  have := packSymbols_append t obufBits i acc bs [] hc hfit
  rwa [List.append_nil] at this

/-- NO_CODE at the first symbol without a code (R170). -/
theorem packSymbols_noCode (pre : List Byte) (b : Byte) (post : List Byte) (hc : ∀ b ∈ pre, tableGet t b ≠ [])
    (hfit : (codeStream t pre).length ≤ obufBits) (hb : tableGet t b = []) :
    packSymbols t obufBits 0 [] (pre ++ b :: post) = .error ⟨.noCode, pre.length, (codeStream t pre).length⟩ := by
  rw [packSymbols_append t obufBits 0 [] pre _ hc (by simpa using hfit), packSymbols]
  simp [hb]

/-- OBUF_OVF at the first symbol whose code does not fit (R170, R174). -/
theorem packSymbols_obufOvf (pre : List Byte) (b : Byte) (post : List Byte) (hc : ∀ b ∈ pre, tableGet t b ≠ [])
    (hfit : (codeStream t pre).length ≤ obufBits) (hb : tableGet t b ≠ [])
    (hovf : obufBits < (codeStream t pre).length + (tableGet t b).length) :
    packSymbols t obufBits 0 [] (pre ++ b :: post) = .error ⟨.obufOvf, pre.length, (codeStream t pre).length⟩ := by
  rw [packSymbols_append t obufBits 0 [] pre _ hc (by simpa using hfit), packSymbols]
  simp [hb, hovf]

/-- Every outcome of the loop is one of the three above. -/
theorem packSymbols_cases (i : Nat) (acc : List Bool) (bs : List Byte) :
    (∃ r, packSymbols t obufBits i acc bs = .error r ∧ (r.error = .noCode ∨ r.error = .obufOvf)) ∨
      (packSymbols t obufBits i acc bs = .ok (acc ++ codeStream t bs) ∧ (∀ b ∈ bs, tableGet t b ≠ []) ∧
        (bs = [] ∨ acc.length + (codeStream t bs).length ≤ obufBits)) := by
  induction bs generalizing i acc with
  | nil => exact .inr ⟨by simp [packSymbols, codeStream], by simp, .inl rfl⟩
  | cons b bs ih =>
    rw [packSymbols]
    split
    · exact .inl ⟨_, rfl, .inl rfl⟩
    · split
      · exact .inl ⟨_, rfl, .inr rfl⟩
      · rename_i h0 hfit
        rcases ih (i + 1) (acc ++ tableGet t b) with h | ⟨h1, h2, h3⟩
        · exact .inl h
        · refine .inr ⟨by rw [h1, List.append_assoc, codeStream_cons], ?_, .inr ?_⟩
          · intro c hc
            rcases List.mem_cons.1 hc with rfl | hc
            · simpa using h0
            · exact h2 c hc
          · rw [codeStream_cons, List.length_append]
            rcases h3 with rfl | h3
            · simp [codeStream]; omega
            · rw [List.length_append] at h3; omega

/-- Symbols that all have codes can only run out of room (R170). -/
theorem packSymbols_error_obufOvf (i : Nat) (acc : List Bool) (bs : List Byte) (hc : ∀ b ∈ bs, tableGet t b ≠ [])
    {r : Raised} (h : packSymbols t obufBits i acc bs = .error r) : r.error = .obufOvf := by
  induction bs generalizing i acc with
  | nil => cases h
  | cons b bs ih =>
    rw [packSymbols] at h
    simp only [List.length_eq_zero_iff, if_neg (hc b (by simp))] at h
    split at h
    · cases h; rfl
    · exact ih _ _ (fun y hy => hc y (by simp [hy])) h

end Pack

/-! ### One descent (R190, R191) -/

section Descend

variable {A : Arena} {mem : Memory} (root : NodeIx) (k : Nat)

theorem descend_leaf {m : NodeIx} (h : A[m].internal = false) (rem p : Nat) :
    descend A mem root k rem m p = .ok (A[m].sym, p) := by
  cases rem <;> rw [descend, if_neg (by rw [h]; decide)]

theorem descend_end {m : NodeIx} (h : A[m].internal = true) (p : Nat) :
    descend A mem root k 0 m p =
      if m = root then .error ⟨.fmtCount, k, p⟩ else .error ⟨.decTrunc, k, p⟩ := by
  rw [descend, if_pos h]

theorem descend_step {m : NodeIx} (h : A[m].internal = true) (rem p : Nat) :
    descend A mem root k (rem + 1) m p =
      match childOf A[m] (mem.streamBit p) with
      | none => .error ⟨.decBadPath, k, p⟩
      | some c => descend A mem root k rem c (p + 1) := by
  rw [descend, if_pos h]
  cases hb : mem.streamBit p <;> rfl

/-- The walk follows the path the stream spells. -/
theorem descend_follow {m i : NodeIx} {bits : List Bool} (hp : followPath A m bits = some i) (rem p : Nat)
    (hs : StreamIs mem p bits) (hrem : bits.length ≤ rem) :
    descend A mem root k rem m p = descend A mem root k (rem - bits.length) i (p + bits.length) := by
  induction bits generalizing m rem p with
  | nil => simp at hp; subst hp; rfl
  | cons b bits ih =>
    obtain ⟨hi, c, hc, hp'⟩ := (followPath_cons_eq_some A).1 hp
    obtain ⟨h0, hs'⟩ := StreamIs.cons.1 hs
    rw [List.length_cons] at hrem
    obtain ⟨r, rfl⟩ : ∃ r, rem = r + 1 := ⟨rem - 1, by omega⟩
    rw [descend_step root k hi, h0, hc]
    simp only []
    rw [ih hp' r (p + 1) hs' (by omega), List.length_cons]
    congr 1 <;> omega

/-- A descent along a code emits its symbol. -/
theorem descend_code {bits : List Bool} {y : Byte} (hc : IsCode A root bits y) (rem p : Nat)
    (hs : StreamIs mem p bits) (hrem : bits.length ≤ rem) :
    descend A mem root k rem root p = .ok (y, p + bits.length) := by
  obtain ⟨i, hp, hl, hy⟩ := hc
  rw [descend_follow root k hp rem p hs hrem, descend_leaf root k hl, hy]

/-- Fewer bits give the same symbol, or one of the two errors of an exhausted payload. -/
theorem descend_shorter {m : NodeIx} {rem rem' p p' : Nat} {y : Byte}
    (h : descend A mem root k rem m p = .ok (y, p')) (hle : rem' ≤ rem) :
    p ≤ p' ∧ (p' ≤ p + rem' → descend A mem root k rem' m p = .ok (y, p')) ∧
      (p + rem' < p' → ∃ r, descend A mem root k rem' m p = .error r ∧ (r.error = .fmtCount ∨ r.error = .decTrunc)) := by
  induction rem generalizing m rem' p with
  | zero =>
    obtain rfl : rem' = 0 := by omega
    by_cases hi : A[m].internal = true
    · rw [descend_end root k hi] at h
      split at h <;> cases h
    · rw [descend_leaf root k (by simpa using hi)] at h ⊢
      cases h
      exact ⟨Nat.le_refl _, fun _ => rfl, fun hlt => absurd hlt (by omega)⟩
  | succ rem ih =>
    by_cases hi : A[m].internal = true
    · rw [descend_step root k hi] at h
      cases hc : childOf A[m] (mem.streamBit p) with
      | none => rw [hc] at h; cases h
      | some c =>
        rw [hc] at h
        simp only [] at h
        cases rem' with
        | zero =>
          have := (ih h (Nat.zero_le _)).1
          refine ⟨by omega, fun hle => absurd hle (by omega), fun _ => ?_⟩
          rw [descend_end root k hi]
          split
          · exact ⟨_, rfl, .inl rfl⟩
          · exact ⟨_, rfl, .inr rfl⟩
        | succ rem' =>
          obtain ⟨h1, h2, h3⟩ := ih h (Nat.le_of_succ_le_succ hle)
          rw [descend_step root k hi, hc]
          exact ⟨by omega, fun hle => h2 (by omega), fun hlt => h3 (by omega)⟩
    · rw [descend_leaf root k (by simpa using hi)] at h ⊢
      cases h
      exact ⟨Nat.le_refl _, fun _ => rfl, fun hlt => absurd hlt (by omega)⟩

end Descend

/-! ### The walk (R190) -/

section Walk

variable {A : Arena} {mem : Memory} {root : NodeIx}

/-- The walk decodes the symbols whose codes the stream spells, and goes on from there. -/
theorem decodeSymbols_append {codes : List (List Bool)} {ys : List Byte} (hc : AreCodes A root codes ys)
    (nbits n k p : Nat) (hs : StreamIs mem p codes.flatten) (hfit : p + codes.flatten.length ≤ nbits) :
    decodeSymbols A mem root nbits (ys.length + n) k p =
      match decodeSymbols A mem root nbits n (k + ys.length) (p + codes.flatten.length) with
      | .error r => .error r
      | .ok (zs, q) => .ok (ys ++ zs, q) := by
  induction hc generalizing k p with
  | nil =>
    simp only [List.length_nil, Nat.zero_add, Nat.add_zero, List.flatten_nil, List.nil_append]
    split <;> rename_i h <;> rw [h]
  | @cons bits y codes ys hb hc ih =>
    rw [List.flatten_cons, List.length_append] at hfit
    rw [List.flatten_cons, StreamIs.append] at hs
    rw [List.length_cons, Nat.add_right_comm, decodeSymbols,
      descend_code root k hb _ p hs.1 (by omega)]
    simp only []
    rw [ih (k + 1) (p + bits.length) hs.2 (by omega), List.flatten_cons, List.length_append,
      show k + 1 + ys.length = k + (ys.length + 1) by omega,
      show p + bits.length + codes.flatten.length = p + (bits.length + codes.flatten.length) by omega]
    split
    · rename_i h
      split at h
      · cases h; simp [*]
      · cases h
    · rename_i h
      split at h
      · cases h
      · cases h; simp [*]

/-- The walk of a payload that spells the codes of `ys` (R190, R193). -/
theorem decodeSymbols_ok {codes : List (List Bool)} {ys : List Byte} (hc : AreCodes A root codes ys)
    (nbits : Nat) (hs : StreamIs mem 0 codes.flatten) (hfit : codes.flatten.length ≤ nbits) :
    decodeSymbols A mem root nbits ys.length 0 0 = .ok (ys, codes.flatten.length) := by
  have := decodeSymbols_append hc nbits 0 0 0 hs (by omega)
  simpa [decodeSymbols] using this

/-- An error of the next descent is the walk's error. -/
theorem decodeSymbols_error {codes : List (List Bool)} {ys : List Byte} (hc : AreCodes A root codes ys)
    (nbits n : Nat) (hs : StreamIs mem 0 codes.flatten) (hfit : codes.flatten.length ≤ nbits) {r : Raised}
    (hd : descend A mem root ys.length (nbits - codes.flatten.length) root codes.flatten.length = .error r) :
    decodeSymbols A mem root nbits (ys.length + (n + 1)) 0 0 = .error r := by
  rw [decodeSymbols_append hc nbits (n + 1) 0 0 hs (by omega)]
  simp only [Nat.zero_add]
  rw [decodeSymbols, hd]

/-- Every outcome of a descent other than a symbol is one of the three walk errors. -/
theorem descend_error {k rem p : Nat} {m : NodeIx} {r : Raised} (h : descend A mem root k rem m p = .error r) :
    r.error = .fmtCount ∨ r.error = .decTrunc ∨ r.error = .decBadPath := by
  induction rem generalizing m p with
  | zero =>
    rw [descend] at h
    split at h
    · split at h <;> cases h <;> simp
    · cases h
  | succ rem ih =>
    rw [descend] at h
    split at h
    · split at h
      · cases h; simp
      · exact ih h
    · cases h

theorem decodeSymbols_length {nbits n k p : Nat} {ys : List Byte} {q : Nat}
    (h : decodeSymbols A mem root nbits n k p = .ok (ys, q)) : ys.length = n := by
  induction n generalizing k p ys with
  | zero => cases h; rfl
  | succ n ih =>
    rw [decodeSymbols] at h
    split at h
    · cases h
    · split at h
      · cases h
      · rename_i h2
        cases h
        rw [List.length_cons, ih h2]

theorem decodeSymbols_walkError {nbits n k p : Nat} {r : Raised}
    (h : decodeSymbols A mem root nbits n k p = .error r) :
    r.error = .fmtCount ∨ r.error = .decTrunc ∨ r.error = .decBadPath := by
  induction n generalizing k p with
  | zero => cases h
  | succ n ih =>
    rw [decodeSymbols] at h
    split at h
    · rename_i h1
      cases h
      exact descend_error h1
    · split at h
      · rename_i h2
        cases h
        exact ih h2
      · cases h

/-- A payload cut short of the bits the walk needs raises one of the two errors of an exhausted payload (R195). -/
theorem decodeSymbols_shorter {nbits nbits' n k p : Nat} {ys : List Byte} {q : Nat}
    (h : decodeSymbols A mem root nbits n k p = .ok (ys, q)) (hle : nbits' ≤ nbits) (hp : p ≤ nbits') (hq : nbits' < q) :
    ∃ r, decodeSymbols A mem root nbits' n k p = .error r ∧ (r.error = .fmtCount ∨ r.error = .decTrunc) := by
  induction n generalizing k p ys with
  | zero => cases h; omega
  | succ n ih =>
    rw [decodeSymbols] at h ⊢
    split at h
    · cases h
    · rename_i y p1 h1
      split at h
      · cases h
      · rename_i zs q' h2
        cases h
        obtain ⟨-, hsame, herr⟩ := descend_shorter root k h1 (show nbits' - p ≤ nbits - p by omega)
        by_cases hp1 : p1 ≤ nbits'
        · rw [hsame (by omega)]
          simp only []
          obtain ⟨r, hr, hk⟩ := ih h2 hp1
          exact ⟨r, by rw [hr], hk⟩
        · obtain ⟨r, hr, hk⟩ := herr (by omega)
          exact ⟨r, by rw [hr], hk⟩

end Walk

end Sys2Proof.Machine
end

