-- ==== Sys2Proof/Laws/Exec.lean ====
section
/-! SUPPORT. What each command can answer: one lemma a command, from which frames and invariants follow by cases. -/

namespace Sys2Proof.Machine

variable (s : State)

theorem exec_clrfreq :
    exec .clrfreq s = .next (completedOk
      { s with freq := Vector.replicate 256 0, treeValid := false, codesValid := false }) := rfl

/-- COUNT (R121): LEN_RANGE, success, or COUNT_OVF. -/
theorem exec_count_cases :
    (s.ibufSize < s.srcLen.toNat ∧ exec .count s = .next (completedErr 2 0 0 s)) ∨
      (¬ s.ibufSize < s.srcLen.toNat ∧ ∃ f, countBytes 0 s.inputBytes s.freq = (f, none) ∧
        exec .count s = .next (completedOk { s with freq := f, treeValid := false, codesValid := false })) ∨
      (¬ s.ibufSize < s.srcLen.toNat ∧ ∃ f i, countBytes 0 s.inputBytes s.freq = (f, some i) ∧
        exec .count s = .next (completedErr 3 i 0 { s with freq := f, treeValid := false, codesValid := false })) := by
  by_cases hr : s.ibufSize < s.srcLen.toNat
  · exact .inl ⟨hr, by simp only [exec, execCount, if_pos hr]; rfl⟩
  · rcases hc : countBytes 0 s.inputBytes s.freq with ⟨f, o⟩
    cases o with
    | none => exact .inr (.inl ⟨hr, f, rfl, by simp only [exec, execCount, if_neg hr, hc]; rfl⟩)
    | some i => exact .inr (.inr ⟨hr, f, i, rfl, by simp only [exec, execCount, if_neg hr, hc]; rfl⟩)

/-- The state BUILD leaves on success. -/
def builtState (s : State) : State :=
  completedOk { s with
    node := (buildTree s.freq s.node).arena, treeRoot := (buildTree s.freq s.node).root
    nodeCount := BitVec.ofNat 10 (buildTree s.freq s.node).count
    nleaf := BitVec.ofNat 9 (buildTree s.freq s.node).nleaf, treeValid := true, codesValid := false }

/-- BUILD (R140): success when the sum fits, else WEIGHT_OVF. -/
theorem exec_build_cases :
    (freqSum s.freq 256 ≤ Config.countMax ∧ exec .build s = .next (builtState s)) ∨
      (¬ freqSum s.freq 256 ≤ Config.countMax ∧ ∃ k, exec .build s = .next (completedErr 4 k 0
        { s with treeValid := false, codesValid := false, treeRoot := none, nodeCount := 0, nleaf := 0 })) := by
  cases hw : weightOverflow 0 0 s.freq.toList with
  | none => exact .inl ⟨(weightOverflow_freq _).1 hw, by simp only [exec, execBuild, hw]; rfl⟩
  | some k =>
    refine .inr ⟨fun h => ?_, k, by simp only [exec, execBuild, hw]; rfl⟩
    rw [(weightOverflow_freq _).2 h] at hw
    cases hw

theorem exec_build_ok (h : freqSum s.freq 256 ≤ Config.countMax) : exec .build s = .next (builtState s) := by
  rcases exec_build_cases s with ⟨-, he⟩ | ⟨hn, -⟩
  · exact he
  · exact absurd h hn

/-- DERIVE (R160): NO_TREE, success, or the arena with a cycle. -/
theorem exec_derive_cases :
    (s.treeValid = false ∧ exec .derive s = .next (completedErr 5 0 0 s)) ∨
      (s.treeValid = true ∧ ∃ t, deriveCodes s.node s.treeRoot = some t ∧
        exec .derive s = .next (completedOk { s with code := t, codesValid := true })) ∨
      (s.treeValid = true ∧ deriveCodes s.node s.treeRoot = none ∧
        exec .derive s = .fault .engineNeverCompletes) := by
  by_cases ht : s.treeValid = true
  · refine .inr ?_
    cases hd : deriveCodes s.node s.treeRoot with
    | none => exact .inr ⟨ht, rfl, by rw [exec, execDerive, if_pos ht, hd]⟩
    | some t => exact .inl ⟨ht, t, rfl, by rw [exec, execDerive, if_pos ht, hd]; rfl⟩
  · exact .inl ⟨by simpa using ht, by rw [exec, execDerive, if_neg ht]; rfl⟩

/-- ENCODE (R170): NO_CODES, LEN_RANGE, an error of the loop, or success. -/
theorem exec_encode_cases :
    (s.codesValid = false ∧ exec .encode s = .next (completedErr 6 0 0 { s with outLen := 0, outBits := 0 })) ∨
      (s.codesValid = true ∧ s.ibufSize < s.srcLen.toNat ∧
        exec .encode s = .next (completedErr 2 0 0 { s with outLen := 0, outBits := 0 })) ∨
      (s.codesValid = true ∧ s.srcLen.toNat ≤ s.ibufSize ∧
        ∃ r, packSymbols s.code (8 * s.obufSize) 0 [] s.inputBytes = .error r ∧
          (r.error = .noCode ∨ r.error = .obufOvf) ∧
          exec .encode s = .next (completedErr r.error.code r.pos r.bit
            { s with outLen := 0, outBits := 0, obuf := .drawn s.draws, draws := s.draws + 1 })) ∨
      (s.codesValid = true ∧ s.srcLen.toNat ≤ s.ibufSize ∧
        packSymbols s.code (8 * s.obufSize) 0 [] s.inputBytes = .ok (codeStream s.code s.inputBytes) ∧
        (∀ b ∈ s.inputBytes, tableGet s.code b ≠ []) ∧ (codeStream s.code s.inputBytes).length ≤ 8 * s.obufSize ∧
        exec .encode s = .next (completedOk { s with
          obuf := s.obuf.writeBytes 0 (packBytes (codeStream s.code s.inputBytes))
          outBits := BitVec.ofNat 32 (codeStream s.code s.inputBytes).length
          outLen := BitVec.ofNat 32 (((codeStream s.code s.inputBytes).length + 7) / 8) })) := by
  by_cases hc : s.codesValid = false
  · exact .inl ⟨hc, by rw [exec, execEncode, if_pos hc]; rfl⟩
  · refine .inr ?_
    have hc' : s.codesValid = true := by simpa using hc
    by_cases hr : s.ibufSize < s.srcLen.toNat
    · exact .inl ⟨hc', hr, by rw [exec, execEncode, if_neg hc, if_pos hr]; rfl⟩
    · refine .inr ?_
      rcases packSymbols_cases s.code (8 * s.obufSize) 0 [] s.inputBytes with ⟨r, hp, hk⟩ | ⟨hp, hne, hfit⟩
      · exact .inl ⟨hc', by omega, r, hp, hk, by rw [exec, execEncode, if_neg hc, if_neg hr, hp]; rfl⟩
      · rw [List.nil_append] at hp
        refine .inr ⟨hc', by omega, hp, hne, ?_, by rw [exec, execEncode, if_neg hc, if_neg hr, hp]; rfl⟩
        rcases hfit with h | h
        · rw [h]; simp [codeStream]
        · simpa using h

/-- DECODE (R190): the four checks, an error of the walk, or success. -/
theorem exec_decode_cases :
    (s.treeValid = false ∧ exec .decode s = .next (completedErr 5 0 0 { s with outLen := 0, outBits := 0 })) ∨
      (s.treeValid = true ∧ s.ibufSize < s.srcLen.toNat ∧
        exec .decode s = .next (completedErr 2 0 0 { s with outLen := 0, outBits := 0 })) ∨
      (s.treeValid = true ∧ s.srcLen.toNat ≤ s.ibufSize ∧ s.obufSize < s.decCount.toNat ∧
        exec .decode s = .next (completedErr 8 0 0 { s with outLen := 0, outBits := 0 })) ∨
      (s.treeValid = true ∧ s.srcLen.toNat ≤ s.ibufSize ∧ s.decCount.toNat ≤ s.obufSize ∧
        0 < s.decCount.toNat ∧ s.treeRoot = none ∧
        exec .decode s = .next (completedErr 9 0 0 { s with outLen := 0, outBits := 0 })) ∨
      (s.treeValid = true ∧ s.srcLen.toNat ≤ s.ibufSize ∧ s.decCount.toNat ≤ s.obufSize ∧
        ¬ (0 < s.decCount.toNat ∧ s.treeRoot = none) ∧
        ((∃ r, decodePayload s = .error r ∧ exec .decode s = .next (completedErr r.error.code r.pos r.bit
            { s with outLen := 0, outBits := 0, obuf := .drawn s.draws, draws := s.draws + 1 })) ∨
          (∃ ys p, decodePayload s = .ok (ys, p) ∧ exec .decode s = .next (completedOk { s with
            obuf := s.obuf.writeBytes 0 ys, outLen := s.decCount, outBits := BitVec.ofNat 32 p })))) := by
  by_cases ht : s.treeValid = false
  · exact .inl ⟨ht, by rw [exec, execDecode, if_pos ht]; rfl⟩
  · refine .inr ?_
    have ht' : s.treeValid = true := by simpa using ht
    by_cases hr : s.ibufSize < s.srcLen.toNat
    · exact .inl ⟨ht', hr, by rw [exec, execDecode, if_neg ht, if_pos hr]; rfl⟩
    · refine .inr ?_
      by_cases ho : s.obufSize < s.decCount.toNat
      · exact .inl ⟨ht', by omega, ho, by rw [exec, execDecode, if_neg ht, if_neg hr, if_pos ho]; rfl⟩
      · refine .inr ?_
        by_cases he : 0 < s.decCount.toNat ∧ s.treeRoot = none
        · exact .inl ⟨ht', by omega, by omega, he.1, he.2, by
            rw [exec, execDecode, if_neg ht, if_neg hr, if_neg ho, if_pos he]; rfl⟩
        · refine .inr ⟨ht', by omega, by omega, he, ?_⟩
          cases hp : decodePayload s with
          | error r =>
            exact .inl ⟨r, rfl, by rw [exec, execDecode, if_neg ht, if_neg hr, if_neg ho, if_neg he, hp]; rfl⟩
          | ok v =>
            obtain ⟨ys, p⟩ := v
            exact .inr ⟨ys, p, rfl, by rw [exec, execDecode, if_neg ht, if_neg hr, if_neg ho, if_neg he, hp]; rfl⟩

/-- The errors and the length of a walk (R190). -/
theorem decodePayload_error {r : Raised} (h : decodePayload s = .error r) :
    r.error = .fmtCount ∨ r.error = .decTrunc ∨ r.error = .decBadPath := by
  rw [decodePayload] at h
  split at h
  · cases h
  · exact decodeSymbols_walkError h

theorem decodePayload_length {ys : List Byte} {p : Nat} (h : decodePayload s = .ok (ys, p))
    (he : ¬ (0 < s.decCount.toNat ∧ s.treeRoot = none)) : ys.length = s.decCount.toNat := by
  rw [decodePayload] at h
  split at h
  · rename_i hr
    cases h
    simp only [hr, and_true] at he
    simp; omega
  · exact decodeSymbols_length h

/-! ### Steps of the engine -/

/-- Completion, for either kind of word (R213). -/
theorem engineStep_pending {w : Word} (h : s.pending = some w) : engineStep s = completeWord w s := by
  simp [engineStep, h]

theorem completeWord_ok {w : Word} {i : Instr} (h : decode w = .ok i) : completeWord w s = exec i s := by
  simp [completeWord, h]

theorem completeWord_illegal {w : Word} {r : Reject} (h : decode w = .error r) :
    completeWord w s = .next (completedErr 1 0 0 s) := by
  simp only [completeWord, h]
  rfl

/-- `completedErr` and `completedOk` leave nothing pending. -/
@[simp] theorem completedOk_busy : (completedOk s).busy = false := rfl

@[simp] theorem completedErr_busy (c : BitVec 4) (p b : Nat) : (completedErr c p b s).busy = false := rfl

end Sys2Proof.Machine
end

