-- ==== Sys2Proof/Laws/PerInstr.lean ====
section
/-! SUPPORT. Statements about every instruction as syntax, one lemma a constructor. -/

namespace Sys2Proof.Laws.EncodeRoundTrip

/-- The instruction is well formed, its word is legal (R101), and its word decodes to it, read as a command word and as
a word of the opcode table. -/
def Statement (i : Instr) : Prop :=
  i.wf = true ∧ (Cmd32.ofWord (encode i)).wf = true ∧ decode (encode i) = .ok i ∧
    decodeTableWord 32 (encode i).toNat = some i

theorem clrfreq : Statement .clrfreq := ⟨rfl, rfl, rfl, rfl⟩
theorem count : Statement .count := ⟨rfl, rfl, rfl, rfl⟩
theorem build : Statement .build := ⟨rfl, rfl, rfl, rfl⟩
theorem derive : Statement .derive := ⟨rfl, rfl, rfl, rfl⟩
theorem encode : Statement .encode := ⟨rfl, rfl, rfl, rfl⟩
theorem decode : Statement .decode := ⟨rfl, rfl, rfl, rfl⟩

end Sys2Proof.Laws.EncodeRoundTrip
end

