-- ==== Sys2Proof/Laws/Weights.lean ====
section
/-! SUPPORT. Weights in the tree: the waiting nodes always weigh as much as the table, so no merge wraps. -/

namespace Sys2Proof.Machine

/-- The weight of a list of nodes, exactly. -/
def totalWeight (A : Arena) (q : List NodeIx) : Nat := (q.map fun i => A[i].weight.toNat).sum

theorem totalWeight_cons (A : Arena) (i : NodeIx) (q : List NodeIx) :
    totalWeight A (i :: q) = A[i].weight.toNat + totalWeight A q := by simp [totalWeight]

theorem totalWeight_erase (A : Arena) {i : NodeIx} {q : List NodeIx} (h : i ∈ q) :
    totalWeight A q = A[i].weight.toNat + totalWeight A (q.erase i) := by
  rw [← totalWeight_cons]
  exact ((List.perm_cons_erase h).map _).sum_eq

/-- Two waiting nodes and the rest of the queue. -/
theorem totalWeight_erase_two (A : Arena) {a b : NodeIx} {q : List NodeIx} (ha : a ∈ q) (hb : b ∈ q) (hab : a ≠ b) :
    totalWeight A q = A[a].weight.toNat + A[b].weight.toNat + totalWeight A ((q.erase a).erase b) := by
  rw [totalWeight_erase A ha, totalWeight_erase A ((List.mem_erase_of_ne hab.symm).2 hb)]
  omega

/-- The sum of the table is the sum of its present entries (R141, R146). -/
theorem sum_presentSymbols (f : Vector Word 256) :
    ((presentSymbols f).map fun y => (tableGet f y).toNat).sum = freqSum f 256 := by
  have hfilter : ∀ l : List Byte, ((l.filter fun y => tableGet f y ≠ 0).map fun y => (tableGet f y).toNat).sum =
      (l.map fun y => (tableGet f y).toNat).sum := by
    intro l
    induction l with
    | nil => rfl
    | cons y l ih =>
      rw [List.filter_cons]
      split
      · rw [List.map_cons, List.map_cons, List.sum_cons, List.sum_cons, ih]
      · rename_i hy
        have hy : tableGet f y = 0 := by simpa using hy
        rw [ih, List.map_cons, List.sum_cons, hy]
        simp
  rw [freqSum_eq_sum]
  exact hfilter _

/-- The leaves weigh as much as the table. -/
theorem totalWeight_leaves (f : Vector Word 256) (A : Arena) :
    totalWeight (buildTree f A).arena ((List.range (numPresent f)).map (Fin.ofNat 511)) = freqSum f 256 := by
  rw [← sum_presentSymbols, totalWeight]
  congr 1
  have hn := numPresent_le f
  refine List.ext_getElem (by simp [numPresent]) fun i h1 h2 => ?_
  have hi : i < numPresent f := by simpa using h1
  have hv : (Fin.ofNat 511 i : NodeIx).val = i := ofNat_val (by omega)
  simp only [List.getElem_map, List.getElem_range]
  rw [buildTree_leaf f A (Fin.ofNat 511 i) (by omega)]
  simp only [leafNode, hv]

/-- While the nodes of a merged arena are made, the waiting nodes weigh as much as the leaves. -/
theorem Merged.waiting_weight {A : Arena} {n bound total next : Nat} (hA : Merged A n bound) (hb : bound ≤ 511)
    {q : List NodeIx} (hq : QueueOk A q n) (hw : totalWeight A q = total) (ht : total ≤ Config.countMax)
    (h1 : n ≤ next) (h2 : next ≤ bound) : ∃ q, QueueOk A q next ∧ totalWeight A q = total := by
  induction next, h1 using Nat.le_induction with
  | base => exact ⟨q, hq, hw⟩
  | succ k hk ih =>
    obtain ⟨r, hr, hrw⟩ := ih (by omega)
    obtain ⟨m, hm⟩ : ∃ m : NodeIx, m.val = k := ⟨⟨k, by omega⟩, rfl⟩
    obtain ⟨a, b, hab⟩ := hA.merges m (by omega) (by omega)
    have ha : a ∈ r := (hr.mem a).2 (hm ▸ hab.left_waits)
    have hb : b ∈ r := (hr.mem b).2 (hm ▸ hab.right_waits)
    have hsum := totalWeight_erase_two A ha hb hab.ne
    refine ⟨m :: (r.erase a).erase b, ⟨?_, fun i => ?_⟩, ?_⟩
    · refine List.nodup_cons.2 ⟨fun hmem => ?_, (hr.nodup.erase a).erase b⟩
      have := ((hr.mem m).1 (List.mem_of_mem_erase (List.mem_of_mem_erase hmem))).1
      omega
    · have hnode := hab.node
      have hstep : IsChildBelow A (k + 1) i ↔ IsChildBelow A k i ∨ i = a ∨ i = b := by
        constructor
        · rintro ⟨m', hm', hi, hc⟩
          by_cases hlt : m'.val < k
          · exact .inl ⟨m', hlt, hi, hc⟩
          · have : m' = m := Fin.ext (by omega)
            subst this
            rw [hnode] at hc
            simp only [mergedNode, Option.some.injEq] at hc
            rcases hc with h | h
            · exact .inr (.inl h.symm)
            · exact .inr (.inr h.symm)
        · rintro (⟨m', hm', hi, hc⟩ | h | h)
          · exact ⟨m', by omega, hi, hc⟩
          · exact ⟨m, by omega, by rw [hnode]; rfl, .inl (by rw [hnode, h]; rfl)⟩
          · exact ⟨m, by omega, by rw [hnode]; rfl, .inr (by rw [hnode, h]; rfl)⟩
      rw [List.mem_cons, List.Nodup.mem_erase_iff (hr.nodup.erase a), List.Nodup.mem_erase_iff hr.nodup, hr.mem]
      simp only [Waiting, hstep, not_or]
      constructor
      · rintro (rfl | ⟨hib, hia, hlt, hc⟩)
        · have h1 := hab.left_waits.1
          have h2 := hab.right_waits.1
          refine ⟨by omega, ?_, fun h => ?_, fun h => ?_⟩
          · rintro ⟨m', hm', hi, hc⟩
            have := hA.child_lt (m := m') (by omega) hi hc
            omega
          · rw [h] at h1; omega
          · rw [h] at h2; omega
        · exact ⟨by omega, hc, hia, hib⟩
      · rintro ⟨hlt, hc, hia, hib⟩
        by_cases h : i.val < k
        · exact .inr ⟨hib, hia, h, hc⟩
        · exact .inl (Fin.ext (by omega))
    · rw [totalWeight_cons, hab.node]
      simp only [mergedNode, BitVec.toNat_add]
      rw [Nat.mod_eq_of_lt (by have : Config.countMax = 2 ^ 32 - 1 := rfl; omega)]
      omega

/-- No merge wraps (R146): an internal node weighs exactly as much as its two children. -/
theorem buildTree_weight (f : Vector Word 256) (A : Arena) (h : 2 ≤ numPresent f) (hs : freqSum f 256 ≤ Config.countMax)
    {m a b : NodeIx} (hm : numPresent f ≤ m.val) (hm' : m.val < 2 * numPresent f - 1)
    (hab : IsMerge (buildTree f A).arena m a b) :
    (buildTree f A).arena[m].weight.toNat =
      (buildTree f A).arena[a].weight.toNat + (buildTree f A).arena[b].weight.toNat := by
  obtain ⟨root, -, -, -, -, hM, -, hleaf⟩ := buildTree_many f A h
  have hn := numPresent_le f
  have hq : QueueOk (buildTree f A).arena ((List.range (numPresent f)).map (Fin.ofNat 511)) (numPresent f) := by
    refine ⟨(withLeaves_queue f A).nodup, fun i => ?_⟩
    rw [(withLeaves_queue f A).mem, Waiting.congr fun i hi => (hleaf i (.inl hi)).symm]
  obtain ⟨q, hq, hw⟩ := hM.waiting_weight (by omega) hq (totalWeight_leaves f A) hs hm (by omega)
  have := totalWeight_erase_two (buildTree f A).arena ((hq.mem a).2 hab.left_waits) ((hq.mem b).2 hab.right_waits) hab.ne
  have hmax : Config.countMax = 2 ^ 32 - 1 := rfl
  conv_lhs => rw [hab.node]
  simp only [mergedNode, BitVec.toNat_add]
  rw [Nat.mod_eq_of_lt (by omega)]

end Sys2Proof.Machine
end

