-- ==== Sys2Proof/Tests/Slice0.lean ====
section
/-! SUPPORT. Tests: decoding against words written out from the spec, the well-formedness smoke, one or two steps of
every command against the vectors of 95_test_vectors.md, the bus, and a witness for every statement with hypotheses. -/

namespace Sys2Proof.Tests

set_option Elab.async false

open Sys2Proof.Machine

/-! ### Decoding: words written out bit by bit from R100 and R101 -/

theorem test_decode_clrfreq : decode 0b0000000000000000000000000000_0001 = .ok .clrfreq := rfl
theorem test_decode_count : decode 0b0000000000000000000000000000_0010 = .ok .count := rfl
theorem test_decode_build : decode 0b0000000000000000000000000000_0011 = .ok .build := rfl
theorem test_decode_derive : decode 0b0000000000000000000000000000_0100 = .ok .derive := rfl
theorem test_decode_encode : decode 0b0000000000000000000000000000_0101 = .ok .encode := rfl
theorem test_decode_decode : decode 0b0000000000000000000000000000_0110 = .ok .decode := rfl

/-- Vector K1, K2: OP 0 and OP 7 are not listed (R102). -/
theorem test_decode_rejects_opcode : decode 0x0 = .error .opcode ∧ decode 0x7 = .error .opcode := ⟨rfl, rfl⟩

/-- Vector K3: OP 2 with RSV ≠ 0 (R102). -/
theorem test_decode_rejects_reserved : decode 0x12 = .error .reservedBits := rfl

theorem test_decodeTableWord : decodeTableWord 32 5 = some .encode ∧ decodeTableWord 32 0x80000005 = none := ⟨rfl, rfl⟩

/-! ### Well-formedness: one ill-formed term for each check -/

theorem test_wf_refuses_reserved : Cmd32.wf ⟨2, 1⟩ = false := rfl
theorem test_wf_refuses_op_zero : Cmd32.wf ⟨0, 0⟩ = false := rfl
theorem test_wf_refuses_op_seven : Cmd32.wf ⟨7, 0⟩ = false := rfl
theorem test_wf_accepts_decode : Cmd32.wf ⟨6, 0⟩ = true := rfl

/-! ### Small states -/

/-- A leaf (R42). -/
def leaf (w : Word) (y : Byte) : Node := ⟨w, false, y, none, none⟩

/-- An internal node (R42). -/
def inner (w : Word) (l r : Option NodeIx) : Node := ⟨w, true, 0, l, r⟩

/-- A table with the listed entries, `d` elsewhere. -/
def tableOf {α : Type} (d : α) : List (Byte × α) → Vector α 256
  | [] => Vector.replicate 256 d
  | (y, v) :: rest => tableSet (tableOf d rest) y v

/-- An idle state: reset with zero tables and both buffers listed from index 0. -/
def idle (freq : List (Byte × Word)) (nodes : List Node) (codes : List (Byte × Code)) (input : List Byte) : State :=
  { State.reset with
    freq := tableOf 0 freq, node := placeNodes (Vector.replicate 511 (leaf 0 0)) 0 nodes, code := tableOf [] codes
    ibuf := ⟨input.zipIdx.map fun (b, k) => (k, b), 0⟩, srcLen := BitVec.ofNat 32 input.length }

/-- The outcome is a next state of which `p` holds. -/
def nextIs (p : State → Bool) : Host.Outcome State Fault Refusal → Bool
  | .next t => p t
  | .fault _ => false
  | .refused _ => false

/-- The tree of vector B8. -/
def treeB8 : List Node :=
  [leaf 5 0x00, leaf 1 0x10, leaf 2 0x20, leaf 1 0xFF,
   inner 2 (some 1) (some 3), inner 4 (some 2) (some 4), inner 9 (some 5) (some 0)]

/-- The codes of vector B8: 0x00 = `1`, 0x20 = `00`, 0x10 = `010`, 0xFF = `011`. -/
def codesB8 : List (Byte × Code) :=
  [(0x00, [true]), (0x20, [false, false]), (0x10, [false, true, false]), (0xFF, [false, true, true])]

/-- The idle state with the tree of vector B8. -/
def withTreeB8 (input : List Byte) (count : Word) : State :=
  { idle [] treeB8 [] input with treeValid := true, treeRoot := some 6, nodeCount := 7, nleaf := 4, decCount := count }

/-- The idle state with the tree and the codes of vector B8. -/
def withCodesB8 (input : List Byte) : State :=
  { idle [] treeB8 codesB8 input with
    treeValid := true, codesValid := true, treeRoot := some 6, nodeCount := 7, nleaf := 4 }

/-! ### Commands -/

/-- Vector F1. -/
theorem test_clrfreq : nextIs (fun t => tableGet t.freq 0x41 == 0 && t.statusWord == 0x1002)
    (exec .clrfreq { accept 1 (idle [(0x41, 7)] [] [] []) with treeValid := true, codesValid := true }) = true := by
  decide +kernel

/-- Vector F2. -/
theorem test_count : nextIs (fun t => tableGet t.freq 0x41 == 3 && tableGet t.freq 0x42 == 2 &&
      tableGet t.freq 0x43 == 1 && tableGet t.freq 0x44 == 0 && t.statusWord == 0x2002)
    (exec .count (accept 2 (idle [] [] [] [0x41, 0x41, 0x41, 0x42, 0x42, 0x43]))) = true := by
  decide +kernel

/-- Vector F6: the count stops at 2^32 − 1 and the byte after it is not counted. -/
theorem test_count_ovf : nextIs (fun t => tableGet t.freq 0 == 0xFFFFFFFF && tableGet t.freq 1 == 0 &&
      t.errPos == 1 && t.errBit == 0 && t.statusWord == 0x2306)
    (exec .count (accept 2 (idle [(0, 0xFFFFFFFE)] [] [] [0, 0, 1]))) = true := by
  decide +kernel

/-- Vector B8: ties among leaves, and between a leaf and an internal node. -/
theorem test_build : nextIs (fun t => (t.node.toList.take 7 == treeB8) && t.treeRoot == some 6 && t.nodeCount == 7 &&
      t.nleaf == 4 && t.statusWord == 0x300A)
    (exec .build (accept 3 (idle [(0x00, 5), (0x10, 1), (0x20, 2), (0xFF, 1)] [] [] []))) = true := by
  decide +kernel

/-- Vector B5. -/
theorem test_build_weight_ovf : nextIs (fun t => t.errPos == 1 && t.treeRoot == none && t.statusWord == 0x3406)
    (exec .build (accept 3 (idle [(0, 0x80000000), (1, 0x80000000)] [] [] []))) = true := by
  decide +kernel

/-- Vector DV4. -/
theorem test_derive : nextIs (fun t => codeWord (tableGet t.code 0x00) 0 == 1 && codeWord (tableGet t.code 0x00) 1 == 1 &&
      codeWord (tableGet t.code 0x10) 0 == 3 && codeWord (tableGet t.code 0x10) 1 == 2 &&
      codeWord (tableGet t.code 0x20) 1 == 0 && codeWord (tableGet t.code 0xFF) 1 == 6 &&
      codeWord (tableGet t.code 0x41) 0 == 0 && t.statusWord == 0x401A)
    (exec .derive (accept 4 (withTreeB8 [] 0))) = true := by
  decide +kernel

/-- Vector DV5. -/
theorem test_derive_no_tree : nextIs (fun t => t.statusWord == 0x4506)
    (exec .derive (accept 4 (idle [] [] [] []))) = true := by
  decide +kernel

/-- Vector E10: stream `1 010 00 011 1`. -/
theorem test_encode : nextIs (fun t => t.obuf.read 0 == 0xA1 && t.obuf.read 1 == 0xC0 && t.outBits == 10 &&
      t.outLen == 2 && t.statusWord == 0x501A)
    (exec .encode (accept 5 (withCodesB8 [0x00, 0x10, 0x20, 0xFF, 0x00]))) = true := by
  decide +kernel

/-- As vector E6, with the codes of B8: after `1 010 00` six bits are packed, and `011` does not fit in one byte. -/
theorem test_encode_obuf_ovf : nextIs (fun t => t.errPos == 3 && t.errBit == 6 && t.outBits == 0 && t.outLen == 0 &&
      t.statusWord == 0x581E)
    (exec .encode { accept 5 (withCodesB8 [0x00, 0x10, 0x20, 0xFF, 0x00]) with obufLog2 := 0 }) = true := by
  decide +kernel

/-- Vector X12. -/
theorem test_decode_step : nextIs (fun t => ((List.range 5).map t.obuf.read == [0x00, 0x10, 0x20, 0xFF, 0x00]) &&
      t.outLen == 5 && t.outBits == 10 && t.statusWord == 0x600A)
    (exec .decode (accept 6 (withTreeB8 [0xA1, 0xC0] 5))) = true := by
  decide +kernel

/-- As vector X4: the payload of X12 without its last byte ends inside the descent of symbol 3 (`01` of `011`). -/
theorem test_decode_trunc : nextIs (fun t => t.errPos == 3 && t.errBit == 8 && t.outLen == 0 && t.statusWord == 0x6B0E)
    (exec .decode (accept 6 (withTreeB8 [0xA1] 5))) = true := by
  decide +kernel

/-! ### The bus and the step -/

/-- Vectors K4, K10 and K11: ID, the write-only CMD, and node 511. -/
theorem test_bus_reads : (hostStep { State.reset with hostOps := [.r32 0x0000] }).answers = [⟨.okay, some (.b4 0x48554631)⟩] ∧
    (hostStep { State.reset with hostOps := [.r32 0x0004] }).answers = [⟨.okay, some (.b4 0)⟩] ∧
    target State.reset ⟨0x3FF0, .b4, false, 0⟩ = none := by
  decide +kernel

/-- Vectors K5, K6 and K8: misaligned, a CSR written with two bytes, past IBUF_SIZE. -/
theorem test_bus_errors : target State.reset ⟨0x0003, .b4, false, 0⟩ = none ∧
    target State.reset ⟨0x0014, .b2, true, 6⟩ = none ∧ target State.reset ⟨0x10010000, .b4, false, 0⟩ = none := by
  decide +kernel

/-- Vector K7: little-endian. -/
theorem test_bus_ibuf : (hostStep (hostStep { State.reset with
    hostOps := [.w32 0x10000000 0x44434241, .r8 0x10000002] })).answers = [⟨.okay, some (.b1 0x43)⟩, ⟨.okay, none⟩] := by
  decide +kernel

/-- R71: a two-byte read puts the byte at the lower index in the low half. -/
theorem test_bus_read16 : (hostStep { idle [] [] [] [0x41, 0x42] with hostOps := [.r16 0x10000000] }).answers =
    [⟨.okay, some (.b2 0x4241)⟩] := by
  decide +kernel

/-- Vector K14. -/
theorem test_bus_setfreq : (let t := hostStep { idle [] [] [] [] with treeValid := true, codesValid := true, hostOps := [.setfreq 0x41 3] }
    tableGet t.freq 0x41 = 3 ∧ t.treeValid = false ∧ t.codesValid = false) := by
  decide +kernel

/-- Vector K13: the STATUS read after `cmd BUILD` sees BUSY when the host moves first. -/
theorem test_status_busy : (hostStep (hostStep { State.reset with hostOps := [.cmd .build, .r32 0x0008] })).answers =
    [⟨.okay, some (.b4 0x3001)⟩, ⟨.okay, none⟩] := by
  decide +kernel

/-- Vector K3: the placed word is completed in the next step, with ILL_CMD. -/
theorem test_step_illegal : nextIs (fun t => t.statusWord == 0x2106) (step (State.reset.withFetchWord 32 0x12)) = true := by
  decide +kernel

/-- A placed CLRFREQ is the first command after reset. -/
theorem test_step_first : nextIs (fun t => t.statusWord == 0x1002) (step (State.reset.withFetchWord 32 1)) = true := by
  decide +kernel

/-! ### Witnesses: for every statement with hypotheses, a state and operands that meet them, clause by clause.
The name after `wit_` is the statement's. -/

/-- The table of vector B8. -/
def freqB8 : Vector Word 256 := tableOf 0 [(0x00, 5), (0x10, 1), (0x20, 2), (0xFF, 1)]

/-- An arena no build has written. -/
def blankArena : Arena := Vector.replicate 511 (leaf 0 0)

/-- BUILD makes the tree of vector B8 of that table. -/
theorem treeB8_arena : (buildTree freqB8 blankArena).arena = placeNodes blankArena 0 treeB8 :=
  Vector.toList_inj.1 (by decide +kernel)

theorem treeB8_results : (buildTree freqB8 blankArena).root = some 6 ∧ (buildTree freqB8 blankArena).count = 7 ∧
    (buildTree freqB8 blankArena).nleaf = 4 := by
  decide +kernel

/-- DERIVE makes the codes of vector DV4 of that tree. -/
theorem codesB8_derived : deriveCodes (placeNodes blankArena 0 treeB8) (some 6) = some (tableOf [] codesB8) := by
  have h : (deriveCodes (placeNodes blankArena 0 treeB8) (some 6)).map Vector.toList =
      some (tableOf [] codesB8).toList := by decide +kernel
  cases hd : deriveCodes (placeNodes blankArena 0 treeB8) (some 6) with
  | none => rw [hd] at h; cases h
  | some t => rw [hd] at h; rw [Vector.toList_inj.1 (Option.some.inj h)]

/-- The idle state after BUILD and DERIVE of vector B8, with an input. -/
def derivedB8 (input : List Byte) (count : Word) : State :=
  { withCodesB8 input with freq := freqB8, decCount := count }

theorem freqB8_sum : freqSum freqB8 256 ≤ Config.countMax := by decide +kernel

/-- The invariant holds in these states, with a tree and codes, for every input that fits. -/
theorem derivedB8_inv (input : List Byte) (count : Word) (h : input.length ≤ 65536) : Inv (derivedB8 input count) := by
  have hkeys : ∀ (l : List Byte) (k : Nat), ((l.zipIdx k).map fun (b, k) => ((k, b) : Host.Cell)).Pairwise (fun c d => c.1 < d.1) ∧
      ∀ c ∈ (l.zipIdx k).map fun (b, k) => ((k, b) : Host.Cell), k ≤ c.1 ∧ c.1 < k + l.length := by
    intro l
    induction l with
    | nil => intro k; simp
    | cons b l ih =>
      intro k
      obtain ⟨h1, h2⟩ := ih (k + 1)
      refine ⟨List.pairwise_cons.2 ⟨fun c hc => (h2 c hc).1, h1⟩, fun c hc => ?_⟩
      rcases List.mem_cons.1 hc with rfl | hc
      · simp
      · have := h2 c hc
        simp only [List.length_cons]; omega
  exact {
    ibuf_wf := (hkeys input 0).1
    obuf_wf := List.Pairwise.nil
    ibuf_inside := fun c hc => by
      have := (hkeys input 0).2 c hc
      show c.1 < 2 ^ 16
      omega
    obuf_inside := fun c hc => by cases hc
    ibuf_draw := (by decide : 0 < 2)
    obuf_draw := (by decide : 1 < 2)
    codes_need_tree := fun _ => rfl
    tree_current := fun _ => ⟨freqB8_sum, blankArena, treeB8_arena.symm, treeB8_results.1.symm,
      (congrArg (BitVec.ofNat 10) treeB8_results.2.1).symm, (congrArg (BitVec.ofNat 9) treeB8_results.2.2).symm⟩
    codes_current := fun _ => codesB8_derived
    code_len := (by decide +kernel : ∀ y, (tableGet (tableOf [] codesB8) y).length ≤ Config.maxCode)
    busy_clear := fun w h => by cases h
    err_code := (by decide : false = true ↔ (0 : BitVec 4) ≠ 0)
    err_code_le := (by decide : (0 : BitVec 4).toNat ≤ 12)
    err_pos := fun h => by cases h
    held_target := fun x h => by cases h }

/-- The same state with ENCODE pending and the host's next operations. -/
def busyB8 (ops : List HostOp) : State :=
  { derivedB8 [0x00] 0 with pending := some 5, lastOp := 5, hostOps := ops }

theorem busyB8_inv (ops : List HostOp) : Inv (busyB8 ops) :=
  let h := derivedB8_inv [0x00] 0 (by decide)
  { ibuf_wf := h.ibuf_wf, obuf_wf := h.obuf_wf, ibuf_inside := h.ibuf_inside, obuf_inside := h.obuf_inside
    ibuf_draw := h.ibuf_draw, obuf_draw := h.obuf_draw, codes_need_tree := h.codes_need_tree
    tree_current := h.tree_current, codes_current := h.codes_current, code_len := h.code_len
    busy_clear := fun w hw => by cases hw; exact ⟨rfl, rfl, rfl, rfl⟩
    err_code := h.err_code, err_code_le := h.err_code_le, err_pos := h.err_pos
    held_target := fun x hx => by cases hx }

/-- The next state of an outcome. -/
def after : Host.Outcome State Fault Refusal → State
  | .next t => t
  | .fault _ => State.reset
  | .refused _ => State.reset

theorem after_clrfreq (s : State) : exec .clrfreq s = .next (after (exec .clrfreq s)) := rfl

theorem after_build (s : State) : exec .build s = .next (after (exec .build s)) := rfl

theorem after_encode (s : State) : exec .encode s = .next (after (exec .encode s)) := rfl

/-- A 4-byte write or read. -/
def word (off : BitVec 32) (write : Bool) : Access := ⟨off, .b4, write, 0xFFFFFFFF⟩

/-- A state with this access next, busy or idle. -/
def about (x : Access) (pending : Option Word) : State :=
  { State.reset with pending := pending, hostOps := [.access x] }

theorem wit_StepRunsThePendingCommand :
    decode 5 = .ok .encode ∧ (busyB8 []).pending = some 5 ∧ (busyB8 []).schedule = [] ∧
    { busyB8 [] with schedule := [Turn.engine, .host] }.schedule = .engine :: [.host] := ⟨rfl, rfl, rfl, rfl⟩

theorem wit_StepIsTheTurnOfOneAgent : State.reset.pending = none ∧ State.reset.schedule = [] ∧
    { State.reset with schedule := [Turn.host, .reset, .engine] }.schedule = .host :: [.reset, .engine] := ⟨rfl, rfl, rfl⟩

theorem wit_WaitPollsWhileBusy : (busyB8 [.wait]).held = none ∧ (busyB8 [.wait]).hostOps = .wait :: [] ∧
    (derivedB8 [] 0).held = none := ⟨rfl, rfl, rfl⟩

/-- OP 0, OP 7, OP 15 and a reserved bit, the lowest and the highest (R102). -/
theorem wit_IllegalWordCompletesWithIllCmd : ∀ w ∈ [(0x0 : Word), 0x7, 0xF, 0x12, 0x80000001],
    (w.extractLsb' 4 28 ≠ 0 ∨ (w.extractLsb' 0 4).toNat = 0 ∨ 7 ≤ (w.extractLsb' 0 4).toNat) ∧
    (∃ s : State, s.held = none ∧ s.hostOps = .w32 0x0004 w :: [] ∧ s.pending = none) ∧
    ∃ s : State, s.pending = some w ∧ s.schedule = .engine :: [] := by
  intro w hw
  refine ⟨?_, ⟨{ State.reset with hostOps := [.w32 0x0004 w] }, rfl, rfl, rfl⟩,
    ⟨{ State.reset with pending := some w, schedule := [.engine] }, rfl, rfl⟩⟩
  simp only [List.mem_cons, List.not_mem_nil, or_false] at hw
  rcases hw with rfl | rfl | rfl | rfl | rfl <;> decide

theorem wit_CmdWriteIsAccepted :
    (let s := about ⟨0x0004, .b4, true, 0x12⟩ none
     s.held = none ∧ s.hostOps = .w32 0x0004 0x12 :: [] ∧ s.pending = none) ∧
    (let s := about ⟨0x0004, .b4, true, 0x12⟩ (some 5)
     s.held = none ∧ s.hostOps = .w32 0x0004 0x12 :: [] ∧ s.pending ≠ none) :=
  ⟨⟨rfl, rfl, rfl⟩, rfl, rfl, by decide⟩

/-- Every held target, with the first or the last offset of its window. -/
theorem wit_HeldAccessWaitsForCompletion :
    (∀ p ∈ [((0x0004 : BitVec 32), Target.csr .cmd), (0x0014, .csr .srcLen), (0x0018, .csr .decCount), (0x001C, .csr .outLen),
        (0x0020, .csr .outBits), (0x0024, .csr .treeRoot), (0x0028, .csr .nodeCount), (0x002C, .csr .nleaf),
        (0x0030, .csr .errPos), (0x0034, .csr .errBit), (0x0400, .freq 0), (0x07FC, .freq 0xFF), (0x3FEC, .node 510 3),
        (0x4000, .code 0 0), (0x7FFC, .code 0xFF 15), (0x1000FFFC, .ibuf 65532), (0x20000000, .obuf 0)],
      target (about (word p.1 false) (some 5)) (word p.1 false) = some p.2) ∧
    (∀ x, Issues (about x (some 5)) x [] ∧ (about x (some 5)).busy = true) ∧
    { derivedB8 [] 0 with held := some (word 0x0004 true) }.held = some (word 0x0004 true) ∧
    { derivedB8 [] 0 with held := some (word 0x0004 true) }.busy = false :=
  ⟨by decide +kernel, fun _ => ⟨⟨rfl, rfl⟩, rfl⟩, rfl, rfl⟩

theorem wit_UnheldRegistersAnswerAtOnce :
    (∀ p ∈ [((0x0000 : BitVec 32), Target.csr .id), (0x0008, .csr .status), (0x000C, .csr .irqPend), (0x0010, .csr .irqEn),
        (0x0038, .csr .ibufSize), (0x003C, .csr .obufSize)],
      target (about (word p.1 true) (some 5)) (word p.1 true) = some p.2) ∧
    Inv (busyB8 [.r32 0x0008]) ∧ (busyB8 [.r32 0x0008]).held = none ∧
    (busyB8 [.r32 0x0008]).hostOps = .r32 0x0008 :: [] ∧ (busyB8 [.r32 0x0008]).busy = true :=
  ⟨by decide +kernel, busyB8_inv _, rfl, rfl, rfl⟩

/-- The first offset past each region, and the last inside it (R23, R74). -/
theorem wit_ErrorResponseExactlyWhenUnmapped :
    (∀ x ∈ [word 0x0040 true, word 0x0800 false, word 0x3FF0 false, word 0x8000 false, word 0x10010000 false,
        word 0x0002 false, ⟨0x0014, .b2, true, 6⟩, ⟨0x2000FFFF, .b2, false, 0⟩, ⟨0x10000001, .b2, false, 0⟩],
      ¬ Mapped (about x (some 5)) x) ∧
    (∀ x ∈ [word 0x003C true, word 0x07FC false, word 0x3FEC false, word 0x7FFC false, word 0x1000FFFC false,
        ⟨0x1000FFFF, .b1, true, 6⟩, ⟨0x2000FFFE, .b2, false, 0⟩],
      Mapped (about x (some 5)) x) ∧
    ∀ x, Issues (about x (some 5)) x [] := by
  refine ⟨?_, ?_, fun _ => ⟨rfl, rfl⟩⟩ <;> unfold Mapped <;> decide +kernel

/-- Every row of the map of R23, and the first and the last access of each window. -/
theorem wit_MapNamesEachTarget :
    (∀ p ∈ [((0x0000 : BitVec 32), Target.csr .id), (0x0004, .csr .cmd), (0x0008, .csr .status), (0x000C, .csr .irqPend),
        (0x0010, .csr .irqEn), (0x0014, .csr .srcLen), (0x0018, .csr .decCount), (0x001C, .csr .outLen),
        (0x0020, .csr .outBits), (0x0024, .csr .treeRoot), (0x0028, .csr .nodeCount), (0x002C, .csr .nleaf),
        (0x0030, .csr .errPos), (0x0034, .csr .errBit), (0x0038, .csr .ibufSize), (0x003C, .csr .obufSize),
        (0x0400, .freq 0), (0x07FC, .freq 255), (0x2000, .node 0 0), (0x3FEC, .node 510 3), (0x4000, .code 0 0),
        (0x7FFC, .code 255 15), (0x10000000, .ibuf 0), (0x20000000, .obuf 0)],
      target State.reset (word p.1 false) = some p.2) ∧
    target State.reset ⟨0x1000FFFF, .b1, true, 0⟩ = some (.ibuf 65535) ∧
    target State.reset ⟨0x2000FFFF, .b1, true, 0⟩ = some (.obuf 65535) := by
  decide +kernel

/-- A held target while idle, and each that is not held while a command is pending. -/
theorem wit_ReadsHaveNoSideEffect : (word 0x7FFC false).write = false ∧
    target (about (word 0x7FFC false) none) (word 0x7FFC false) = some (.code 0xFF 15) ∧
    (about (word 0x7FFC false) none).busy = false ∧
    (∀ p ∈ [((0x0000 : BitVec 32), Target.csr .id), (0x0008, .csr .status), (0x000C, .csr .irqPend), (0x0010, .csr .irqEn),
        (0x0038, .csr .ibufSize), (0x003C, .csr .obufSize)],
      target (about (word p.1 false) (some 5)) (word p.1 false) = some p.2) ∧
    ∀ x p, Issues (about x p) x [] :=
  ⟨rfl, by decide +kernel, rfl, by decide +kernel, fun _ _ => ⟨rfl, rfl⟩⟩

/-- An idle state that issues such a read, with a tree and without, and the first and the last FREQ entry. -/
theorem wit_RegistersReadTheirValues :
    (about (word 0x0024 false) none).busy = false ∧ Issues (about (word 0x0024 false) none) ⟨0x0024, .b4, false, 0xFFFFFFFF⟩ [] ∧
    (about (word 0x0024 false) none).treeRoot = none ∧ (withTreeB8 [] 0).treeRoot = some 6 ∧
    (withTreeB8 [] 0).busy = false ∧
    (0x0400 : BitVec 32).toNat = 0x0400 + 4 * (0 : Byte).toNat ∧ (0x07FC : BitVec 32).toNat = 0x0400 + 4 * (0xFF : Byte).toNat :=
  ⟨rfl, ⟨rfl, rfl⟩, rfl, rfl, rfl, rfl, rfl⟩

theorem wit_NodeWindowReadsTheEntry :
    (0x2000 : BitVec 32).toNat = 0x2000 + 16 * (0 : NodeIx).val + 4 * (0 : Fin 4).val ∧
    (0x3FEC : BitVec 32).toNat = 0x2000 + 16 * (510 : NodeIx).val + 4 * (3 : Fin 4).val ∧
    (about (word 0x3FEC false) none).held = none ∧ (about (word 0x3FEC false) none).busy = false := by
  decide +kernel

/-- A symbol with a code, and the words of its first and last code bit. -/
theorem wit_CodeWindowReadsTheEntry :
    (0x7FC4 : BitVec 32).toNat = 0x4000 + 64 * (0xFF : Byte).toNat + 4 * (1 : Fin 16).val ∧
    (0x4020 : BitVec 32).toNat = 0x4000 + 64 * (0 : Byte).toNat + 4 * (8 : Fin 16).val ∧
    (tableGet (withCodesB8 []).code 0xFF).length = 3 ∧ (tableGet (withCodesB8 []).code 0xFF).getD (32 * 0 + 1) false = true := by
  decide +kernel

/-- The registers that are not held while a command is pending, and the others while idle. -/
theorem wit_ReadOnlyWritesAreIgnored :
    (∀ p ∈ [((0x0000 : BitVec 32), Target.csr .id), (0x0008, .csr .status), (0x0038, .csr .ibufSize),
        (0x003C, .csr .obufSize)],
      target (about (word p.1 true) (some 5)) (word p.1 true) = some p.2) ∧
    (∀ p ∈ [((0x001C : BitVec 32), Target.csr .outLen), (0x0020, .csr .outBits),
        (0x0024, .csr .treeRoot), (0x0028, .csr .nodeCount), (0x002C, .csr .nleaf), (0x0030, .csr .errPos),
        (0x0034, .csr .errBit), (0x2000, .node 0 0), (0x4000, .code 0 0)],
      target (about (word p.1 true) none) (word p.1 true) = some p.2) ∧
    (about (word 0x0004 false) none).busy = false ∧ (∀ x p, Issues (about x p) x []) :=
  ⟨by decide +kernel, by decide +kernel, rfl, fun _ _ => ⟨rfl, rfl⟩⟩

theorem wit_FreqWriteInvalidates : { derivedB8 [] 0 with hostOps := [.setfreq 0xFF 1] }.held = none ∧
    { derivedB8 [] 0 with hostOps := [.setfreq 0xFF 1] }.hostOps = .setfreq 0xFF 1 :: [] ∧
    { derivedB8 [] 0 with hostOps := [.setfreq 0xFF 1] }.busy = false := ⟨rfl, rfl, rfl⟩

theorem wit_RegisterWritesStore : ∀ off ∈ [(0x000C : BitVec 32), 0x0010, 0x0014, 0x0018],
    (about ⟨off, .b4, true, 3⟩ none).held = none ∧ (about ⟨off, .b4, true, 3⟩ none).hostOps = .w32 off 3 :: [] ∧
    (about ⟨off, .b4, true, 3⟩ none).busy = false := fun _ _ => ⟨rfl, rfl, rfl⟩

/-- The first and the last bytes of both buffers, written and read. -/
theorem wit_BufferAccessesAreLittleEndian :
    (∀ p ∈ [((0x10000000 : BitVec 32), Size.b4, Target.ibuf 0), (0x1000FFFE, .b2, .ibuf 65534), (0x1000FFFF, .b1, .ibuf 65535),
        (0x20000000, .b4, .obuf 0), (0x2000FFFE, .b2, .obuf 65534), (0x2000FFFF, .b1, .obuf 65535)],
      ∀ w, target (about ⟨p.1, p.2.1, w, 0x44434241⟩ none) ⟨p.1, p.2.1, w, 0x44434241⟩ = some p.2.2) ∧
    (∀ x, Issues (about x none) x []) ∧ ∀ x, (about x none).busy = false :=
  ⟨by decide +kernel, fun _ => ⟨rfl, rfl⟩, fun _ => rfl⟩

theorem wit_BothStatusOrdersAreAdmitted : Inv (busyB8 [.r32 0x0008]) ∧ (busyB8 [.r32 0x0008]).pending = some 5 ∧
    (busyB8 [.r32 0x0008]).held = none ∧ (busyB8 [.r32 0x0008]).hostOps = .r32 0x0008 :: [] :=
  ⟨busyB8_inv _, rfl, rfl, rfl⟩

theorem wit_HostCannotDisturbAPendingCommand : (busyB8 [.w32 0x0010 3]).busy = true := rfl

theorem wit_ResetEventGivesTheResetState :
    { busyB8 [] with schedule := [Turn.reset] }.schedule = .reset :: [] ∧ (busyB8 []).held = none ∧
    { busyB8 [] with schedule := [Turn.reset], held := some (word 0x0004 true) }.held ≠ none := by
  decide +kernel

/-- An input with room for every count, one that meets a full count at its second byte, and one that is too long. -/
theorem wit_CountAddsEachInputByte :
    (let s := idle [(0, 0xFFFFFFFE)] [] [] [0, 1]
     s.srcLen.toNat ≤ s.ibufSize ∧ ∀ y, (tableGet s.freq y).toNat + s.inputBytes.count y ≤ 2 ^ 32 - 1) ∧
    (let s := idle [(0, 0xFFFFFFFE)] [] [] [0, 0, 1]
     s.srcLen.toNat ≤ s.ibufSize ∧ s.inputBytes = [0] ++ 0 :: [1] ∧
       (∀ y, (tableGet s.freq y).toNat + [(0 : Byte)].count y ≤ 2 ^ 32 - 1) ∧
       (tableGet s.freq 0).toNat + [(0 : Byte)].count 0 = 2 ^ 32 - 1) ∧
    (let s := { idle [] [] [] [] with srcLen := 65537 }; s.ibufSize < s.srcLen.toNat) := by
  decide +kernel

theorem wit_ClearedCountIsTheHistogram : (derivedB8 [0x41, 0x41] 0).srcLen.toNat ≤ (derivedB8 [0x41, 0x41] 0).ibufSize ∧
    exec .clrfreq (derivedB8 [0x41, 0x41] 0) = .next (after (exec .clrfreq (derivedB8 [0x41, 0x41] 0))) :=
  ⟨by decide +kernel, after_clrfreq _⟩

/-- Vector B5. -/
theorem wit_BuildRejectsTooLargeSum :
    (let f := (idle [(0, 0x80000000), (1, 0x80000000)] [] [] []).freq
     freqSum f 1 ≤ 2 ^ 32 - 1 ∧ 2 ^ 32 - 1 < freqSum f (1 + 1)) := by
  decide +kernel

/-- The largest sum that fits (R140). -/
theorem wit_BuildPlacesLeavesAndResults :
    freqSum (idle [(0, 0x80000000), (1, 0x7FFFFFFF)] [] [] []).freq 256 = 2 ^ 32 - 1 := by
  decide +kernel

theorem wit_DegenerateTablesBuild : (∀ y, tableGet (idle [] [] [] []).freq y = 0) ∧
    tableGet (idle [(0xFF, 7)] [] [] []).freq 0xFF ≠ 0 ∧ ∀ z, z ≠ 0xFF → tableGet (idle [(0xFF, 7)] [] [] []).freq z = 0 := by
  refine ⟨fun y => tableGet_replicate _ y, by decide +kernel, fun z hz => ?_⟩
  show tableGet (tableSet (Vector.replicate 256 0) 0xFF 7) z = 0
  rw [tableGet_tableSet_of_ne _ _ hz.symm, tableGet_replicate]

/-- The root and the first internal node of vector B8, for both statements about trees of two or more leaves. -/
theorem wit_BuildMergesTheTwoLeast :
    (let s := derivedB8 [] 0
     let t := after (exec .build s)
     exec .build s = .next t ∧ t.err = false ∧ 2 ≤ numPresent s.freq ∧ numPresent s.freq ≤ (4 : NodeIx).val ∧
       (6 : NodeIx).val < t.nodeCount.toNat) :=
  ⟨after_build _, by decide +kernel⟩

theorem wit_BuiltTreeIsATree :
    (let s := derivedB8 [] 0
     let t := after (exec .build s)
     exec .build s = .next t ∧ t.err = false ∧ 2 ≤ numPresent s.freq ∧ t.node[(6 : NodeIx)].internal = true ∧
       followPath t.node 6 [false, true, true] = some 3) :=
  ⟨after_build _, by decide +kernel⟩

/-- Two different arenas under one table. -/
theorem wit_BuildDependsOnFreqAlone :
    (let s := derivedB8 [] 0
     let s' := { derivedB8 [] 0 with node := blankArena }
     s.freq = s'.freq ∧ s.node[(0 : NodeIx)] ≠ s'.node[(0 : NodeIx)] ∧ exec .build s = .next (after (exec .build s)) ∧
       exec .build s' = .next (after (exec .build s'))) :=
  ⟨rfl, by decide +kernel, after_build _, after_build _⟩

theorem wit_DeriveNeedsATree : State.reset.treeValid = false := rfl

theorem wit_DeriveGivesEachSymbolItsPath : Inv (derivedB8 [] 0) ∧ (derivedB8 [] 0).treeValid = true ∧
    tableGet (derivedB8 [] 0).freq 0xFF ≠ 0 ∧ tableGet (derivedB8 [] 0).freq 0x41 = 0 :=
  ⟨derivedB8_inv _ _ (by decide), by decide +kernel⟩

theorem wit_ThePathIsTheCode : Inv (derivedB8 [] 0) ∧ (derivedB8 [] 0).codesValid = true ∧
    (derivedB8 [] 0).treeRoot = some 6 ∧ IsCode (derivedB8 [] 0).node 6 [false, true, true] 0xFF :=
  ⟨derivedB8_inv _ _ (by decide), rfl, by decide +kernel, 3, by decide +kernel⟩

theorem wit_DerivedCodesArePrefixFree : Inv (derivedB8 [] 0) ∧ (derivedB8 [] 0).codesValid = true ∧
    tableGet (derivedB8 [] 0).freq 0x10 ≠ 0 ∧ tableGet (derivedB8 [] 0).freq 0xFF ≠ 0 ∧
    tableGet (derivedB8 [] 0).freq 0x41 = 0 :=
  ⟨derivedB8_inv _ _ (by decide), by decide +kernel⟩

theorem wit_EncodeChecksBeforePacking : (idle [] [] [] []).codesValid = false ∧
    { withCodesB8 [] with srcLen := 65537 }.codesValid = true ∧
    { withCodesB8 [] with srcLen := 65537 }.ibufSize < { withCodesB8 [] with srcLen := 65537 }.srcLen.toNat := by
  decide +kernel

/-- A byte without a code after a coded one, and a code that does not fit one byte of output. -/
theorem wit_EncodeStopsAtTheFirstBadSymbol :
    (let s := withCodesB8 [0x00, 0x41, 0x10]
     s.codesValid = true ∧ s.srcLen.toNat ≤ s.ibufSize ∧ s.inputBytes = [0x00] ++ 0x41 :: [0x10] ∧
       (∀ y ∈ [(0x00 : Byte)], tableGet s.code y ≠ []) ∧ (codeStream s.code [0x00]).length ≤ 8 * s.obufSize ∧
       tableGet s.code 0x41 = []) ∧
    (let s := { withCodesB8 [0x00, 0x10, 0x20, 0xFF] with obufLog2 := 0 }
     s.codesValid = true ∧ s.srcLen.toNat ≤ s.ibufSize ∧ s.inputBytes = [0x00, 0x10, 0x20] ++ 0xFF :: [] ∧
       (∀ y ∈ [(0x00 : Byte), 0x10, 0x20], tableGet s.code y ≠ []) ∧
       (codeStream s.code [0x00, 0x10, 0x20]).length ≤ 8 * s.obufSize ∧ tableGet s.code 0xFF ≠ [] ∧
       8 * s.obufSize < (codeStream s.code [0x00, 0x10, 0x20]).length + (tableGet s.code 0xFF).length) := by
  decide +kernel

/-- Eight bits into a buffer of one byte: a payload exactly as large as OBUF. -/
theorem wit_EncodePacksTheCodes :
    (let s := { withCodesB8 [0x00, 0x10, 0x20, 0x20] with obufLog2 := 0 }
     s.codesValid = true ∧ s.srcLen.toNat ≤ s.ibufSize ∧ (∀ y ∈ s.inputBytes, tableGet s.code y ≠ []) ∧
       (s.inputBytes.map fun y => (tableGet s.code y).length).sum = 8 * s.obufSize) := by
  decide +kernel

theorem wit_DecodeChecksBeforeWalking : (idle [] [] [] []).treeValid = false ∧
    (let s := { withTreeB8 [] 0 with srcLen := 65537 }; s.treeValid = true ∧ s.ibufSize < s.srcLen.toNat) ∧
    (let s := withTreeB8 [] 65537
     s.treeValid = true ∧ s.srcLen.toNat ≤ s.ibufSize ∧ s.obufSize < s.decCount.toNat) ∧
    (let s := { withTreeB8 [] 1 with treeRoot := none }
     s.treeValid = true ∧ s.srcLen.toNat ≤ s.ibufSize ∧ s.decCount.toNat ≤ s.obufSize ∧ 0 < s.decCount.toNat ∧
       s.treeRoot = none) := by
  decide +kernel

/-- The codes of X12's symbols in the tree of B8. -/
theorem areCodesB8 : AreCodes (withTreeB8 [] 0).node 6
    [[true], [false, true, false], [false, false], [false, true, true], [true]] [0x00, 0x10, 0x20, 0xFF, 0x00] :=
  .cons ⟨0, by decide +kernel⟩ (.cons ⟨1, by decide +kernel⟩ (.cons ⟨2, by decide +kernel⟩
    (.cons ⟨3, by decide +kernel⟩ (.cons ⟨0, by decide +kernel⟩ .nil))))

/-- Vector X12; and no symbol asked of the empty tree. -/
theorem wit_DecodeEmitsTheSymbols :
    (let s := withTreeB8 [0xA1, 0xC0] 5
     let codes := [[true], [false, true, false], [false, false], [false, true, true], [true]]
     s.treeValid = true ∧ s.srcLen.toNat ≤ s.ibufSize ∧ s.decCount.toNat ≤ s.obufSize ∧ s.treeRoot = some 6 ∧
       [(0x00 : Byte), 0x10, 0x20, 0xFF, 0x00].length = s.decCount.toNat ∧ StreamIs s.ibuf 0 codes.flatten ∧
       codes.flatten.length ≤ 8 * s.srcLen.toNat) ∧
    (let s := { withTreeB8 [0xA1] 0 with treeRoot := none }
     s.treeValid = true ∧ s.srcLen.toNat ≤ s.ibufSize ∧ s.decCount = 0) := by
  unfold StreamIs
  decide +kernel

/-- The single-symbol tree of R142. -/
def treeSingle (input : List Byte) (count : Word) : State :=
  { idle [] [leaf 1 0x41, inner 1 (some 0) none] [] input with
    treeValid := true, treeRoot := some 1, nodeCount := 2, nleaf := 1, decCount := count }

/-- The payload ends at the root (`1` eight times, and a ninth symbol asked), inside a descent (`10100001`, then `01` of
`011`), and a bit selects the absent child of the single-symbol root (`01…`). -/
theorem wit_DecodeWalkErrors :
    (let s := withTreeB8 [0xFF] 9
     s.treeValid = true ∧ s.srcLen.toNat ≤ s.ibufSize ∧ s.decCount.toNat ≤ s.obufSize ∧ s.treeRoot = some 6 ∧
       (List.replicate 8 (0x00 : Byte)).length < s.decCount.toNat ∧
       StreamIs s.ibuf 0 ((List.replicate 8 [true]).flatten ++ []) ∧ followPath s.node 6 [] = some 6 ∧
       s.node[(6 : NodeIx)].internal = true ∧
       ((List.replicate 8 [true]).flatten ++ []).length = 8 * s.srcLen.toNat) ∧
    (let s := withTreeB8 [0xA1] 5
     let codes := [[true], [false, true, false], [false, false]]
     s.treeValid = true ∧ s.srcLen.toNat ≤ s.ibufSize ∧ s.decCount.toNat ≤ s.obufSize ∧ s.treeRoot = some 6 ∧
       [(0x00 : Byte), 0x10, 0x20].length < s.decCount.toNat ∧ StreamIs s.ibuf 0 (codes.flatten ++ [false, true]) ∧
       followPath s.node 6 [false, true] = some 4 ∧ s.node[(4 : NodeIx)].internal = true ∧ (4 : NodeIx) ≠ 6 ∧
       (codes.flatten ++ [false, true]).length = 8 * s.srcLen.toNat) ∧
    (let s := treeSingle [0x40] 3
     s.treeValid = true ∧ s.srcLen.toNat ≤ s.ibufSize ∧ s.decCount.toNat ≤ s.obufSize ∧ s.treeRoot = some 1 ∧
       [(0x41 : Byte)].length < s.decCount.toNat ∧ StreamIs s.ibuf 0 ([[false]].flatten ++ []) ∧
       followPath s.node 1 [] = some 1 ∧ s.node[(1 : NodeIx)].internal = true ∧
       ([[false]].flatten ++ []).length < 8 * s.srcLen.toNat ∧
       childOf s.node[(1 : NodeIx)] (s.ibuf.streamBit ([[false]].flatten ++ []).length) = none) := by
  unfold StreamIs
  decide +kernel

/-- The codes read before those errors. -/
theorem wit_DecodeWalkErrors_codes :
    AreCodes (withTreeB8 [] 0).node 6 (List.replicate 8 [true]) (List.replicate 8 0x00) ∧
    AreCodes (withTreeB8 [] 0).node 6 [[true], [false, true, false], [false, false]] [0x00, 0x10, 0x20] ∧
    AreCodes (treeSingle [] 0).node 1 [[false]] [0x41] := by
  have h : IsCode (withTreeB8 [] 0).node 6 [true] 0x00 := ⟨0, by decide +kernel⟩
  exact ⟨.cons h (.cons h (.cons h (.cons h (.cons h (.cons h (.cons h (.cons h .nil))))))),
    .cons h (.cons ⟨1, by decide +kernel⟩ (.cons ⟨2, by decide +kernel⟩ .nil)), .cons ⟨0, by decide +kernel⟩ .nil⟩

/-- Vectors E10 and X12: the payload of one state is the input of another. -/
theorem wit_DecodeInvertsEncode :
    (let s := derivedB8 [0x00, 0x10, 0x20, 0xFF, 0x00] 0
     let t := after (exec .encode s)
     let u := derivedB8 [0xA1, 0xC0] 5
     Inv s ∧ exec .encode s = .next t ∧ t.err = false ∧ ReadyToDecode t u s.srcLen) := by
  refine ⟨derivedB8_inv _ _ (by decide), after_encode _, by decide +kernel, derivedB8_inv _ _ (by decide), rfl, ?_⟩
  decide +kernel

theorem wit_TruncationIsDetected : ∃ s t u : State, Inv s ∧ exec .encode s = .next t ∧ t.err = false ∧
    1 ≤ s.srcLen.toNat ∧ ReadyToDecode t u s.srcLen :=
  let h := wit_DecodeInvertsEncode
  ⟨_, _, _, h.1, h.2.1, h.2.2.1, by decide +kernel, h.2.2.2⟩

/-- An input of which the table of B8 is the histogram. -/
theorem wit_EncodedLengthIsTheWeightedPathLength :
    (let s := derivedB8 [0, 0x20, 0, 0x10, 0, 0xFF, 0, 0x20, 0] 0
     Inv s ∧ (∀ y, (tableGet s.freq y).toNat = s.inputBytes.count y) ∧
       exec .encode s = .next (after (exec .encode s)) ∧ (after (exec .encode s)).err = false) := by
  have hin : (derivedB8 [0, 0x20, 0, 0x10, 0, 0xFF, 0, 0x20, 0] 0).inputBytes =
      [0, 0x20, 0, 0x10, 0, 0xFF, 0, 0x20, 0] := by decide +kernel
  have hcount : ∀ y, (tableGet freqB8 y).toNat = [(0 : Byte), 0x20, 0, 0x10, 0, 0xFF, 0, 0x20, 0].count y := by
    decide +kernel
  exact ⟨derivedB8_inv _ _ (by decide), fun y => by rw [hin]; exact hcount y, after_encode _, by decide +kernel⟩

theorem wit_CompressSequenceNeedsOnlyRoom :
    (let s := idle [] [] [] [0x41, 0x42]
     s.srcLen.toNat ≤ s.ibufSize ∧ 255 * s.srcLen.toNat ≤ 8 * s.obufSize) := by
  decide +kernel

/-- Every command answers a next state in one state: for the statements about all commands. -/
theorem wit_EveryCompletionLeavesItsOutcome :
    ∀ i : Instr, ∃ t, exec i (busyB8 []) = .next t := by
  intro i
  cases i with
  | derive =>
    have h : deriveCodes (busyB8 []).node (busyB8 []).treeRoot = some (tableOf [] codesB8) := codesB8_derived
    refine ⟨succeed { busyB8 [] with code := tableOf [] codesB8, codesValid := true }, ?_⟩
    rw [exec, execDerive, if_pos (show (busyB8 []).treeValid = true from rfl), h]
  | _ => exact ⟨_, rfl⟩

theorem wit_CommandsLeaveOperandsAlone : ∀ i : Instr, ∃ t, exec i (busyB8 []) = .next t := wit_EveryCompletionLeavesItsOutcome

theorem wit_OnlyItsCommandWritesATable : ∀ i : Instr, ∃ t, exec i (busyB8 []) = .next t := wit_EveryCompletionLeavesItsOutcome

/-- A FREQ write of an idle state, the one access that clears the flags; and a state with both flags whose step
answers a next state. -/
theorem wit_ValidityFlagsChangeOnlyAtTheirEvents :
    target { derivedB8 [] 0 with hostOps := [.setfreq 0xFF 1] } ⟨0x07FC, .b4, true, 1⟩ = some (.freq 0xFF) ∧
    (HostOp.setfreq 0xFF 1) = .access ⟨0x07FC, .b4, true, 1⟩ ∧ (busyB8 []).codesValid = true ∧
    (busyB8 []).treeValid = true ∧ ∃ t, step (busyB8 []) = .next t :=
  ⟨by decide +kernel, by decide, rfl, rfl, _, rfl⟩

/-- A state with the invariant, a tree, codes and a pending command. -/
theorem wit_StepKeepsTheInvariant : Inv (busyB8 [.wait]) ∧ (busyB8 [.wait]).busy = true ∧ (busyB8 [.wait]).codesValid = true ∧
    ∃ t, step (busyB8 [.wait]) = .next t := ⟨busyB8_inv _, rfl, rfl, _, rfl⟩

theorem wit_StepNeverStops : Inv (busyB8 []) := busyB8_inv _

theorem wit_PendingCommandIsCompleted : Inv (busyB8 []) ∧ (busyB8 []).busy = true := ⟨busyB8_inv _, rfl⟩

end Sys2Proof.Tests
end

/-! What one step of the engine, of the bus or of reset leaves: one inversion lemma each, from which the frames and the
invariant follow by cases. -/

namespace Sys2Proof.Machine

variable {s t : State}

/-! ### What a command can answer -/

/-- The states a command can leave, by its outcome: each is a completion (R213) of `s` with what the command has
changed. -/
inductive Completion (s : State) : Instr → State → Prop
  | cleared : Completion s .clrfreq (completedOk
      { s with freq := Vector.replicate 256 0, treeValid := false, codesValid := false })
  | countRange (h : s.ibufSize < s.srcLen.toNat) : Completion s .count (completedErr CmdError.lenRange.code 0 0 s)
  | counted (h : ¬ s.ibufSize < s.srcLen.toNat) (f : Vector Word 256) : Completion s .count (completedOk
      { s with freq := f, treeValid := false, codesValid := false })
  | countOvf (h : ¬ s.ibufSize < s.srcLen.toNat) (f : Vector Word 256) (i : Nat) :
      Completion s .count (completedErr CmdError.countOvf.code i 0
        { s with freq := f, treeValid := false, codesValid := false })
  | built (h : freqSum s.freq 256 ≤ Config.countMax) : Completion s .build (builtState s)
  | weightOvf (k : Nat) : Completion s .build (completedErr CmdError.weightOvf.code k 0
      { s with treeValid := false, codesValid := false, treeRoot := none, nodeCount := 0, nleaf := 0 })
  | noTree (h : s.treeValid = false) : Completion s .derive (completedErr CmdError.noTree.code 0 0 s)
  | derived (h : s.treeValid = true) (c : CodeTable) (hc : deriveCodes s.node s.treeRoot = some c) :
      Completion s .derive (completedOk { s with code := c, codesValid := true })
  | encodeRefused (e : CmdError) : Completion s .encode (completedErr e.code 0 0 { s with outLen := 0, outBits := 0 })
  | encodeFailed (r : Raised) : Completion s .encode (completedErr r.error.code r.pos r.bit
      { s with outLen := 0, outBits := 0, obuf := .drawn s.draws, draws := s.draws + 1 })
  | encoded (bs : List Byte) (h : bs.length ≤ s.obufSize) (bits len : Word) : Completion s .encode (completedOk
      { s with obuf := s.obuf.writeBytes 0 bs, outBits := bits, outLen := len })
  | decodeRefused (e : CmdError) : Completion s .decode (completedErr e.code 0 0 { s with outLen := 0, outBits := 0 })
  | decodeFailed (r : Raised) : Completion s .decode (completedErr r.error.code r.pos r.bit
      { s with outLen := 0, outBits := 0, obuf := .drawn s.draws, draws := s.draws + 1 })
  | decoded (bs : List Byte) (h : bs.length ≤ s.obufSize) (bits len : Word) : Completion s .decode (completedOk
      { s with obuf := s.obuf.writeBytes 0 bs, outBits := bits, outLen := len })

theorem Completion.of_count (h : exec .count s = .next t) : Completion s .count t := by
  rcases exec_count_cases s with ⟨hr, he⟩ | ⟨hr, f, -, he⟩ | ⟨hr, f, i, -, he⟩ <;> cases he.symm.trans h
  · exact .countRange hr
  · exact .counted hr f
  · exact .countOvf hr f i

theorem Completion.of_build (h : exec .build s = .next t) : Completion s .build t := by
  rcases exec_build_cases s with ⟨hf, he⟩ | ⟨-, k, he⟩ <;> cases he.symm.trans h
  · exact .built hf
  · exact .weightOvf k

theorem Completion.of_derive (h : exec .derive s = .next t) : Completion s .derive t := by
  rcases exec_derive_cases s with ⟨ht, he⟩ | ⟨ht, c, hc, he⟩ | ⟨-, -, he⟩ <;> cases he.symm.trans h
  · exact .noTree ht
  · exact .derived ht c hc

theorem Completion.of_encode (h : exec .encode s = .next t) : Completion s .encode t := by
  rcases exec_encode_cases s with ⟨-, he⟩ | ⟨-, -, he⟩ | ⟨-, -, r, -, -, he⟩ | ⟨-, -, -, -, hfit, he⟩ <;>
    cases he.symm.trans h
  · exact .encodeRefused .noCodes
  · exact .encodeRefused .lenRange
  · exact .encodeFailed r
  · exact .encoded _ (by rw [packBytes_length]; omega) _ _

theorem Completion.of_decode (h : exec .decode s = .next t) : Completion s .decode t := by
  rcases exec_decode_cases s with ⟨-, he⟩ | ⟨-, -, he⟩ | ⟨-, -, -, he⟩ | ⟨-, -, -, -, -, he⟩ |
      ⟨-, -, hcount, hroot, ⟨r, -, he⟩ | ⟨ys, p, hp, he⟩⟩ <;> cases he.symm.trans h
  · exact .decodeRefused .noTree
  · exact .decodeRefused .lenRange
  · exact .decodeRefused .obufOvf
  · exact .decodeRefused .fmtEmptyTree
  · exact .decodeFailed r
  · exact .decoded ys (by rw [decodePayload_length s hp hroot]; exact hcount) _ _

/-- What a command can answer, for every command. -/
theorem exec_completion {i : Instr} (h : exec i s = .next t) : Completion s i t := by
  cases i with
  | clrfreq => cases (exec_clrfreq s).symm.trans h; exact .cleared
  | count => exact .of_count h
  | build => exact .of_build h
  | derive => exact .of_derive h
  | encode => exact .of_encode h
  | decode => exact .of_decode h

/-! ### What a bus access can do -/

/-- The states an access `x` can leave: it waits (R80), or it is answered and has changed one thing at most. -/
inductive BusEffect (x : Access) (s : State) : State → Prop
  | waits (t : Target) (ht : target s x = some t) (hh : t.isHeld = true) : BusEffect x s { s with held := some x }
  | answers (a : Answer) (n : Nat) (hn : s.draws ≤ n) : BusEffect x s { s with answers := a :: s.answers, draws := n }
  | accepts (w : Word) : BusEffect x s (answer ⟨.okay, none⟩ (accept w s))
  | clearsIrq (w : Word) : BusEffect x s (answer ⟨.okay, none⟩ (clearIrqPend w s))
  | storesRegisters (de ee : Bool) (len count : Word) : BusEffect x s (answer ⟨.okay, none⟩
      { s with doneEn := de, errEn := ee, srcLen := len, decCount := count })
  | storesFreq (y : Byte) (hw : x.write = true) (ht : target s x = some (.freq y)) (hb : s.busy = false) :
      BusEffect x s (answer ⟨.okay, none⟩ { invalidate s with freq := tableSet s.freq y x.wdata })
  | storesIbuf (k : Nat) (bs : List Byte) (hk : k + bs.length ≤ s.ibufSize) :
      BusEffect x s (answer ⟨.okay, none⟩ { s with ibuf := s.ibuf.writeBytes k bs })
  | storesObuf (k : Nat) (bs : List Byte) (hk : k + bs.length ≤ s.obufSize) :
      BusEffect x s (answer ⟨.okay, none⟩ { s with obuf := s.obuf.writeBytes k bs })

/-- A write to a register stores it, or is ignored (R25). -/
theorem writeCsr_effect (x : Access) (s : State) (w : Word) (r : Csr) :
    BusEffect x s (answer ⟨.okay, none⟩ (writeCsr w s r)) := by
  cases r with
  | cmd => exact .accepts w
  | irqPend => exact .clearsIrq w
  | irqEn => exact .storesRegisters (w.getLsbD 0) (w.getLsbD 1) s.srcLen s.decCount
  | srcLen => exact .storesRegisters s.doneEn s.errEn w s.decCount
  | decCount => exact .storesRegisters s.doneEn s.errEn s.srcLen w
  | _ => exact .answers ⟨.okay, none⟩ s.draws le_rfl

/-- An access that reaches its target. -/
theorem perform_effect {x : Access} {g : Target} (ht : target s x = some g)
    (hp : s.busy = false ∨ g.isHeld = false) : BusEffect x s (perform x g s) := by
  rw [perform]
  split
  case isFalse => exact .answers _ s.draws le_rfl
  case isTrue hw =>
    cases g with
    | csr r => exact writeCsr_effect x s x.wdata r
    | freq y => exact .storesFreq y hw ht (hp.resolve_right (by simp [Target.isHeld]))
    | node i w => exact .answers ⟨.okay, none⟩ s.draws le_rfl
    | code y w => exact .answers ⟨.okay, none⟩ s.draws le_rfl
    | ibuf k => exact .storesIbuf k _ (by rw [wordBytes_length]; exact target_ibuf_inside ht)
    | obuf k => exact .storesObuf k _ (by rw [wordBytes_length]; exact target_obuf_inside ht)

theorem answerError_effect (x : Access) (s : State) : BusEffect x s (answerError x s) := by
  rw [answerError]
  split
  · exact .answers _ s.draws le_rfl
  · exact .answers _ (s.draws + 1) (Nat.le_succ _)

/-- What issuing an access can do (R74, R80, R81). -/
theorem issue_effect (x : Access) (s : State) : BusEffect x s (issue x s) := by
  rcases issue_cases x s with ⟨-, h⟩ | ⟨g, hg, ⟨-, hh, h⟩ | ⟨hp, h⟩⟩ <;> rw [h]
  · exact answerError_effect x s
  · exact .waits g hg hh
  · exact perform_effect hg hp

/-- What a host step can do: nothing, or the effect of one access, the held one or the next of the program. -/
theorem hostStep_effect (s : State) :
    hostStep s = s ∨
      ∃ (x : Access) (o : List HostOp), BusEffect x { s with held := none, hostOps := o } (hostStep s) ∧
        (s.held = some x ∨ (s.held = none ∧ (x = statusRead ∨ ∃ rest, Issues s x rest))) := by
  rcases hostStep_cases s with h | ⟨x, o, h, hx⟩
  · exact .inl h
  · exact .inr ⟨x, o, h ▸ issue_effect x _, hx⟩

/-! ### Whose step it is -/

theorem step_of_nil (h : s.schedule = []) : step s = stepTurn s.fairTurn s := by
  simp only [step, h]

theorem step_of_cons {a : Turn} {rest : List Turn} (h : s.schedule = a :: rest) :
    step s = stepTurn a { s with schedule := rest } := by
  simp only [step, h]

theorem engineStep_idle (h : s.pending = none) : engineStep s = .next s := by
  simp only [engineStep, h]

/-- Every step is one agent's turn, in a state that differs from `s` in the schedule only (R20). -/
theorem step_eq_stepTurn (s : State) : ∃ (a : Turn) (r : List Turn), step s = stepTurn a { s with schedule := r } := by
  cases hs : s.schedule with
  | nil => exact ⟨s.fairTurn, [], by rw [step_of_nil hs, ← hs]⟩
  | cons a r => exact ⟨a, r, step_of_cons hs⟩

/-- What the engine's turn can do: nothing, a command's completion, or that of an illegal word (R102, R213). -/
theorem engineStep_cases (h : engineStep s = .next t) :
    t = s ∨ (∃ i, Completion s i t) ∨ t = completedErr CmdError.illCmd.code 0 0 s := by
  cases hp : s.pending with
  | none => cases (engineStep_idle hp).symm.trans h; exact .inl rfl
  | some w =>
    rw [engineStep_pending s hp] at h
    cases hd : decode w with
    | ok i => exact .inr (.inl ⟨i, exec_completion (completeWord_ok s hd ▸ h)⟩)
    | error r => cases (completeWord_illegal s hd).symm.trans h; exact .inr (.inr rfl)

/-- Before the reset event's own work no access is held any more (R243). -/
@[simp] theorem dropHeld_held (s : State) : (dropHeld s).held = none := by
  unfold dropHeld
  split
  · assumption
  · rfl

end Sys2Proof.Machine

/-! The invariant: what an update of the state needs to keep it, and then every step (R33, R211). -/

namespace Sys2Proof.Machine

variable {s t : State}

/-! ### ERRCODE (R211) -/

theorem CmdError.code_ne_zero (e : CmdError) : e.code ≠ 0 := by cases e <;> decide

theorem CmdError.code_le (e : CmdError) : e.code.toNat ≤ 12 := by cases e <;> decide

/-! ### Updates that keep the invariant -/

/-- The schedule and the host's program are in no clause, and an access no longer held is held nowhere. -/
theorem Inv.withSchedule (h : Inv s) (r : List Turn) : Inv { s with schedule := r } := { h with }

theorem Inv.unheld (h : Inv s) (o : List HostOp) : Inv { s with held := none, hostOps := o } :=
  { h with held_target := by simp }

/-- New answers and new draws. -/
theorem Inv.answered (h : Inv s) (a : List Answer) {n : Nat} (hn : s.draws ≤ n) :
    Inv { s with answers := a, draws := n } :=
  { h with ibuf_draw := h.ibuf_draw.trans_le hn, obuf_draw := h.obuf_draw.trans_le hn }

theorem Inv.answer (h : Inv s) (a : Answer) : Inv (answer a s) := h.answered _ le_rfl

theorem Inv.waits (h : Inv s) {x : Access} {g : Target} (hg : target s x = some g) (hh : g.isHeld = true) :
    Inv { s with held := some x } :=
  { h with held_target := fun y hy => by cases hy; exact ⟨g, hg, hh⟩ }

/-- Acceptance sets DONE, ERR and ERRCODE to 0 and LASTOP to the word's, as a busy block needs (R34). -/
theorem Inv.accept (h : Inv s) (w : Word) : Inv (accept w s) :=
  { h with
    busy_clear := fun v hv => by cases hv; exact ⟨rfl, rfl, rfl, rfl⟩
    err_code := by simp
    err_code_le := by simp
    err_pos := by simp }

/-- With both flags 0 nothing is said of FREQ, and of the tree (R33). -/
theorem Inv.invalidated (h : Inv s) (f : Vector Word 256) (r : Option NodeIx) (c : BitVec 10) (l : BitVec 9) :
    Inv { s with freq := f, treeValid := false, codesValid := false, treeRoot := r, nodeCount := c, nleaf := l } :=
  { h with
    codes_need_tree := by simp
    tree_current := by simp
    codes_current := by simp }

/-- A new OBUF of canonical form, and new OUT_LEN and OUT_BITS. -/
theorem Inv.withObuf (h : Inv s) {m : Memory} (hwf : m.wf) (hin : m.inside s.obufSize) {n : Nat} (hm : m.draw < n)
    (hn : s.draws ≤ n) (len bits : Word) :
    Inv { s with outLen := len, outBits := bits, obuf := m, draws := n } :=
  { h with
    obuf_wf := hwf
    obuf_inside := hin
    ibuf_draw := h.ibuf_draw.trans_le hn
    obuf_draw := hm }

theorem Inv.writeObuf (h : Inv s) {k : Nat} {bs : List Byte} (hk : k + bs.length ≤ s.obufSize) (len bits : Word) :
    Inv { s with outLen := len, outBits := bits, obuf := s.obuf.writeBytes k bs } :=
  h.withObuf (writeBytes_wf _ _ _ h.obuf_wf) (writeBytes_inside _ _ _ hk h.obuf_inside)
    (by rw [writeBytes_draw]; exact h.obuf_draw) le_rfl len bits

theorem Inv.havocObuf (h : Inv s) (len bits : Word) :
    Inv { s with outLen := len, outBits := bits, obuf := .drawn s.draws, draws := s.draws + 1 } :=
  h.withObuf (drawn_wf _) (drawn_inside _ _) (Nat.lt_succ_self _) (Nat.le_succ _) len bits

theorem Inv.writeIbuf (h : Inv s) {k : Nat} {bs : List Byte} (hk : k + bs.length ≤ s.ibufSize) :
    Inv { s with ibuf := s.ibuf.writeBytes k bs } :=
  { h with
    ibuf_wf := writeBytes_wf _ _ _ h.ibuf_wf
    ibuf_inside := writeBytes_inside _ _ _ hk h.ibuf_inside
    ibuf_draw := by rw [writeBytes_draw]; exact h.ibuf_draw }

/-- A completion with success, of any state with the invariant (R213). -/
theorem Inv.completedOk (h : Inv s) : Inv (completedOk s) :=
  { h with
    busy_clear := nofun
    err_code := by simp [Machine.completedOk]
    err_code_le := by simp [Machine.completedOk]
    err_pos := fun _ _ => ⟨rfl, rfl⟩ }

/-- A completion with an error of R211. -/
theorem Inv.completedErr (h : Inv s) (e : CmdError) (pos bit : Nat) : Inv (completedErr e.code pos bit s) :=
  { h with
    busy_clear := nofun
    err_code := iff_of_true rfl e.code_ne_zero
    err_code_le := e.code_le
    err_pos := nofun }

/-! ### The two tables -/

/-- BUILD leaves the tree of FREQ, which is what TREE_VALID = 1 means (R29, R145). -/
theorem Inv.builtState (h : Inv s) (hf : freqSum s.freq 256 ≤ Config.countMax) : Inv (builtState s) :=
  have hb : Inv { s with
      node := (buildTree s.freq s.node).arena, treeRoot := (buildTree s.freq s.node).root
      nodeCount := BitVec.ofNat 10 (buildTree s.freq s.node).count
      nleaf := BitVec.ofNat 9 (buildTree s.freq s.node).nleaf, treeValid := true, codesValid := false } :=
    { h with
      codes_need_tree := fun _ => rfl
      tree_current := fun _ => ⟨hf, s.node, rfl, rfl, rfl, rfl⟩
      codes_current := nofun }
  hb.completedOk

/-- No code that DERIVE makes of a current tree is too long (R45, R161). -/
theorem TreeCurrent.deriveCodes_length (h : TreeCurrent s) {c : CodeTable}
    (hc : deriveCodes s.node s.treeRoot = some c) (y : Byte) : (tableGet c y).length ≤ Config.maxCode := by
  obtain ⟨-, A, hn, hr, -, -⟩ := h
  obtain ⟨c', hc', hspec⟩ := deriveCodes_buildTree s.freq A
  rw [hn, hr, hc'] at hc
  cases hc
  by_cases hy : tableGet s.freq y = 0
  · rw [(hspec y).1 hy]
    exact Nat.zero_le _
  · obtain ⟨-, hle, -⟩ := (hspec y).2 hy
    exact hle

/-- DERIVE leaves the codes of the tree, which is what CODES_VALID = 1 means (R29). -/
theorem Inv.derived (h : Inv s) (ht : s.treeValid = true) {c : CodeTable}
    (hc : deriveCodes s.node s.treeRoot = some c) : Inv { s with code := c, codesValid := true } :=
  { h with
    codes_need_tree := fun _ => ht
    codes_current := fun _ => hc
    code_len := (h.tree_current ht).deriveCodes_length hc }

/-! ### Every agent -/

theorem Completion.inv {i : Instr} (hc : Completion s i t) (h : Inv s) : Inv t := by
  cases hc with
  | cleared => exact (h.invalidated _ _ _ _).completedOk
  | countRange => exact h.completedErr .lenRange 0 0
  | counted _ f => exact (h.invalidated f _ _ _).completedOk
  | countOvf _ f i => exact (h.invalidated f _ _ _).completedErr .countOvf i 0
  | built hf => exact h.builtState hf
  | weightOvf k => exact (h.invalidated s.freq none 0 0).completedErr .weightOvf k 0
  | noTree => exact h.completedErr .noTree 0 0
  | derived ht c hd => exact (h.derived ht hd).completedOk
  | encodeRefused e | decodeRefused e =>
    exact (h.withObuf h.obuf_wf h.obuf_inside h.obuf_draw le_rfl 0 0).completedErr e 0 0
  | encodeFailed r | decodeFailed r => exact (h.havocObuf 0 0).completedErr r.error r.pos r.bit
  | encoded bs hb bits len | decoded bs hb bits len =>
    exact (h.writeObuf (by rwa [Nat.zero_add]) len bits).completedOk

theorem engineStep_inv (h : Inv s) (he : engineStep s = .next t) : Inv t := by
  rcases engineStep_cases he with rfl | ⟨i, hc⟩ | rfl
  · exact h
  · exact hc.inv h
  · exact h.completedErr .illCmd 0 0

theorem BusEffect.inv {x : Access} (hx : BusEffect x s t) (h : Inv s) : Inv t := by
  cases hx with
  | waits g hg hh => exact h.waits hg hh
  | answers a n hn => exact h.answered _ hn
  | accepts w => exact (h.accept w).answer _
  | clearsIrq w => exact { h with }
  | storesRegisters => exact { h with }
  | storesFreq => exact (h.invalidated _ _ _ _).answer _
  | storesIbuf k bs hk => exact (h.writeIbuf hk).answer _
  | storesObuf k bs hk => exact (h.writeObuf hk _ _).answer _

theorem hostStep_inv (h : Inv s) : Inv (hostStep s) := by
  rcases hostStep_effect s with he | ⟨x, o, hx, -⟩
  · exact he.symm ▸ h
  · exact hx.inv (h.unheld o)

/-- A drawn CODE entry has at most MAXCODE bits (R45, log 11). -/
theorem resetBlock_code_len (s : State) (y : Byte) :
    (tableGet (resetBlock s).code y).length ≤ Config.maxCode := by
  simp [resetBlock, tableGet]

/-- The block's registers and new draws after reset say all of the invariant but the held access (R53, R241). -/
theorem resetBlock_inv (s : State) (h : s.held = none) : Inv (resetBlock s) where
  ibuf_wf := drawn_wf _
  obuf_wf := drawn_wf _
  ibuf_inside := drawn_inside _ _
  obuf_inside := drawn_inside _ _
  ibuf_draw := by simp [resetBlock]
  obuf_draw := by simp [resetBlock]
  codes_need_tree := nofun
  tree_current := nofun
  codes_current := nofun
  code_len := resetBlock_code_len s
  busy_clear := nofun
  err_code := by simp [resetBlock]
  err_code_le := by simp [resetBlock]
  err_pos := nofun
  held_target x hx := by cases h.symm.trans hx

theorem resetEvent_inv (s : State) : Inv (resetEvent s) := resetBlock_inv _ (dropHeld_held s)

theorem stepTurn_inv (a : Turn) (h : Inv s) (ht : stepTurn a s = .next t) : Inv t := by
  cases a with
  | host => cases ht; exact hostStep_inv h
  | engine => exact engineStep_inv h ht
  | reset => cases ht; exact resetEvent_inv s

/-- Settles O55: each agent's turn keeps the invariant, by the cases of what it can do. -/
theorem stepKeepsTheInvariant : Obligations.StepKeepsTheInvariant := by
  intro s t h hs
  obtain ⟨a, r, he⟩ := step_eq_stepTurn s
  exact stepTurn_inv a (h.withSchedule r) (he ▸ hs)

/-- Settles O54: the state after reset is the reset event's, over draw 0. -/
theorem invariantHoldsAtReset : Obligations.InvariantHoldsAtReset :=
  resetBlock_inv { State.reset with draws := 0 } rfl

end Sys2Proof.Machine

/-! The frames: what no command and no host step changes, and which events write the validity flags (R33). -/

namespace Sys2Proof.Machine

variable {s t : State}

/-! ### What a command leaves unchanged -/

/-- Settles O51: a completion keeps every operand and all that is the host's. -/
theorem commandsLeaveOperandsAlone : Obligations.CommandsLeaveOperandsAlone := by
  intro i s t h
  cases exec_completion h <;> exact ⟨rfl, rfl, rfl, rfl, rfl, rfl, rfl, fun _ => rfl, rfl, rfl, rfl, rfl⟩

section

variable {i : Instr} (hc : Completion s i t)
include hc

theorem Completion.freq_eq (hclr : i ≠ .clrfreq) (hcount : i ≠ .count) : t.freq = s.freq := by
  cases hc with
  | cleared | countRange | counted | countOvf => contradiction
  | _ => rfl

theorem Completion.tree_eq (hbuild : i ≠ .build) :
    t.node = s.node ∧ t.treeRoot = s.treeRoot ∧ t.nodeCount = s.nodeCount ∧ t.nleaf = s.nleaf := by
  cases hc with
  | built | weightOvf => contradiction
  | _ => exact ⟨rfl, rfl, rfl, rfl⟩

theorem Completion.code_eq (hderive : i ≠ .derive) : t.code = s.code := by
  cases hc with
  | noTree | derived => contradiction
  | _ => rfl

theorem Completion.output_eq (henc : i ≠ .encode) (hdec : i ≠ .decode) :
    t.outLen = s.outLen ∧ t.outBits = s.outBits ∧ t.obuf = s.obuf ∧ t.draws = s.draws := by
  cases hc with
  | encodeRefused | encodeFailed | encoded | decodeRefused | decodeFailed | decoded => contradiction
  | _ => exact ⟨rfl, rfl, rfl, rfl⟩

/-- The two events that set a flag, BUILD and DERIVE, keep CODES_VALID ⇒ TREE_VALID (R33). -/
theorem Completion.codes_need_tree (h : s.codesValid = true → s.treeValid = true) :
    t.codesValid = true → t.treeValid = true := by
  cases hc with
  | cleared | counted | countOvf | built | weightOvf => exact nofun
  | derived ht => exact fun _ => ht
  | _ => exact h

end

/-- Settles O52: table by table, over the outcomes of a command. -/
theorem onlyItsCommandWritesATable : Obligations.OnlyItsCommandWritesATable := by
  intro i s t h
  have hc := exec_completion h
  refine ⟨hc.freq_eq, hc.tree_eq, hc.code_eq, fun henc hdec => ?_⟩
  obtain ⟨hlen, hbits, hobuf, hdraws⟩ := hc.output_eq henc hdec
  exact ⟨hlen, hbits, hobuf, fun _ => by rw [hobuf], hdraws⟩

/-! ### What a host step leaves unchanged -/

/-- Settles O24: no effect of a bus access is on a result. -/
theorem hostNeverWritesResults : Obligations.HostNeverWritesResults := by
  intro s
  have hs := hostStep_effect s
  generalize hostStep s = t at hs ⊢
  rcases hs with rfl | ⟨x, o, hx, -⟩
  · exact ⟨rfl, rfl, rfl, rfl, rfl, rfl, rfl, rfl, rfl, rfl, rfl⟩
  · cases hx <;> exact ⟨rfl, rfl, rfl, rfl, rfl, rfl, rfl, rfl, rfl, rfl, rfl⟩

/-! ### The validity flags (R33) -/

/-- COUNT clears both flags when it has passed its range check (R121). -/
theorem Completion.count_flags (hc : Completion s .count t) :
    if s.ibufSize < s.srcLen.toNat then t.treeValid = s.treeValid ∧ t.codesValid = s.codesValid
    else t.treeValid = false ∧ t.codesValid = false := by
  cases hc with
  | countRange hr => rw [if_pos hr]; exact ⟨rfl, rfl⟩
  | counted hr | countOvf hr => rw [if_neg hr]; exact ⟨rfl, rfl⟩

theorem Completion.derive_flags (hc : Completion s .derive t) :
    t.treeValid = s.treeValid ∧ t.codesValid = (s.codesValid || !t.err) := by
  cases hc with
  | noTree => exact ⟨rfl, (Bool.or_false _).symm⟩
  | derived => exact ⟨rfl, (Bool.or_true _).symm⟩

/-- Only a FREQ write that is performed writes the flags (R41). -/
theorem BusEffect.flags {x : Access} (hx : BusEffect x s t) :
    (t.treeValid = s.treeValid ∧ t.codesValid = s.codesValid) ∨
      (t.treeValid = false ∧ t.codesValid = false ∧
        ∃ y, x.write = true ∧ target s x = some (.freq y) ∧ s.busy = false) := by
  cases hx with
  | storesFreq y hw ht hb => exact .inr ⟨rfl, rfl, y, hw, ht, hb⟩
  | _ => exact .inl ⟨rfl, rfl⟩

theorem hostStep_flags (s : State) :
    ((hostStep s).treeValid = s.treeValid ∧ (hostStep s).codesValid = s.codesValid) ∨
      ((hostStep s).treeValid = false ∧ (hostStep s).codesValid = false ∧
        ∃ x y, x.write = true ∧ target s x = some (.freq y) ∧ s.busy = false ∧
          (s.held = some x ∨ ∃ rest, Issues s x rest)) := by
  rcases hostStep_effect s with h | ⟨x, o, he, hx⟩
  · exact .inl (by rw [h]; exact ⟨rfl, rfl⟩)
  · rcases he.flags with hf | ⟨ht, hc, y, hw, hg, hb⟩
    · exact .inl hf
    · refine .inr ⟨ht, hc, x, y, hw, hg, hb, hx.imp_right fun ⟨_, hi⟩ => hi.resolve_left ?_⟩
      rintro rfl
      cases hw

theorem stepTurn_codes_need_tree (a : Turn) (h : s.codesValid = true → s.treeValid = true)
    (hs : stepTurn a s = .next t) : t.codesValid = true → t.treeValid = true := by
  cases a with
  | host =>
    cases hs
    rcases hostStep_flags s with ⟨ht, hc⟩ | ⟨-, hc, -⟩
    · rw [ht, hc]; exact h
    · rw [hc]; exact nofun
  | engine =>
    rcases engineStep_cases hs with rfl | ⟨i, hc⟩ | rfl
    · exact h
    · exact hc.codes_need_tree h
    · exact h
  | reset => cases hs; exact nofun

/-- Settles O53: the table of R33, event by event, and the implication over every step. -/
theorem validityFlagsChangeOnlyAtTheirEvents : Obligations.ValidityFlagsChangeOnlyAtTheirEvents := by
  refine ⟨fun s t h => ?clrfreq, fun s t h => (exec_completion h).count_flags, fun s t h => ?build,
    fun s t h => (exec_completion h).derive_flags, fun s t h => ?encode, fun s t h => ?decode,
    fun s => ⟨rfl, rfl⟩, hostStep_flags, fun s t h hs => ?step⟩
  case step =>
    obtain ⟨a, r, he⟩ := step_eq_stepTurn s
    exact stepTurn_codes_need_tree (s := { s with schedule := r }) a h (he ▸ hs)
  all_goals cases exec_completion h <;> exact ⟨rfl, rfl⟩

end Sys2Proof.Machine

/-! The register map (R23, R72, R73): which accesses reach each target. -/

namespace Sys2Proof.Machine

variable {s : State} {x : Access}

/-! ### The word regions -/

/-- The register's offset divided by 4 (R23). -/
def Csr.index : Csr → Nat
  | .id => 0
  | .cmd => 1
  | .status => 2
  | .irqPend => 3
  | .irqEn => 4
  | .srcLen => 5
  | .decCount => 6
  | .outLen => 7
  | .outBits => 8
  | .treeRoot => 9
  | .nodeCount => 10
  | .nleaf => 11
  | .errPos => 12
  | .errBit => 13
  | .ibufSize => 14
  | .obufSize => 15

theorem csr_ofIndex_index (r : Csr) : Csr.ofIndex r.index = some r := by cases r <;> rfl

theorem csr_ofIndex_eq_some {n : Nat} {r : Csr} : Csr.ofIndex n = some r ↔ n = r.index := by
  constructor
  · intro h
    have hn := (csr_ofIndex_isSome n).1 (by rw [h]; rfl)
    have hinv : ∀ k < 16, (Csr.ofIndex k).map Csr.index = some k := by decide
    simpa [h, eq_comm] using hinv n hn
  · rintro rfl
    exact csr_ofIndex_index r

section Word

variable {a : Nat} (h4 : a % 4 = 0)
include h4

theorem wordTarget_eq_csr {r : Csr} : wordTarget a = some (.csr r) ↔ a = 4 * r.index := by
  simp only [wordTarget_eq_some, csr_ofIndex_eq_some, Target.csr.injEq, reduceCtorEq, and_false, or_false,
    exists_eq_right']
  omega

theorem wordTarget_eq_freq {y : Byte} : wordTarget a = some (.freq y) ↔ a = 0x400 + 4 * y.toNat := by
  simp only [wordTarget_eq_some, Target.freq.injEq, reduceCtorEq, and_false, exists_false, or_false, false_or,
    BitVec.toNat_eq, BitVec.toNat_ofNat]
  omega

theorem wordTarget_eq_node {i : NodeIx} {w : Fin 4} :
    wordTarget a = some (.node i w) ↔ a = 0x2000 + 16 * i.val + 4 * w.val := by
  simp only [wordTarget_eq_some, Target.node.injEq, reduceCtorEq, and_false, exists_false, or_false, false_or,
    Fin.ext_iff, Fin.val_ofNat]
  omega

theorem wordTarget_eq_code {y : Byte} {w : Fin 16} :
    wordTarget a = some (.code y w) ↔ a = 0x4000 + 64 * y.toNat + 4 * w.val := by
  simp only [wordTarget_eq_some, Target.code.injEq, reduceCtorEq, and_false, exists_false, false_or,
    BitVec.toNat_eq, BitVec.toNat_ofNat, Fin.ext_iff, Fin.val_ofNat]
  omega

end Word

/-! ### Every target -/

/-- A target that is no byte of a buffer is reached by 4-byte accesses alone, at its word (R72). -/
theorem target_eq_some_word {t : Target} (ht : ∀ k, t ≠ .ibuf k ∧ t ≠ .obuf k) :
    target s x = some t ↔ x.size = .b4 ∧ x.addr.toNat % 4 = 0 ∧ wordTarget x.addr.toNat = some t := by
  rw [target_eq_some]
  constructor
  · rintro ⟨h0, ⟨k, rfl, -⟩ | ⟨k, rfl, -⟩ | ⟨h4, hw⟩⟩
    · exact absurd rfl (ht k).1
    · exact absurd rfl (ht k).2
    · rw [h4] at h0
      exact ⟨h4, h0, hw⟩
  · rintro ⟨h4, h0, hw⟩
    exact ⟨by rw [h4]; exact h0, .inr (.inr ⟨h4, hw⟩)⟩

/-- A word of the register region or of a window is reached at its own offset. -/
theorem target_eq_some_offset {t : Target} {o : Nat} (ht : ∀ k, t ≠ .ibuf k ∧ t ≠ .obuf k) (ho : o % 4 = 0)
    (hw : ∀ {a : Nat}, a % 4 = 0 → (wordTarget a = some t ↔ a = o)) :
    target s x = some t ↔ x.size = .b4 ∧ x.addr.toNat = o := by
  rw [target_eq_some_word ht]
  refine and_congr_right fun _ => ⟨fun ⟨h4, h⟩ => (hw h4).1 h, fun h => ?_⟩
  have h4 : x.addr.toNat % 4 = 0 := h ▸ ho
  exact ⟨h4, (hw h4).2 h⟩

theorem target_eq_csr {r : Csr} : target s x = some (.csr r) ↔ x.size = .b4 ∧ x.addr.toNat = 4 * r.index :=
  target_eq_some_offset (by simp) (by omega) fun h4 => wordTarget_eq_csr h4

theorem target_eq_freq {y : Byte} :
    target s x = some (.freq y) ↔ x.size = .b4 ∧ x.addr.toNat = 0x400 + 4 * y.toNat :=
  target_eq_some_offset (by simp) (by omega) fun h4 => wordTarget_eq_freq h4

theorem target_eq_node {i : NodeIx} {w : Fin 4} :
    target s x = some (.node i w) ↔ x.size = .b4 ∧ x.addr.toNat = 0x2000 + 16 * i.val + 4 * w.val :=
  target_eq_some_offset (by simp) (by omega) fun h4 => wordTarget_eq_node h4

theorem target_eq_code {y : Byte} {w : Fin 16} :
    target s x = some (.code y w) ↔ x.size = .b4 ∧ x.addr.toNat = 0x4000 + 64 * y.toNat + 4 * w.val :=
  target_eq_some_offset (by simp) (by omega) fun h4 => wordTarget_eq_code h4

theorem target_eq_ibuf {k : Nat} : target s x = some (.ibuf k) ↔
    x.addr.toNat = 0x1000_0000 + k ∧ x.addr.toNat % x.size.bytes = 0 ∧ k + x.size.bytes ≤ s.ibufSize := by
  simp only [target_eq_some, (wordTarget_ne_buffer _ _).1, Target.ibuf.injEq, reduceCtorEq, false_and, exists_false,
    and_false, or_false, exists_eq_left']
  tauto

theorem target_eq_obuf {k : Nat} : target s x = some (.obuf k) ↔
    x.addr.toNat = 0x2000_0000 + k ∧ x.addr.toNat % x.size.bytes = 0 ∧ k + x.size.bytes ≤ s.obufSize := by
  simp only [target_eq_some, (wordTarget_ne_buffer _ _).2, Target.obuf.injEq, reduceCtorEq, false_and, exists_false,
    and_false, or_false, false_or, exists_eq_left']
  tauto

/-! ### The last byte of a buffer -/

theorem target_last_ibuf (s : State) (wr : Bool) (d : Word) :
    target s ⟨0x1000_0000 + BitVec.ofNat 32 (s.ibufSize - 1), .b1, wr, d⟩ = some (.ibuf (s.ibufSize - 1)) := by
  have hpos := ibufSize_pos s
  have hle := ibufSize_le s
  refine target_eq_ibuf.2 ⟨?_, Nat.mod_one _, by simp only [Size.bytes]; omega⟩
  simp only [BitVec.toNat_add, BitVec.toNat_ofNat, BitVec.reduceToNat]
  omega

theorem target_last_obuf (s : State) (wr : Bool) (d : Word) :
    target s ⟨0x2000_0000 + BitVec.ofNat 32 (s.obufSize - 1), .b1, wr, d⟩ = some (.obuf (s.obufSize - 1)) := by
  have hpos := obufSize_pos s
  have hle := obufSize_le s
  refine target_eq_obuf.2 ⟨?_, Nat.mod_one _, by simp only [Size.bytes]; omega⟩
  simp only [BitVec.toNat_add, BitVec.toNat_ofNat, BitVec.reduceToNat]
  omega

/-- Settles O12: the map row by row, then the ends of each window by the rows. -/
theorem mapNamesEachTarget : Obligations.MapNamesEachTarget := by
  refine ⟨fun s x => ⟨fun r => ?_, fun y => target_eq_freq, fun i w => target_eq_node, fun y w => target_eq_code,
    fun k => target_eq_ibuf, fun k => target_eq_obuf⟩, fun s wr d => ?_⟩
  · rw [target_eq_csr]
    refine and_congr_right fun _ => ?_
    cases r <;> rw [BitVec.toNat_eq] <;> rfl
  · exact ⟨target_eq_freq.2 ⟨rfl, rfl⟩, target_eq_freq.2 ⟨rfl, rfl⟩, target_eq_node.2 ⟨rfl, rfl⟩,
      target_eq_node.2 ⟨rfl, rfl⟩, target_eq_code.2 ⟨rfl, rfl⟩, target_eq_code.2 ⟨rfl, rfl⟩,
      target_eq_ibuf.2 ⟨rfl, Nat.mod_one _, ibufSize_pos s⟩, target_eq_obuf.2 ⟨rfl, Nat.mod_one _, obufSize_pos s⟩,
      target_last_ibuf s wr d, target_last_obuf s wr d⟩

end Sys2Proof.Machine

/-! What each register answers and stores, whose turn a step is, the STATUS word, and the state after reset
(10_state.md). -/

namespace Sys2Proof.Machine

variable {s : State}

/-! ### Reads (R26, R78) -/

/-- A read whose target answers changes the host's own fields only. -/
theorem hostStep_read_eq {x : Access} {rest : List HostOp} {g : Target} (h : Issues s x rest) (hw : x.write = false)
    (hg : target s x = some g) (hp : s.busy = false ∨ g.isHeld = false) :
    hostStep s = { s with hostOps := rest, answers := ⟨.okay, some (readTarget s x.size g)⟩ :: s.answers } := by
  rw [hostStep_read h hg hw hp]
  cases g with
  | csr r => cases r <;> rfl
  | _ => rfl

/-- Settles O13: a target in the list is one that is never held. -/
theorem readsHaveNoSideEffect : Obligations.ReadsHaveNoSideEffect := by
  intro s x g rest h hw hg hp
  refine hostStep_read_eq h hw hg (hp.imp_right ?_)
  rintro (rfl | rfl | rfl | rfl | rfl | rfl) <;> rfl

/-- A register answers the word `readCsr` gives (R23). -/
theorem readsAs_csr (r : Csr) {a : BitVec 32} (ha : a.toNat = 4 * r.index)
    (hp : s.busy = false ∨ (Target.csr r).isHeld = false) : ReadsAs s a (readCsr s r) :=
  fun _ _ h => hostStep_read_eq h rfl (target_eq_csr.2 ⟨rfl, ha⟩) hp

theorem readsAs_freq {y : Byte} {a : BitVec 32} (ha : a.toNat = 0x400 + 4 * y.toNat) (hb : s.busy = false) :
    ReadsAs s a (tableGet s.freq y) :=
  fun _ _ h => hostStep_read_eq h rfl (target_eq_freq.2 ⟨rfl, ha⟩) (.inl hb)

theorem readCsr_ibufSize_toNat (s : State) : (readCsr s .ibufSize).toNat = 2 ^ s.ibufLog2.val := by
  have hle := ibufSize_le s
  exact Nat.mod_eq_of_lt (by omega)

theorem readCsr_obufSize_toNat (s : State) : (readCsr s .obufSize).toNat = 2 ^ s.obufLog2.val := by
  have hle := obufSize_le s
  exact Nat.mod_eq_of_lt (by omega)

/-- TREE_ROOT reads as the root's index (R43). -/
theorem readCsr_treeRoot_some {i : NodeIx} (h : s.treeRoot = some i) :
    readCsr s .treeRoot = BitVec.ofNat 32 i.val := by
  simp only [readCsr, h, linkBits]
  exact BitVec.setWidth_ofNat_of_le_of_lt (by decide) (by omega)

/-- Settles O14: each register at its offset, the unheld ones in every state. -/
theorem registersReadTheirValues : Obligations.RegistersReadTheirValues := by
  intro s
  refine ⟨⟨readsAs_csr .id rfl (.inr rfl), readsAs_csr .status rfl (.inr rfl),
    ⟨_, readsAs_csr .irqPend rfl (.inr rfl), irqPendWord_fields s⟩,
    ⟨_, readsAs_csr .irqEn rfl (.inr rfl), irqEnWord_fields s⟩,
    ⟨_, readsAs_csr .ibufSize rfl (.inr rfl), readCsr_ibufSize_toNat s⟩,
    ⟨_, readsAs_csr .obufSize rfl (.inr rfl), readCsr_obufSize_toNat s⟩⟩, fun hb => ?_⟩
  refine ⟨readsAs_csr .cmd rfl (.inl hb), readsAs_csr .srcLen rfl (.inl hb), readsAs_csr .decCount rfl (.inl hb),
    readsAs_csr .outLen rfl (.inl hb), readsAs_csr .outBits rfl (.inl hb), fun h => ?noRoot, fun i h => ?root,
    ⟨_, readsAs_csr .nodeCount rfl (.inl hb), BitVec.toNat_setWidth_of_le (by decide)⟩,
    ⟨_, readsAs_csr .nleaf rfl (.inl hb), BitVec.toNat_setWidth_of_le (by decide)⟩,
    readsAs_csr .errPos rfl (.inl hb), readsAs_csr .errBit rfl (.inl hb), fun y a ha => readsAs_freq ha hb⟩
  case noRoot =>
    have hr := readsAs_csr .treeRoot (a := 0x24) rfl (.inl hb)
    rwa [readCsr, h] at hr
  case root => exact readCsr_treeRoot_some h ▸ readsAs_csr .treeRoot rfl (.inl hb)

/-! ### Writes -/

/-- A write that reaches its target. -/
theorem hostStep_write_eq {x : Access} {rest : List HostOp} {g : Target} (h : Issues s x rest) (hw : x.write = true)
    (hg : target s x = some g) (hp : s.busy = false ∨ g.isHeld = false) :
    hostStep s = answer ⟨.okay, none⟩ (writeTarget x.size x.wdata { s with hostOps := rest } g) := by
  rw [hostStep_perform h hg hp, perform, if_pos hw]

/-- `w32` to a register's offset. -/
theorem hostStep_writeCsr (r : Csr) {a : BitVec 32} (ha : a.toNat = 4 * r.index) {w : Word} {rest : List HostOp}
    (hh : s.held = none) (ho : s.hostOps = .w32 a w :: rest) (hp : s.busy = false ∨ (Target.csr r).isHeld = false) :
    hostStep s = answer ⟨.okay, none⟩ (writeCsr w { s with hostOps := rest } r) :=
  hostStep_write_eq ⟨hh, ho⟩ rfl (target_eq_csr.2 ⟨rfl, ha⟩) hp

/-- Settles O8: a CMD write is performed, or held while a word is pending. -/
theorem cmdWriteIsAccepted : Obligations.CmdWriteIsAccepted := by
  refine fun s w rest hh ho => ⟨fun hp => ?_, fun hp => ?_⟩
  · exact hostStep_writeCsr .cmd rfl hh ho (.inl ((busy_eq_false s).2 hp))
  · exact hostStep_waits ⟨hh, ho⟩ (t := .csr .cmd) (target_eq_csr.2 ⟨rfl, rfl⟩) (Option.isSome_iff_ne_none.2 hp) rfl

/-- Settles O20: each of the four registers stores what R35 to R38 say. -/
theorem registerWritesStore : Obligations.RegisterWritesStore :=
  fun _ _ _ hh => ⟨fun ho => hostStep_writeCsr .irqPend rfl hh ho (.inr rfl),
    fun ho => hostStep_writeCsr .irqEn rfl hh ho (.inr rfl),
    fun ho hb => hostStep_writeCsr .srcLen rfl hh ho (.inl hb),
    fun ho hb => hostStep_writeCsr .decCount rfl hh ho (.inl hb)⟩

/-- The targets a host write does not change (R25). -/
def Target.IsReadOnly (g : Target) : Prop :=
  ∀ (size : Size) (w : Word) (s : State), writeTarget size w s g = s

theorem hostStep_write_readOnly {x : Access} {rest : List HostOp} {g : Target} (hro : g.IsReadOnly)
    (h : Issues s x rest) (hw : x.write = true) (hg : target s x = some g) (hp : s.busy = false ∨ g.isHeld = false) :
    hostStep s = { s with hostOps := rest, answers := ⟨.okay, none⟩ :: s.answers } := by
  rw [hostStep_write_eq h hw hg hp, hro]
  rfl

/-- Settles O18: a write to a read-only target that answers is ignored, and CMD reads as 0. -/
theorem readOnlyWritesAreIgnored : Obligations.ReadOnlyWritesAreIgnored := by
  refine ⟨fun s x g rest h hw hg hro => ?_, fun s hb => readsAs_csr .cmd rfl (.inl hb)⟩
  rcases hro with hro | ⟨hb, hro⟩
  · have hg' : g.IsReadOnly ∧ g.isHeld = false := by
      rcases hro with rfl | rfl | rfl | rfl <;> exact ⟨fun _ _ _ => rfl, rfl⟩
    exact hostStep_write_readOnly hg'.1 h hw hg (.inr hg'.2)
  · have hg' : g.IsReadOnly := by
      rcases hro with rfl | rfl | rfl | rfl | rfl | rfl | rfl | ⟨i, w, rfl⟩ | ⟨y, w, rfl⟩ <;> exact fun _ _ _ => rfl
    exact hostStep_write_readOnly hg' h hw hg (.inl hb)

/-- The address of FREQ[y] as `setfreq` computes it (R111). -/
theorem setfreq_addr_toNat (y : Byte) : (0x0400 + 4 * y.setWidth 32 : BitVec 32).toNat = 0x400 + 4 * y.toNat := by
  bv_omega

/-- Settles O19: the write reaches FREQ[y], whatever it held. -/
theorem freqWriteInvalidates : Obligations.FreqWriteInvalidates := by
  intro s y v rest hh ho hb
  refine ⟨tableSet s.freq y v, ?_, tableGet_tableSet_self _ _ _, fun z hz => tableGet_tableSet_of_ne _ _ hz.symm⟩
  exact hostStep_write_eq ⟨hh, ho⟩ rfl (target_eq_freq.2 ⟨rfl, setfreq_addr_toNat y⟩) (.inl hb)

/-! ### Turns (R20, R249) -/

theorem fairTurn_of_pending {w : Word} (h : s.pending = some w) : s.fairTurn = .engine := by
  simp [State.fairTurn, State.busy, h]

theorem fairTurn_of_idle (h : s.pending = none) : s.fairTurn = .host := by
  simp [State.fairTurn, State.busy, h]

theorem engineStep_legal {w : Word} {i : Instr} (hd : decode w = .ok i) (h : s.pending = some w) :
    engineStep s = exec i s := by
  rw [engineStep_pending s h, completeWord_ok s hd]

/-- Settles O4: the engine's turn, in its own turn and as the fair turn, completes the decoded command. -/
theorem stepRunsThePendingCommand : Obligations.StepRunsThePendingCommand := by
  refine fun s w i hd => ⟨fun hp hs => ?_, fun rest hp hs => ?_, ?_⟩
  · rw [step_of_nil hs, fairTurn_of_pending hp]
    exact engineStep_legal hd hp
  · rw [step_of_cons hs]
    exact engineStep_legal hd hp
  · have hw : BitVec.ofNat 32 (w.toNat % 2 ^ 32) = w := by
      rw [Nat.mod_eq_of_lt w.isLt, BitVec.ofNat_toNat, BitVec.setWidth_eq]
    rw [State.withFetchWord, placeCommand, hw, step_of_cons rfl]
    exact engineStep_legal (s := accept w s) hd rfl

/-- Settles O5: the turn the schedule names, and the host's when it has ended. -/
theorem stepIsTheTurnOfOneAgent : Obligations.StepIsTheTurnOfOneAgent := by
  refine fun s => ⟨fun rest hs => step_of_cons hs, fun rest hs => step_of_cons hs, fun rest hs hp => ?_,
    fun hs hp => ?_⟩
  · rw [step_of_cons hs]
    exact engineStep_idle hp
  · rw [step_of_nil hs, fairTurn_of_idle hp]
    rfl

/-! ### STATUS and reset (R29, R53) -/

/-- The fields of several bits, and the reserved ones: each is one operand of the concatenation. -/
theorem statusWord_extract (s : State) :
    s.statusWord.extractLsb' 5 3 = 0 ∧ s.statusWord.extractLsb' 8 4 = s.errCode ∧
      s.statusWord.extractLsb' 12 4 = s.lastOp ∧ s.statusWord.extractLsb' 16 16 = 0 := by
  refine ⟨?_, ?_, ?_, ?_⟩ <;> simp (disch := decide) only [State.statusWord, BitVec.extractLsb'_append_eq_of_le,
    BitVec.extractLsb'_append_eq_of_add_le, Nat.reduceSub, BitVec.extractLsb'_eq_self] <;> rfl

/-- Settles O15: the fields of the STATUS word, and its zero bits. -/
theorem statusWordFields : Obligations.StatusWordFields :=
  fun s => ⟨statusWord_busy s, statusWord_done s, statusWord_err s, statusWord_treeValid s, statusWord_codesValid s,
    statusWord_extract s⟩

/-- Settles O26: by evaluation of the one state. -/
theorem resetStateValues : Obligations.ResetStateValues :=
  ⟨rfl, rfl, rfl, rfl, rfl, rfl, rfl, rfl, rfl, rfl, rfl, rfl, rfl, rfl, rfl, rfl, rfl⟩

end Sys2Proof.Machine

/-! Host accesses to memory (20_memory.md): which are held, which answer at once or with ERROR, the byte order of the
buffers, and what the host can change while a command is pending. -/

namespace Sys2Proof.Machine

variable {s : State}

/-! ### Held accesses (R80) -/

/-- A held access stays held while BUSY = 1, and the host's step does nothing. -/
theorem hostStep_eq_self_of_held {x : Access} {g : Target} (hh : s.held = some x) (hg : target s x = some g)
    (hb : s.busy = true) (hheld : g.isHeld = true) : hostStep s = s := by
  have hg' : target { s with held := none } x = some g := hg ▸ target_congr rfl rfl x
  rw [hostStep_held hh, issue_held hg' hb hheld]
  simp only [← hh]

/-- A held access is issued again as if it were the next of the program. -/
theorem hostStep_of_held {x : Access} (hh : s.held = some x) :
    hostStep s = hostStep { s with held := none, hostOps := .access x :: s.hostOps } := by
  rw [hostStep_held hh, hostStep_issue ⟨rfl, rfl⟩]

/-- Settles O9: every target in the list is a held one; the access is then kept by each further step, and issued again
once BUSY = 0. -/
theorem heldAccessWaitsForCompletion : Obligations.HeldAccessWaitsForCompletion := by
  refine ⟨fun s x g rest h hg hlist hb => ?_, fun s x hh _ => hostStep_of_held hh⟩
  have hheld : g.isHeld = true := by
    rcases hlist with rfl | rfl | rfl | rfl | rfl | rfl | rfl | rfl | rfl | rfl | ⟨y, rfl⟩ | ⟨i, w, rfl⟩ | ⟨y, w, rfl⟩ |
      ⟨k, rfl⟩ | ⟨k, rfl⟩ <;> rfl
  have hg' : target { s with hostOps := rest, held := some x } x = some g := hg ▸ target_congr rfl rfl x
  exact ⟨hostStep_waits h hg hb hheld, hostStep_eq_self_of_held rfl hg' hb hheld⟩

/-! ### Accesses that are never held (R81) -/

/-- The six registers that answer in every state. -/
theorem Target.isHeld_eq_false {g : Target} : g.isHeld = false ↔
    g = .csr .id ∨ g = .csr .status ∨ g = .csr .irqPend ∨ g = .csr .irqEn ∨ g = .csr .ibufSize ∨ g = .csr .obufSize := by
  cases g with
  | csr r => cases r <;> simp [Target.isHeld]
  | _ => simp [Target.isHeld]

@[simp] theorem writeTarget_held (size : Size) (w : Word) (s : State) (g : Target) :
    (writeTarget size w s g).held = s.held := by
  cases g with
  | csr r => cases r <;> rfl
  | _ => rfl

@[simp] theorem perform_held (x : Access) (g : Target) (s : State) : (perform x g s).held = s.held := by
  rw [perform]
  split
  · exact writeTarget_held ..
  · rfl

/-- Settles O10: an access to an unheld register is performed at once, and the invariant clears what a STATUS read
shows of the last command. -/
theorem unheldRegistersAnswerAtOnce : Obligations.UnheldRegistersAnswerAtOnce := by
  refine ⟨fun s x g rest h hg hlist => ?_, fun s rest hinv hh ho hb => ?_⟩
  · rw [hostStep_perform h hg (.inr (Target.isHeld_eq_false.2 hlist)), perform_held]
    exact ⟨h.1, perform_answers x g _⟩
  · obtain ⟨w, hw⟩ := Option.isSome_iff_exists.1 hb
    obtain ⟨hdone, herr, hcode, -⟩ := hinv.busy_clear w hw
    obtain ⟨-, hcodeField, -⟩ := statusWord_extract s
    refine ⟨s.statusWord, ?_, (statusWord_busy s).trans hb, (statusWord_done s).trans hdone,
      (statusWord_err s).trans herr, hcodeField.trans hcode, statusWord_treeValid s, statusWord_codesValid s⟩
    rw [readsAs_csr .status rfl (.inr rfl) _ rest ⟨hh, ho⟩]
    rfl

/-! ### The ERROR response (R74, R75) -/

/-- The ERROR response changes the host's own fields only. -/
theorem answerError_eq (x : Access) (s : State) :
    ∃ d n, answerError x s = { s with answers := ⟨.error, d⟩ :: s.answers, draws := n } := by
  rw [answerError]
  split
  · exact ⟨none, s.draws, rfl⟩
  · exact ⟨some (drawnData s.draws x.size), s.draws + 1, rfl⟩

/-- Settles O11: an access has no target exactly when it is unmapped; with one it waits or is performed. -/
theorem errorResponseExactlyWhenUnmapped : Obligations.ErrorResponseExactlyWhenUnmapped := by
  refine fun s x rest h => ⟨fun hx => ?_, fun hx => ?_⟩
  · rw [hostStep_error h ((target_eq_none s x).2 hx)]
    exact answerError_eq x _
  · obtain ⟨g, hg⟩ := Option.isSome_iff_exists.1 ((target_isSome s x).2 hx)
    by_cases hw : s.busy = true ∧ g.isHeld = true
    · exact .inl ⟨hw.1, hostStep_waits h hg hw.1 hw.2⟩
    · right
      rw [hostStep_perform h hg (by rwa [not_and_or, Bool.not_eq_true, Bool.not_eq_true] at hw)]
      exact perform_answers x g _

/-! ### The byte order of the buffers (R71) -/

/-- Byte `j` of a read of 2 or 4 bytes is the one at `k + j`: it is one operand of the concatenation. -/
theorem extractLsb'_readBytes (m : Memory) (k : Nat) :
    (∀ j < 2, (m.read (k + 1) ++ m.read k).extractLsb' (8 * j) 8 = m.read (k + j)) ∧
    ∀ j < 4, (m.read (k + 3) ++ m.read (k + 2) ++ m.read (k + 1) ++ m.read k).extractLsb' (8 * j) 8 = m.read (k + j) := by
  refine ⟨fun j hj => ?_, fun j hj => ?_⟩ <;> interval_cases j <;> simp (disch := decide) only
    [BitVec.extractLsb'_append_eq_of_le, BitVec.extractLsb'_append_eq_of_add_le, Nat.reduceMul, Nat.reduceSub,
      BitVec.extractLsb'_eq_self, Nat.add_zero]

/-- A read of a buffer answers `readData` of its bytes. -/
theorem hostStep_read_buffer {x : Access} {m : Memory} {k : Nat} {rest : List HostOp} (h : Issues s x rest)
    (hw : x.write = false) (hb : s.busy = false)
    (hm : (target s x = some (.ibuf k) ∧ m = s.ibuf) ∨ (target s x = some (.obuf k) ∧ m = s.obuf)) :
    (hostStep s).answers = ⟨.okay, some (m.readData k x.size)⟩ :: s.answers := by
  rcases hm with ⟨hg, rfl⟩ | ⟨hg, rfl⟩ <;> rw [hostStep_read_eq h hw hg (.inl hb)] <;> rfl

/-- Settles O21: a write stores the low bytes of wdata in order, and a read of each size puts them together. -/
theorem bufferAccessesAreLittleEndian : Obligations.BufferAccessesAreLittleEndian := by
  refine ⟨fun s x k rest h hw hb => ⟨fun hg => ?_, fun hg => ?_⟩, fun s x m k rest h hw hb hm => ?_⟩
  · exact ⟨_, hostStep_write_eq h hw hg (.inl hb), fun j => read_writeBytes_wordBytes s.ibuf k j _ _⟩
  · exact ⟨_, hostStep_write_eq h hw hg (.inl hb), fun j => read_writeBytes_wordBytes s.obuf k j _ _⟩
  · rw [hostStep_read_buffer h hw hb hm]
    refine ⟨fun hs => ?_, fun hs => ?_, fun hs => ?_⟩ <;> rw [hs]
    · rfl
    · exact ⟨_, rfl, (extractLsb'_readBytes m k).1⟩
    · exact ⟨_, rfl, (extractLsb'_readBytes m k).2⟩

/-! ### The host while a command is pending (R83, R250) -/

/-- A write to a register that is never held stores in IRQ_PEND or IRQ_EN, or is ignored (R25, R35, R36). -/
theorem writeTarget_unheld {g : Target} (hg : g.isHeld = false) (size : Size) (w : Word) (s : State) :
    ∃ dp ep de ee, writeTarget size w s g = { s with donePend := dp, errPend := ep, doneEn := de, errEn := ee } := by
  rcases Target.isHeld_eq_false.1 hg with rfl | rfl | rfl | rfl | rfl | rfl <;> exact ⟨_, _, _, _, rfl⟩

theorem perform_unheld {g : Target} (hg : g.isHeld = false) (x : Access) (s : State) :
    ∃ dp ep de ee a, perform x g s =
      { s with donePend := dp, errPend := ep, doneEn := de, errEn := ee, answers := a } := by
  rw [perform]
  split
  · obtain ⟨dp, ep, de, ee, h⟩ := writeTarget_unheld hg x.size x.wdata s
    exact ⟨dp, ep, de, ee, _, by rw [h]; rfl⟩
  · exact ⟨_, _, _, _, _, rfl⟩

/-- While BUSY = 1 an access gets the ERROR response, is held, or reaches a register that is never held. -/
theorem issue_busy (hb : s.busy = true) (x : Access) :
    ∃ dp ep de ee y a n, issue x s = { s with
      donePend := dp, errPend := ep, doneEn := de, errEn := ee, held := y, answers := a, draws := n } := by
  rcases issue_cases x s with ⟨-, h⟩ | ⟨g, -, ⟨-, -, h⟩ | ⟨hp, h⟩⟩ <;> rw [h]
  · obtain ⟨d, n, he⟩ := answerError_eq x s
    exact ⟨_, _, _, _, _, _, n, he⟩
  · exact ⟨_, _, _, _, some x, _, _, rfl⟩
  · have hg : g.isHeld = false := hp.resolve_left (by simp [hb])
    obtain ⟨dp, ep, de, ee, a, he⟩ := perform_unheld hg x s
    exact ⟨dp, ep, de, ee, _, a, _, he⟩

/-- Settles O23: a host step does nothing or issues one access, which finds BUSY = 1. -/
theorem hostCannotDisturbAPendingCommand : Obligations.HostCannotDisturbAPendingCommand := by
  intro s hb
  rcases hostStep_cases s with h | ⟨x, o, h, -⟩ <;> rw [h]
  · exact ⟨_, _, _, _, _, _, _, _, rfl⟩
  · obtain ⟨dp, ep, de, ee, y, a, n, he⟩ := issue_busy (s := { s with held := none, hostOps := o }) hb x
    exact ⟨dp, ep, de, ee, y, o, a, n, he⟩

end Sys2Proof.Machine

/-! The command words (R100 to R102), an illegal word's completion, the `wait` loop, and the words of the NODE and CODE
windows (30_encoding.md). -/

namespace Sys2Proof.Machine

variable {s : State}

/-! ### The opcode map (R101) -/

/-- Each command has one encoding. -/
theorem decode_eq_ok_iff_eq_encode (w : Word) (i : Instr) : decode w = .ok i ↔ w = encode i := by
  constructor
  · intro h
    obtain ⟨hrsv, hop⟩ := (decode_eq_ok_iff w i).1 h
    rw [← toWord_ofWord w, encode, ← hrsv, ← hop]
  · rintro rfl
    exact decode_encode i

theorem exists_decodeOp_eq_some_iff (op : BitVec 4) : (∃ i, decodeOp op = some i) ↔ 1 ≤ op.toNat ∧ op.toNat ≤ 6 := by
  rw [← Option.isSome_iff_exists, Option.isSome_iff_ne_none, ne_eq, decodeOp_eq_none_iff, not_not]

theorem exists_decode_eq_ok_iff (w : Word) : (∃ i, decode w = .ok i) ↔
    (Cmd32.ofWord w).rsv = 0 ∧ 1 ≤ (Cmd32.ofWord w).op.toNat ∧ (Cmd32.ofWord w).op.toNat ≤ 6 := by
  simp only [decode_eq_ok_iff, ← decodeOp_eq_some_iff, exists_and_left, exists_decodeOp_eq_some_iff]

/-- Settles O1: a word and its two fields determine each other, and the listed OPs are the commands'. -/
theorem wordIsLegalExactlyAsTheMapSays : Obligations.WordIsLegalExactlyAsTheMapSays :=
  ⟨⟨rfl, rfl, rfl, rfl, rfl, rfl⟩, decode_eq_ok_iff_eq_encode, exists_decode_eq_ok_iff⟩

/-- Settles O2: by evaluation of the nine words. -/
theorem writtenOutWordsDecode : Obligations.WrittenOutWordsDecode :=
  ⟨rfl, rfl, rfl, rfl, rfl, rfl, rfl, rfl, rfl⟩

/-! ### Illegal words (R102) -/

theorem decode_eq_reservedBits_iff (w : Word) : decode w = .error .reservedBits ↔ (Cmd32.ofWord w).rsv ≠ 0 := by
  simp [decode_eq_error_iff]

theorem decode_eq_opcode_iff (w : Word) : decode w = .error .opcode ↔
    (Cmd32.ofWord w).rsv = 0 ∧ ((Cmd32.ofWord w).op.toNat = 0 ∨ 7 ≤ (Cmd32.ofWord w).op.toNat) := by
  simp only [decode_eq_error_iff, decodeOp_eq_none_iff, reduceCtorEq, false_and, false_or, true_and]
  refine and_congr_right fun _ => ?_
  omega

/-- Settles O3: the reserved bits are looked at first, then OP. -/
theorem rejectionNamesTheField : Obligations.RejectionNamesTheField :=
  fun w => ⟨decode_eq_reservedBits_iff w, decode_eq_opcode_iff w⟩

theorem exists_decode_eq_error {w : Word} (h : (Cmd32.ofWord w).rsv ≠ 0 ∨ (Cmd32.ofWord w).op.toNat = 0 ∨
    7 ≤ (Cmd32.ofWord w).op.toNat) : ∃ r, decode w = .error r := by
  by_cases hrsv : (Cmd32.ofWord w).rsv = 0
  · exact ⟨.opcode, (decode_eq_opcode_iff w).2 ⟨hrsv, h.resolve_left (not_not.2 hrsv)⟩⟩
  · exact ⟨.reservedBits, (decode_eq_reservedBits_iff w).2 hrsv⟩

theorem engineStep_illegal {w : Word} {r : Reject} (hd : decode w = .error r) (h : s.pending = some w) :
    engineStep s = .next (completedErr CmdError.illCmd.code 0 0 s) := by
  rw [engineStep_pending s h, completeWord_illegal s hd]
  rfl

/-- Settles O7: acceptance does not look at the word, and an illegal one raises ILL_CMD at the engine's turn. -/
theorem illegalWordCompletesWithIllCmd : Obligations.IllegalWordCompletesWithIllCmd := by
  refine fun w hw => ⟨fun s rest hh ho hp => (cmdWriteIsAccepted s w rest hh ho).1 hp, fun s rest hp hs => ?_⟩
  obtain ⟨r, hd⟩ := exists_decode_eq_error hw
  rw [step_of_cons hs]
  exact engineStep_illegal (s := { s with schedule := rest }) hd hp

/-! ### `wait` (R111) -/

/-- `wait` polls STATUS, and is next again while BUSY = 1. -/
theorem hostStep_wait {rest : List HostOp} (hh : s.held = none) (ho : s.hostOps = .wait :: rest) :
    hostStep s = issue statusRead { s with hostOps := if s.busy then s.hostOps else rest } := by
  by_cases hb : s.busy = true
  · rw [if_pos hb]
    change hostStep s = issue statusRead s
    simp only [hostStep, hh, ho, if_pos hb]
  · rw [if_neg hb]
    simp only [hostStep, hh, ho, if_neg hb]

theorem issue_statusRead (s : State) : issue statusRead s = answer ⟨.okay, some (.b4 s.statusWord)⟩ s :=
  issue_perform (target_statusRead s) (.inr rfl)

/-- Settles O6: the poll is never held, and bit 0 of the word it reads is BUSY. -/
theorem waitPollsWhileBusy : Obligations.WaitPollsWhileBusy := by
  intro s rest hh ho
  rw [hostStep_wait hh ho, issue_statusRead, statusWord_busy]
  rfl

/-! ### The windows' words (R106, R107) -/

theorem readsAs_node {i : NodeIx} {w : Fin 4} {a : BitVec 32} (ha : a.toNat = 0x2000 + 16 * i.val + 4 * w.val)
    (hb : s.busy = false) : ReadsAs s a (s.node[i].word w) :=
  fun _ _ h => hostStep_read_eq h rfl (target_eq_node.2 ⟨rfl, ha⟩) (.inl hb)

theorem readsAs_code {y : Byte} {w : Fin 16} {a : BitVec 32} (ha : a.toNat = 0x4000 + 64 * y.toNat + 4 * w.val)
    (hb : s.busy = false) : ReadsAs s a (codeWord (tableGet s.code y) w) :=
  fun _ _ h => hostStep_read_eq h rfl (target_eq_code.2 ⟨rfl, ha⟩) (.inl hb)

/-- What `r32` is answered. -/
theorem ReadsAs.r32_answers {a : BitVec 32} {v : Word} (h : ReadsAs s a v) {rest : List HostOp} (hh : s.held = none)
    (ho : s.hostOps = .r32 a :: rest) : (hostStep s).answers = ⟨.okay, some (.b4 v)⟩ :: s.answers := by
  rw [h 0 rest ⟨hh, ho⟩]

/-- A link is its node's index, or NONE (R106). -/
theorem linkBits_eq_elim (l : Option NodeIx) : linkBits l = l.elim 0x1FF fun c => BitVec.ofNat 9 c.val := by
  cases l <;> rfl

theorem nodeWord_one_fields (n : Node) : (n.word 1).getLsbD 31 = n.internal ∧ (n.word 1).extractLsb' 0 8 = n.sym ∧
    (n.word 1).extractLsb' 8 23 = 0 := by
  refine ⟨?_, ?_, ?_⟩
  · simp only [Node.word, BitVec.getLsbD_append]
    simp
  all_goals
    simp (disch := decide) only [Node.word, BitVec.extractLsb'_append_eq_of_le, BitVec.extractLsb'_append_eq_of_add_le,
      Nat.reduceSub, BitVec.extractLsb'_eq_self]
    <;> rfl

theorem nodeWord_two_fields (n : Node) :
    (n.word 2).extractLsb' 0 9 = linkBits n.left ∧ (n.word 2).extractLsb' 9 7 = 0 ∧
      (n.word 2).extractLsb' 16 9 = linkBits n.right ∧ (n.word 2).extractLsb' 25 7 = 0 := by
  refine ⟨?_, ?_, ?_, ?_⟩ <;> simp (disch := decide) only [Node.word, BitVec.extractLsb'_append_eq_of_le,
    BitVec.extractLsb'_append_eq_of_add_le, Nat.reduceSub, BitVec.extractLsb'_eq_self] <;> rfl

/-- Settles O16: the window answers `Node.word`, whose fields are operands of a concatenation. -/
theorem nodeWindowReadsTheEntry : Obligations.NodeWindowReadsTheEntry := by
  intro s i a w ha
  refine ⟨s.node[i].word w, fun rest hh ho hb => (readsAs_node ha hb).r32_answers hh ho, ?_, ?_, ?_, ?_⟩ <;> rintro rfl
  · rfl
  · exact nodeWord_one_fields _
  · rw [← linkBits_eq_elim, ← linkBits_eq_elim]
    exact nodeWord_two_fields _
  · rfl

theorem codeWord_zero (c : Code) : codeWord c 0 = 0#24 ++ codeLen c := rfl

theorem codeWord_zero_toNat {c : Code} (h : c.length ≤ 255) : (codeWord c 0).toNat = c.length := by
  have hlt : c.length < 256 := by omega
  rw [codeWord_zero, BitVec.toNat_append]
  simp [codeLen, Nat.mod_eq_of_lt hlt]

theorem codeWord_eq_zero (c : Code) {w : Fin 16} (h : 9 ≤ w.val) : codeWord c w = 0 := by
  rw [codeWord, if_neg (by omega), if_neg (by omega)]

/-- Settles O17: the window answers `codeWord`, word by word. -/
theorem codeWindowReadsTheEntry : Obligations.CodeWindowReadsTheEntry := by
  intro s y a w ha hlen
  refine ⟨codeWord (tableGet s.code y) w, fun rest hh ho hb => (readsAs_code ha hb).r32_answers hh ho, fun hw => ?_,
    fun j hw hj b hb => ?_, codeWord_eq_zero _⟩
  · obtain rfl : w = 0 := Fin.ext hw
    exact codeWord_zero_toNat hlen
  · obtain rfl : w = Fin.ofNat 16 (j + 1) := Fin.ext (by rw [hw, Fin.val_ofNat]; omega)
    exact getLsbD_codeWord _ j b (by omega) hb

end Sys2Proof.Machine

/-! CLRFREQ and COUNT: COUNT's answer in each of its three cases, and the histogram the two leave. -/

namespace Sys2Proof.Machine

variable {s : State}

theorem inputBytes_length (s : State) : s.inputBytes.length = s.srcLen.toNat := by simp [State.inputBytes]

/-! ### COUNT's three outcomes (R121) -/

theorem exec_count_lenRange (hr : s.ibufSize < s.srcLen.toNat) : exec .count s = .next (completedErr 2 0 0 s) := by
  rcases exec_count_cases s with ⟨-, he⟩ | ⟨hr', -⟩ | ⟨hr', -⟩
  · exact he
  · exact absurd hr hr'
  · exact absurd hr hr'

theorem exec_count_ok (hr : s.srcLen.toNat ≤ s.ibufSize)
    (h : ∀ y, (tableGet s.freq y).toNat + s.inputBytes.count y ≤ Config.countMax) :
    ∃ f, exec .count s = .next (completedOk { s with freq := f, treeValid := false, codesValid := false }) ∧
      ∀ y, (tableGet f y).toNat = (tableGet s.freq y).toNat + s.inputBytes.count y := by
  obtain ⟨g, hg, hc⟩ := countBytes_ok 0 s.inputBytes s.freq h
  rcases exec_count_cases s with ⟨hlt, -⟩ | ⟨-, f, hf, he⟩ | ⟨-, f, i, hf, -⟩
  · exact absurd hlt hr.not_gt
  · cases hg.symm.trans hf
    exact ⟨g, he, hc⟩
  · cases hg.symm.trans hf

/-- `pre` holds the bytes before the first one whose count is full. -/
theorem exec_count_ovf {pre post : List Byte} {b : Byte} (hr : s.srcLen.toNat ≤ s.ibufSize)
    (hin : s.inputBytes = pre ++ b :: post) (h : ∀ y, (tableGet s.freq y).toNat + pre.count y ≤ Config.countMax)
    (hb : (tableGet s.freq b).toNat + pre.count b = Config.countMax) :
    ∃ f, exec .count s =
        .next (completedErr 3 pre.length 0 { s with freq := f, treeValid := false, codesValid := false }) ∧
      ∀ y, (tableGet f y).toNat = (tableGet s.freq y).toNat + pre.count y := by
  obtain ⟨g, hg, hc⟩ := countBytes_ovf 0 pre b post s.freq h hb
  rw [← hin, Nat.zero_add] at hg
  rcases exec_count_cases s with ⟨hlt, -⟩ | ⟨-, f, hf, -⟩ | ⟨-, f, i, hf, he⟩
  · exact absurd hlt hr.not_gt
  · cases hg.symm.trans hf
  · cases hg.symm.trans hf
    exact ⟨g, he, hc⟩

/-- Settles O28: the loop adds the occurrences of the bytes it passes, and stops at the first full count. -/
theorem countAddsEachInputByte : Obligations.CountAddsEachInputByte :=
  fun _ => ⟨exec_count_ok, fun _ _ _ => exec_count_ovf, exec_count_lenRange⟩

/-! ### The histogram (R123, R124) -/

/-- No symbol occurs more often than a count can say, for SRC_LEN itself is a word (R122). -/
theorem count_inputBytes_le (s : State) (y : Byte) : s.inputBytes.count y ≤ Config.countMax := by
  have hlen : s.inputBytes.count y ≤ s.srcLen.toNat := inputBytes_length s ▸ List.count_le_length
  have hword : s.srcLen.toNat < 2 ^ 32 := s.srcLen.isLt
  exact hlen.trans (Nat.le_sub_one_of_lt hword)

theorem freqSum_of_histogram {f : Vector Word 256} {l : List Byte} (h : ∀ y, (tableGet f y).toNat = l.count y) :
    freqSum f 256 = l.length := by
  rw [freqSum_eq_sum, ← sum_count_allBytes l]
  simp only [h]

theorem exec_count_of_freq_zero (hr : s.srcLen.toNat ≤ s.ibufSize) (hz : ∀ y, tableGet s.freq y = 0) :
    ∃ f, exec .count s = .next (completedOk { s with freq := f, treeValid := false, codesValid := false }) ∧
      ∀ y, (tableGet f y).toNat = s.inputBytes.count y := by
  have hzero (y : Byte) : (tableGet s.freq y).toNat + s.inputBytes.count y = s.inputBytes.count y := by simp [hz]
  simpa only [hzero] using exec_count_ok hr fun y => (hzero y).trans_le (count_inputBytes_le s y)

/-- Settles O29: CLRFREQ leaves the input alone, so COUNT adds its occurrences to zeros. -/
theorem clearedCountIsTheHistogram : Obligations.ClearedCountIsTheHistogram := by
  intro s t hr ht
  cases (exec_clrfreq s).symm.trans ht
  obtain ⟨f, he, hf⟩ := exec_count_of_freq_zero (s := completedOk
    { s with freq := Vector.replicate 256 0, treeValid := false, codesValid := false }) hr (tableGet_replicate 0)
  exact ⟨_, he, rfl, hf, (freqSum_of_histogram hf).trans (inputBytes_length s)⟩

/-! ### CLRFREQ (R120) -/

/-- Settles O27: the table CLRFREQ leaves is 0 everywhere. -/
theorem clrfreqClearsTheTable : Obligations.ClrfreqClearsTheTable :=
  fun s => ⟨_, exec_clrfreq s, tableGet_replicate 0⟩

end Sys2Proof.Machine

/-! BUILD: the weight check, what the three cases of R140 leave, and the shape of the tree. -/

namespace Sys2Proof.Machine

variable {s t : State}

/-! ### What BUILD answers -/

theorem exec_build_weightOvf {k : Nat} (hk : k < 256) (hle : freqSum s.freq k ≤ Config.countMax)
    (hlt : Config.countMax < freqSum s.freq (k + 1)) : exec .build s = .next (completedErr 4 k 0
      { s with treeValid := false, codesValid := false, treeRoot := none, nodeCount := 0, nleaf := 0 }) := by
  have hw : weightOverflow 0 0 s.freq.toList = some k := by
    simpa using weightOverflow_eq_some 0 0 k s.freq.toList (by simpa using hk) (by simpa [freqSum] using hle)
      (by simpa [freqSum] using hlt)
  simp only [exec, execBuild, hw]
  rfl

/-- Settles O30: the loop stops at the first running sum that is too large. -/
theorem buildRejectsTooLargeSum : Obligations.BuildRejectsTooLargeSum :=
  fun _ _ => exec_build_weightOvf

theorem eq_builtState_of_exec_build (h : exec .build s = .next t) (he : t.err = false) :
    freqSum s.freq 256 ≤ Config.countMax ∧ t = builtState s := by
  rcases exec_build_cases s with ⟨hf, hb⟩ | ⟨-, k, hb⟩ <;> cases hb.symm.trans h
  · exact ⟨hf, rfl⟩
  · cases he

/-- NODE_COUNT is at most 511, so the register holds it exactly (R44). -/
theorem nodeCount_builtState (s : State) : (builtState s).nodeCount.toNat = (buildTree s.freq s.node).count := by
  have hle : (buildTree s.freq s.node).count ≤ 511 := by
    have := numPresent_le s.freq
    rw [(buildTree_results _ _).2.1]
    split_ifs <;> omega
  exact Nat.mod_eq_of_lt (show (buildTree s.freq s.node).count < 2 ^ 10 by omega)

/-- Settles O31: the list is `presentSymbols`. -/
theorem buildPlacesLeavesAndResults : Obligations.BuildPlacesLeavesAndResults := by
  intro s hsum
  obtain ⟨hleaf, hcount, hroot⟩ := buildTree_results s.freq s.node
  refine ⟨(buildTree s.freq s.node).arena, presentSymbols s.freq, ?_, presentSymbols_length _, mem_presentSymbols _,
    presentSymbols_ascending _, buildTree_leaf _ _, fun i hi => buildTree_rest _ _ i (hcount.trans_le hi)⟩
  rw [exec_build_ok s hsum, builtState, hleaf, hcount, hroot]
  rfl

/-! ### The degenerate tables (R142) -/

theorem presentSymbols_eq_nil {f : Vector Word 256} (h : ∀ y, tableGet f y = 0) : presentSymbols f = [] :=
  List.eq_nil_iff_forall_not_mem.2 fun y hy => (mem_presentSymbols f y).1 hy (h y)

theorem presentSymbols_eq_singleton {f : Vector Word 256} {y : Byte} (hy : tableGet f y ≠ 0)
    (h : ∀ z, z ≠ y → tableGet f z = 0) : presentSymbols f = [y] := by
  have hmem (z : Byte) : z ∈ presentSymbols f ↔ z ∈ [y] := by
    rw [mem_presentSymbols, List.mem_singleton]
    exact ⟨fun hz => by_contra fun hne => hz (h z hne), fun hz => hz ▸ hy⟩
  exact List.perm_singleton.1 ((List.perm_ext_iff_of_nodup (presentSymbols_nodup f) (List.nodup_singleton y)).2 hmem)

theorem exec_build_empty (h : presentSymbols s.freq = []) : exec .build s = .next (completedOk
    { s with treeRoot := none, nodeCount := 0, nleaf := 0, treeValid := true, codesValid := false }) := by
  have hsum : freqSum s.freq 256 = 0 := by rw [← sum_presentSymbols, h]; rfl
  rw [exec_build_ok s (hsum.trans_le (Nat.zero_le _)), builtState, buildTree_empty _ _ (by rw [numPresent, h]; rfl)]
  rfl

theorem exec_build_single {y : Byte} (h : presentSymbols s.freq = [y]) :
    ∃ A : Arena, exec .build s = .next (completedOk
        { s with node := A, treeRoot := some 1, nodeCount := 2, nleaf := 1, treeValid := true, codesValid := false }) ∧
      A[(0 : NodeIx)] = ⟨tableGet s.freq y, false, y, none, none⟩ ∧
      A[(1 : NodeIx)] = ⟨tableGet s.freq y, true, 0, some 0, none⟩ ∧
      ∀ i : NodeIx, 2 ≤ i.val → A[i] = s.node[i] := by
  have hn : numPresent s.freq = 1 := by rw [numPresent, h]; rfl
  have hsum : freqSum s.freq 256 ≤ Config.countMax := by
    rw [← sum_presentSymbols, h]
    exact Nat.le_sub_one_of_lt (tableGet s.freq y).isLt
  have hnodes := buildTree_single_nodes s.freq s.node hn
  simp only [h, List.getElem_singleton] at hnodes
  obtain ⟨hleaf, hroot, hrest⟩ := hnodes
  obtain ⟨hnleaf, hcount, hr⟩ := buildTree_results s.freq s.node
  refine ⟨(buildTree s.freq s.node).arena, ?_, hleaf, hroot, hrest⟩
  rw [exec_build_ok s hsum, builtState, hnleaf, hcount, hr, hn]
  rfl

/-- Settles O32: no present symbol, and exactly one. -/
theorem degenerateTablesBuild : Obligations.DegenerateTablesBuild :=
  ⟨fun _ h => exec_build_empty (presentSymbols_eq_nil h),
    fun _ _ hy h => exec_build_single (presentSymbols_eq_singleton hy h)⟩

/-! ### The merges (R144) -/

/-- Settles O33: the rounds make merges only, and no weight wraps under the weight check. -/
theorem buildMergesTheTwoLeast : Obligations.BuildMergesTheTwoLeast := by
  intro s t h he hn
  obtain ⟨hsum, rfl⟩ := eq_builtState_of_exec_build h he
  obtain ⟨root, -, hroot, hcount, -, hmerged, hwait, -⟩ := buildTree_many s.freq s.node hn
  rw [nodeCount_builtState, hcount]
  refine ⟨by omega, fun j => (hwait j).trans ?_, fun m hm hlt => ?_⟩
  · show j = root ↔ (buildTree s.freq s.node).root = some j
    rw [hroot, Option.some.injEq, eq_comm]
  · obtain ⟨a, b, hab⟩ := hmerged.merges m hm hlt
    have hnode : (builtState s).node[m] = mergedNode (builtState s).node a b := hab.node
    have hweight := buildTree_weight s.freq s.node hn hsum hm hlt hab
    exact ⟨a, b, hab.ne, by rw [hnode]; rfl, by rw [hnode]; rfl, by rw [hnode]; rfl, by rw [hnode]; rfl, hweight,
      hab.left_waits, hab.right_waits, hab.left_least, hab.right_least⟩

/-! ### The shape (R148) -/

/-- A path falls from the root to the leaves by at least one index an edge. -/
theorem TreeShape.path_length_le_inner {A : Arena} {root i : NodeIx} {count n : Nat} {p : List Bool}
    (hA : TreeShape A root count n) (h : followPath A root p = some i) : p.length ≤ count - n := by
  cases p with
  | nil => exact Nat.zero_le _
  | cons b p =>
    have hroot := hA.root_last
    have hlen := hA.length_le hA.root_lt h
    rw [List.length_cons]
    omega

theorem TreeShape.le_of_internal {A : Arena} {root m : NodeIx} {count n : Nat} (hA : TreeShape A root count n)
    (hi : A[m].internal = true) : n ≤ m.val := by
  by_contra hlt
  exact absurd hi (Bool.eq_false_iff.1 (hA.leaf m (Nat.lt_of_not_le hlt)))

/-- Settles O34: the internal nodes are merges of earlier nodes, and `TreeShape` gives the paths. -/
theorem builtTreeIsATree : Obligations.BuiltTreeIsATree := by
  intro s t h he hn
  obtain ⟨hcount, -, hmerge⟩ := buildMergesTheTwoLeast s t h he hn
  obtain ⟨-, rfl⟩ := eq_builtState_of_exec_build h he
  obtain ⟨root, hroot, hshape⟩ := buildTree_many_shape s.freq s.node hn
  rw [nodeCount_builtState] at hcount hmerge ⊢
  refine ⟨root, hroot, fun m hm hi => ?_, fun i hi => ?_, fun i p hp => ?_⟩
  · obtain ⟨a, b, -, -, -, hleft, hright, hweight, ⟨ha, -⟩, ⟨hb, -⟩, -⟩ := hmerge m (hshape.le_of_internal hi) hm
    exact ⟨a, b, hleft, hright, ha, hb, hweight⟩
  · obtain ⟨p, hp⟩ := hshape.reachable i hi
    exact ⟨p, hp, fun q hq => hshape.path_unique hq hp⟩
  · have hlen := hshape.path_length_le_inner hp
    omega

/-! ### Determinism (R147) -/

theorem builtState_congr {s s' : State} (h : s.freq = s'.freq) :
    (builtState s).treeRoot = (builtState s').treeRoot ∧ (builtState s).nodeCount = (builtState s').nodeCount ∧
      (builtState s).nleaf = (builtState s').nleaf ∧
      ∀ i : NodeIx, i.val < (builtState s).nodeCount.toNat → (builtState s).node[i] = (builtState s').node[i] := by
  obtain ⟨hnleaf, hcount, hroot⟩ := buildTree_results s.freq s.node
  obtain ⟨hnleaf', hcount', hroot'⟩ := buildTree_results s.freq s'.node
  rw [nodeCount_builtState]
  simp only [builtState, completedOk, ← h, hnleaf, hnleaf', hcount', hroot, hroot']
  exact ⟨trivial, by rw [hcount], trivial, buildTree_congr s.freq s.node s'.node⟩

/-- Settles O35: both runs take the same branch of the weight check, and the tree is built from the table alone. -/
theorem buildDependsOnFreqAlone : Obligations.BuildDependsOnFreqAlone := by
  intro s s' t t' hfreq h h'
  rcases exec_build_cases s with ⟨hsum, he⟩ | ⟨hsum, k, he⟩ <;> cases he.symm.trans h <;>
    rcases exec_build_cases s' with ⟨hsum', he'⟩ | ⟨hsum', k', he'⟩ <;> cases he'.symm.trans h'
  · exact ⟨rfl, builtState_congr hfreq⟩
  · exact absurd (hfreq ▸ hsum) hsum'
  · exact absurd (hfreq ▸ hsum') hsum
  · exact ⟨rfl, rfl, rfl, rfl, fun i hi => absurd hi (Nat.not_lt_zero _)⟩

end Sys2Proof.Machine

/-! DERIVE and ENCODE (42_encoder.md): the codes of a current tree, and the stream ENCODE packs of them. -/

namespace Sys2Proof.Machine

variable {s t : State}

/-! ### What DERIVE answers (R160) -/

theorem exec_derive_noTree (ht : s.treeValid = false) : exec .derive s = .next (completedErr 5 0 0 s) := by
  rcases exec_derive_cases s with ⟨-, he⟩ | ⟨ht', -⟩ | ⟨ht', -⟩
  · exact he
  · cases ht.symm.trans ht'
  · cases ht.symm.trans ht'

theorem exec_derive_ok (ht : s.treeValid = true) {c : CodeTable} (hc : deriveCodes s.node s.treeRoot = some c) :
    exec .derive s = .next (completedOk { s with code := c, codesValid := true }) := by
  rcases exec_derive_cases s with ⟨ht', -⟩ | ⟨-, d, hd, he⟩ | ⟨-, hd, -⟩
  · cases ht.symm.trans ht'
  · cases hc.symm.trans hd
    exact he
  · cases hc.symm.trans hd

/-- Settles O36: the first branch of DERIVE. -/
theorem deriveNeedsATree : Obligations.DeriveNeedsATree :=
  fun _ => exec_derive_noTree

/-! ### The codes of a current tree (R161) -/

/-- `c` holds the codes of the tree of `s`: a path for each present symbol, and nothing for the others. -/
structure DerivedCodes (s : State) (c : CodeTable) : Prop where
  absent : ∀ {y}, tableGet s.freq y = 0 → tableGet c y = []
  ne_nil : ∀ {y}, tableGet s.freq y ≠ 0 → tableGet c y ≠ []
  length_le : ∀ {y}, tableGet s.freq y ≠ 0 → (tableGet c y).length ≤ Config.maxCode
  isCode : ∀ {y}, tableGet s.freq y ≠ 0 → ∃ root, s.treeRoot = some root ∧ IsCode s.node root (tableGet c y) y

/-- DERIVE's traversal of a current tree ends with its codes. -/
theorem TreeCurrent.exists_derivedCodes (h : TreeCurrent s) :
    ∃ c, deriveCodes s.node s.treeRoot = some c ∧ DerivedCodes s c := by
  obtain ⟨-, A, hn, hr, -, -⟩ := h
  obtain ⟨c, hc, hspec⟩ := deriveCodes_buildTree s.freq A
  rw [← hn, ← hr] at hc
  refine ⟨c, hc, fun hy => (hspec _).1 hy, fun hy => ?_, fun hy => ?_, fun hy => ?_⟩ <;>
    obtain ⟨hne, hle, hcode⟩ := (hspec _).2 hy
  · exact hne
  · exact hle
  · rwa [hn, hr]

/-- What CODES_VALID = 1 says of CODE (R29). -/
theorem Inv.derivedCodes (h : Inv s) (hv : s.codesValid = true) : DerivedCodes s s.code := by
  obtain ⟨c, hc, hspec⟩ := (h.tree_current (h.codes_need_tree hv)).exists_derivedCodes
  cases hc.symm.trans (h.codes_current hv)
  exact hspec

/-- Every code has a bit: not even the single-symbol tree has a leaf at its root (R142, R162). -/
theorem DerivedCodes.one_le_length {c : CodeTable} (h : DerivedCodes s c) {y : Byte} (hy : tableGet s.freq y ≠ 0) :
    1 ≤ (tableGet c y).length :=
  List.length_pos_iff.2 (h.ne_nil hy)

/-- Settles O37: BUILD's trees have no cycle, so the traversal ends, and it finds the path of every leaf. -/
theorem deriveGivesEachSymbolItsPath : Obligations.DeriveGivesEachSymbolItsPath := by
  intro s h ht
  obtain ⟨c, hd, hc⟩ := (h.tree_current ht).exists_derivedCodes
  exact ⟨c, exec_derive_ok ht hd, fun y => ⟨hc.absent, fun hy =>
    ⟨hc.one_le_length hy, hc.length_le hy, hc.isCode hy⟩⟩⟩

/-- A symbol with a path is present, and has no other path (R141, R148). -/
theorem TreeCurrent.freq_ne_zero_of_isCode (h : TreeCurrent s) {root : NodeIx} (hroot : s.treeRoot = some root)
    {bits : List Bool} {y : Byte} (hb : IsCode s.node root bits y) : tableGet s.freq y ≠ 0 := by
  obtain ⟨-, A, hn, hr, -, -⟩ := h
  rw [hn] at hb
  exact (exists_isCode_iff s.freq A (hr.symm.trans hroot) y).1 ⟨bits, hb⟩

theorem TreeCurrent.isCode_unique (h : TreeCurrent s) {root : NodeIx} (hroot : s.treeRoot = some root)
    {p q : List Bool} {y : Byte} (hp : IsCode s.node root p y) (hq : IsCode s.node root q y) : p = q := by
  obtain ⟨-, A, hn, hr, -, -⟩ := h
  rw [hn] at hp hq
  exact Machine.isCode_unique s.freq A (hr.symm.trans hroot) hp hq

/-- Settles O38: CODE holds a path of the symbol, and it has one path only. -/
theorem thePathIsTheCode : Obligations.ThePathIsTheCode := by
  intro s root bits y h hv hroot hb
  have htree : TreeCurrent s := h.tree_current (h.codes_need_tree hv)
  obtain ⟨root', hroot', hcode⟩ := (h.derivedCodes hv).isCode (htree.freq_ne_zero_of_isCode hroot hb)
  cases hroot.symm.trans hroot'
  exact htree.isCode_unique hroot hcode hb

/-! ### No code begins another (R162) -/

/-- The path to a leaf is extended by itself only, so a code that begins with another is of the same symbol. -/
theorem IsCode.eq_of_isPrefix {A : Arena} {root : NodeIx} {p q : List Bool} {y z : Byte} (hp : IsCode A root p y)
    (hq : IsCode A root q z) (h : p <+: q) : y = z := by
  obtain ⟨i, hpi, hi, rfl⟩ := hp
  obtain ⟨j, hqj, -, rfl⟩ := hq
  obtain ⟨-, rfl⟩ := Machine.eq_of_isPrefix A hpi hi hqj h
  rfl

theorem DerivedCodes.not_isPrefix {c : CodeTable} (h : DerivedCodes s c) {y z : Byte} (hy : tableGet s.freq y ≠ 0)
    (hz : tableGet s.freq z ≠ 0) (hne : y ≠ z) : ¬ tableGet c y <+: tableGet c z := by
  obtain ⟨root, hroot, hcy⟩ := h.isCode hy
  obtain ⟨root', hroot', hcz⟩ := h.isCode hz
  cases hroot.symm.trans hroot'
  exact fun hpre => hne (hcy.eq_of_isPrefix hcz hpre)

/-- Settles O39: symbols stand at leaves only. -/
theorem derivedCodesArePrefixFree : Obligations.DerivedCodesArePrefixFree := by
  intro s h hv
  have hc : DerivedCodes s s.code := h.derivedCodes hv
  refine ⟨fun y hy => ⟨hc.one_le_length hy, hc.length_le hy⟩, fun y hy => List.length_eq_zero_iff.2 (hc.absent hy),
    fun y z hy hz hne => ⟨fun heq => ?_, hc.not_isPrefix hy hz hne⟩⟩
  exact hc.not_isPrefix hy hz hne (heq ▸ List.prefix_refl _)

/-! ### What ENCODE answers (R170) -/

theorem exec_encode_noCodes (hv : s.codesValid = false) :
    exec .encode s = .next (completedErr 6 0 0 { s with outLen := 0, outBits := 0 }) := by
  rcases exec_encode_cases s with ⟨-, he⟩ | ⟨hv', -⟩ | ⟨hv', -⟩ | ⟨hv', -⟩
  · exact he
  all_goals cases hv.symm.trans hv'

theorem exec_encode_lenRange (hv : s.codesValid = true) (hr : s.ibufSize < s.srcLen.toNat) :
    exec .encode s = .next (completedErr 2 0 0 { s with outLen := 0, outBits := 0 }) := by
  rcases exec_encode_cases s with ⟨hv', -⟩ | ⟨-, -, he⟩ | ⟨-, hr', -⟩ | ⟨-, hr', -⟩
  · cases hv.symm.trans hv'
  · exact he
  · exact absurd hr hr'.not_gt
  · exact absurd hr hr'.not_gt

section

variable (hv : s.codesValid = true) (hr : s.srcLen.toNat ≤ s.ibufSize)
include hv hr

theorem exec_encode_error {r : Raised} (hp : packSymbols s.code (8 * s.obufSize) 0 [] s.inputBytes = .error r) :
    exec .encode s = .next (completedErr r.error.code r.pos r.bit
      { s with outLen := 0, outBits := 0, obuf := .drawn s.draws, draws := s.draws + 1 }) := by
  rcases exec_encode_cases s with ⟨hv', -⟩ | ⟨-, hr', -⟩ | ⟨-, -, r', hp', -, he⟩ | ⟨-, -, hp', -⟩
  · cases hv.symm.trans hv'
  · exact absurd hr' hr.not_gt
  · cases hp.symm.trans hp'
    exact he
  · cases hp.symm.trans hp'

theorem exec_encode_ok (hc : ∀ y ∈ s.inputBytes, tableGet s.code y ≠ [])
    (hfit : (codeStream s.code s.inputBytes).length ≤ 8 * s.obufSize) :
    exec .encode s = .next (completedOk { s with
      obuf := s.obuf.writeBytes 0 (packBytes (codeStream s.code s.inputBytes))
      outBits := BitVec.ofNat 32 (codeStream s.code s.inputBytes).length
      outLen := BitVec.ofNat 32 (((codeStream s.code s.inputBytes).length + 7) / 8) }) := by
  have hp := packSymbols_ok s.code (8 * s.obufSize) 0 [] s.inputBytes hc (by simpa using hfit)
  rcases exec_encode_cases s with ⟨hv', -⟩ | ⟨-, hr', -⟩ | ⟨-, -, r', hp', -⟩ | ⟨-, -, -, -, -, he⟩
  · cases hv.symm.trans hv'
  · exact absurd hr' hr.not_gt
  · cases hp.symm.trans hp'
  · exact he

end

/-- Settles O40: the two checks, CODES_VALID first. -/
theorem encodeChecksBeforePacking : Obligations.EncodeChecksBeforePacking :=
  fun _ => ⟨exec_encode_noCodes, exec_encode_lenRange⟩

/-- Settles O41: `pre` is packed whole, and the loop stops at the next symbol. -/
theorem encodeStopsAtTheFirstBadSymbol : Obligations.EncodeStopsAtTheFirstBadSymbol := by
  intro s pre b post hv hr hin hpre hfit
  refine ⟨fun hb => ?_, fun hb hovf => ?_⟩
  · have hp := packSymbols_noCode s.code (8 * s.obufSize) pre b post hpre hfit hb
    rw [← hin] at hp
    exact ⟨_, _, exec_encode_error hv hr hp⟩
  · have hp := packSymbols_obufOvf s.code (8 * s.obufSize) pre b post hpre hfit hb hovf
    rw [← hin] at hp
    exact ⟨_, _, exec_encode_error hv hr hp⟩

/-! ### The stream (R171 to R173) -/

theorem codeStream_length (c : CodeTable) (ys : List Byte) :
    (codeStream c ys).length = (ys.map fun y => (tableGet c y).length).sum :=
  List.length_flatMap

/-- OBUF has at most 2^31 bits, so OUT_BITS never wraps (R39, log 19). -/
theorem lt_of_le_obufBits {n : Nat} (h : n ≤ 8 * s.obufSize) : n < 2 ^ 32 := by
  have hsize := obufSize_le s
  omega

/-- Settles O42: OBUF holds the packed bytes of the code stream, and else what it held. -/
theorem encodePacksTheCodes : Obligations.EncodePacksTheCodes := by
  intro s hv hr hc hfit
  rw [← codeStream_length] at hfit ⊢
  refine ⟨_, _, rfl, exec_encode_ok hv hr hc hfit, lt_of_le_obufBits hfit, fun p hp => ?_, fun p hp hlt => ?_,
    read_writeBytes_packBytes_of_le _ _⟩
  · exact streamBit_writeBytes_packBytes _ _ p (by omega)
  · rw [streamBit_writeBytes_packBytes _ _ p hlt, List.getD_eq_default _ _ hp]

/-! ### The weighted path length (R175) -/

/-- A sum over a list, gathered by symbol. -/
theorem sum_map_eq_sum_count_allBytes (l : List Byte) (g : Byte → Nat) :
    (l.map g).sum = (allBytes.map fun y => l.count y * g y).sum := by
  have hsub : l.toFinset ⊆ allBytes.toFinset := fun y _ => List.mem_toFinset.2 (mem_allBytes y)
  calc (l.map g).sum
      = ∑ y ∈ l.toFinset, l.count y * g y := Finset.sum_list_map_count l g
    _ = ∑ y ∈ allBytes.toFinset, l.count y * g y := Finset.sum_subset hsub fun y _ hy => by
        rw [List.count_eq_zero_of_not_mem (mt List.mem_toFinset.2 hy), Nat.zero_mul]
    _ = (allBytes.map fun y => l.count y * g y).sum := List.sum_toFinset _ allBytes_nodup

/-- OUT_BITS after a success is the length of the code stream (R173). -/
theorem outBits_of_exec_encode (h : exec .encode s = .next t) (he : t.err = false) :
    t.outBits.toNat = (codeStream s.code s.inputBytes).length := by
  rcases exec_encode_cases s with ⟨-, hx⟩ | ⟨-, -, hx⟩ | ⟨-, -, r, -, -, hx⟩ | ⟨-, -, -, -, hfit, hx⟩ <;>
    cases hx.symm.trans h
  · cases he
  · cases he
  · cases he
  · exact Nat.mod_eq_of_lt (lt_of_le_obufBits hfit)

/-- Settles O48: the stream's length is a sum over the input bytes, which the histogram counts by symbol. -/
theorem encodedLengthIsTheWeightedPathLength : Obligations.EncodedLengthIsTheWeightedPathLength := by
  intro s t _ hfreq hx he
  rw [outBits_of_exec_encode hx he, codeStream_length, sum_map_eq_sum_count_allBytes]
  simp only [← hfreq, allBytes, List.map_map, Function.comp_def]

end Sys2Proof.Machine

/-! DECODE (43_decoder.md): what it answers, the walk's outcomes, and the round trip with ENCODE. -/

namespace Sys2Proof.Machine

variable {s t u : State}

/-! ### When there is nothing to walk (R190) -/

/-- The walk of the empty tree reads no bit and emits no symbol. -/
theorem decodePayload_of_no_root (h : s.treeRoot = none) : decodePayload s = .ok ([], 0) := by
  rw [decodePayload, h]

theorem decodePayload_of_root {root : NodeIx} (h : s.treeRoot = some root) :
    decodePayload s = decodeSymbols s.node s.ibuf root (8 * s.srcLen.toNat) s.decCount.toNat 0 0 := by
  rw [decodePayload, h]

theorem decodePayload_of_decCount_zero (h : s.decCount = 0) : decodePayload s = .ok ([], 0) := by
  cases hroot : s.treeRoot with
  | none => exact decodePayload_of_no_root hroot
  | some root => rw [decodePayload_of_root hroot, h]; rfl

/-! ### The checks (R190) -/

theorem exec_decode_noTree (ht : s.treeValid = false) :
    exec .decode s = .next (completedErr 5 0 0 { s with outLen := 0, outBits := 0 }) := by
  rcases exec_decode_cases s with ⟨-, he⟩ | ⟨ht', -⟩ | ⟨ht', -⟩ | ⟨ht', -⟩ | ⟨ht', -⟩
  · exact he
  all_goals cases ht.symm.trans ht'

theorem exec_decode_lenRange (ht : s.treeValid = true) (hr : s.ibufSize < s.srcLen.toNat) :
    exec .decode s = .next (completedErr 2 0 0 { s with outLen := 0, outBits := 0 }) := by
  rcases exec_decode_cases s with ⟨ht', -⟩ | ⟨-, -, he⟩ | ⟨-, hr', -⟩ | ⟨-, hr', -⟩ | ⟨-, hr', -⟩
  · cases ht.symm.trans ht'
  · exact he
  all_goals exact absurd hr hr'.not_gt

theorem exec_decode_obufOvf (ht : s.treeValid = true) (hr : s.srcLen.toNat ≤ s.ibufSize)
    (ho : s.obufSize < s.decCount.toNat) :
    exec .decode s = .next (completedErr 8 0 0 { s with outLen := 0, outBits := 0 }) := by
  rcases exec_decode_cases s with ⟨ht', -⟩ | ⟨-, hr', -⟩ | ⟨-, -, -, he⟩ | ⟨-, -, ho', -⟩ | ⟨-, -, ho', -⟩
  · cases ht.symm.trans ht'
  · exact absurd hr' hr.not_gt
  · exact he
  all_goals exact absurd ho ho'.not_gt

section

variable (ht : s.treeValid = true) (hr : s.srcLen.toNat ≤ s.ibufSize) (ho : s.decCount.toNat ≤ s.obufSize)
include ht hr ho

theorem exec_decode_fmtEmptyTree (hn : 0 < s.decCount.toNat) (hroot : s.treeRoot = none) :
    exec .decode s = .next (completedErr 9 0 0 { s with outLen := 0, outBits := 0 }) := by
  rcases exec_decode_cases s with ⟨ht', -⟩ | ⟨-, hr', -⟩ | ⟨-, -, ho', -⟩ | ⟨-, -, -, -, -, he⟩ | ⟨-, -, -, hne, -⟩
  · cases ht.symm.trans ht'
  · exact absurd hr' hr.not_gt
  · exact absurd ho' ho.not_gt
  · exact he
  · exact absurd ⟨hn, hroot⟩ hne

/-! ### The two outcomes after the checks (R190, R214) -/

/-- A walk is only asked of a tree that is not empty, or of no symbol. -/
theorem exec_decode_of_walk (hwalk : ¬ (0 < s.decCount.toNat ∧ s.treeRoot = none)) :
    (∃ r, decodePayload s = .error r ∧ exec .decode s = .next (completedErr r.error.code r.pos r.bit
        { s with outLen := 0, outBits := 0, obuf := .drawn s.draws, draws := s.draws + 1 })) ∨
      (∃ ys p, decodePayload s = .ok (ys, p) ∧ exec .decode s = .next (completedOk { s with
        obuf := s.obuf.writeBytes 0 ys, outLen := s.decCount, outBits := BitVec.ofNat 32 p })) := by
  rcases exec_decode_cases s with ⟨ht', -⟩ | ⟨-, hr', -⟩ | ⟨-, -, ho', -⟩ | ⟨-, -, -, hn, hroot, -⟩ | ⟨-, -, -, -, he⟩
  · cases ht.symm.trans ht'
  · exact absurd hr' hr.not_gt
  · exact absurd ho' ho.not_gt
  · exact absurd ⟨hn, hroot⟩ hwalk
  · exact he

theorem exec_decode_error {r : Raised} (hp : decodePayload s = .error r) :
    exec .decode s = .next (completedErr r.error.code r.pos r.bit
      { s with outLen := 0, outBits := 0, obuf := .drawn s.draws, draws := s.draws + 1 }) := by
  have hwalk : ¬ (0 < s.decCount.toNat ∧ s.treeRoot = none) := fun ⟨_, hroot⟩ => by
    cases hp.symm.trans (decodePayload_of_no_root hroot)
  rcases exec_decode_of_walk ht hr ho hwalk with ⟨r', hp', he⟩ | ⟨ys, p, hp', -⟩
  · cases hp.symm.trans hp'
    exact he
  · cases hp.symm.trans hp'

theorem exec_decode_ok {ys : List Byte} {p : Nat} (hp : decodePayload s = .ok (ys, p))
    (hlen : ys.length = s.decCount.toNat) :
    exec .decode s = .next (completedOk { s with
      obuf := s.obuf.writeBytes 0 ys, outLen := s.decCount, outBits := BitVec.ofNat 32 p }) := by
  have hwalk : ¬ (0 < s.decCount.toNat ∧ s.treeRoot = none) := fun ⟨hn, hroot⟩ => by
    cases hp.symm.trans (decodePayload_of_no_root hroot)
    exact absurd hlen hn.ne
  rcases exec_decode_of_walk ht hr ho hwalk with ⟨r, hp', -⟩ | ⟨ys', p', hp', he⟩
  · cases hp.symm.trans hp'
  · cases hp.symm.trans hp'
    exact he

end

/-- Settles O43: the four checks, each after those before it. -/
theorem decodeChecksBeforeWalking : Obligations.DecodeChecksBeforeWalking :=
  fun _ => ⟨exec_decode_noTree, exec_decode_lenRange, exec_decode_obufOvf, exec_decode_fmtEmptyTree⟩

/-! ### The walk's symbols (R191, R193) -/

/-- The payload spells the codes of as many symbols as are asked for. -/
theorem decodePayload_ok {root : NodeIx} {codes : List (List Bool)} {ys : List Byte} (hroot : s.treeRoot = some root)
    (hlen : ys.length = s.decCount.toNat) (hc : AreCodes s.node root codes ys) (hs : StreamIs s.ibuf 0 codes.flatten)
    (hfit : codes.flatten.length ≤ 8 * s.srcLen.toNat) : decodePayload s = .ok (ys, codes.flatten.length) := by
  rw [decodePayload_of_root hroot, ← hlen, decodeSymbols_ok hc _ hs hfit]

/-- Bytes stored from index 0 on are read back at their place in the list. -/
theorem read_writeBytes_zero (m : Memory) (bs : List Byte) {k : Nat} (h : k < bs.length) :
    (m.writeBytes 0 bs).read k = bs[k] := by
  rw [read_writeBytes, if_pos ⟨Nat.zero_le k, by omega⟩, Nat.sub_zero, List.getD_eq_getElem _ _ h]

/-- Settles O44: the walk emits the symbols one by one, and DECODE stores them from OBUF[0] on. -/
theorem decodeEmitsTheSymbols : Obligations.DecodeEmitsTheSymbols := by
  refine ⟨fun s root codes ys ht hr ho hroot hlen hc hs hfit => ?_, fun s ht hr hn => ?_⟩
  · refine ⟨_, exec_decode_ok ht hr ho (decodePayload_ok hroot hlen hc hs hfit) hlen,
      fun k hk => read_writeBytes_zero s.obuf ys hk, fun k hk => ?_⟩
    rw [read_writeBytes, if_neg (by omega)]
  · have he := exec_decode_ok ht hr (by simp [hn]) (decodePayload_of_decCount_zero hn) (by simp [hn])
    rw [he, hn]
    rfl

/-! ### The walk's errors (R190, R211) -/

/-- After the codes of `ys` and the path `part` to `m`, an error of the rest of that descent is DECODE's. -/
theorem exec_decode_walkError {root m : NodeIx} {codes : List (List Bool)} {ys : List Byte} {part : List Bool}
    (ht : s.treeValid = true) (hr : s.srcLen.toNat ≤ s.ibufSize) (ho : s.decCount.toNat ≤ s.obufSize)
    (hroot : s.treeRoot = some root) (hlt : ys.length < s.decCount.toNat) (hc : AreCodes s.node root codes ys)
    (hs : StreamIs s.ibuf 0 (codes.flatten ++ part)) (hpath : followPath s.node root part = some m)
    (hfit : (codes.flatten ++ part).length ≤ 8 * s.srcLen.toNat) {r : Raised}
    (hd : descend s.node s.ibuf root ys.length (8 * s.srcLen.toNat - (codes.flatten ++ part).length) m
      (codes.flatten ++ part).length = .error r) :
    ∃ d n, exec .decode s = .next (completedErr r.error.code r.pos r.bit
      { s with outLen := 0, outBits := 0, obuf := ⟨[], d⟩, draws := n }) := by
  rw [StreamIs.append, Nat.zero_add] at hs
  obtain ⟨hcodes, hpart⟩ := hs
  rw [List.length_append] at hfit hd
  have hdescent : descend s.node s.ibuf root ys.length (8 * s.srcLen.toNat - codes.flatten.length) root
      codes.flatten.length = .error r := by
    rw [descend_follow root _ hpath _ _ hpart (by omega), Nat.sub_sub, hd]
  obtain ⟨n, hn⟩ : ∃ n, s.decCount.toNat = ys.length + (n + 1) := ⟨s.decCount.toNat - ys.length - 1, by omega⟩
  have hp : decodePayload s = .error r := by
    rw [decodePayload_of_root hroot, hn, decodeSymbols_error hc _ n hcodes (by omega) hdescent]
  exact ⟨_, _, exec_decode_error ht hr ho hp⟩

/-- Settles O45: the descent at `m` has no bit left, or its next bit selects no child. -/
theorem decodeWalkErrors : Obligations.DecodeWalkErrors := by
  intro s root codes ys part m ht hr ho hroot hlt hc hs hpath hm
  have herr := fun r hfit => exec_decode_walkError (r := r) ht hr ho hroot hlt hc hs hpath hfit
  refine ⟨fun hend hmr => herr ⟨.fmtCount, _, _⟩ hend.le ?_, fun hend hmr => herr ⟨.decTrunc, _, _⟩ hend.le ?_,
    fun hmore hchild => herr ⟨.decBadPath, _, _⟩ hmore.le ?_⟩
  · rw [hend, Nat.sub_self, descend_end root _ hm, if_pos hmr]
  · rw [hend, Nat.sub_self, descend_end root _ hm, if_neg hmr]
  · obtain ⟨n, hn⟩ := Nat.exists_eq_add_of_lt hmore
    rw [show 8 * s.srcLen.toNat - (codes.flatten ++ part).length = n + 1 by omega, descend_step root _ hm, hchild]

/-! ### The payload ENCODE leaves (R173, R194) -/

/-- What a success of ENCODE from `s` to `t` says of the input and of the payload. -/
structure Encoded (s t : State) : Prop where
  codesValid : s.codesValid = true
  hasCode : ∀ {y}, y ∈ s.inputBytes → tableGet s.code y ≠ []
  freq_eq : t.freq = s.freq
  outBits_eq : t.outBits = BitVec.ofNat 32 (codeStream s.code s.inputBytes).length
  outLen_toNat : t.outLen.toNat = ((codeStream s.code s.inputBytes).length + 7) / 8
  streamIs : StreamIs t.obuf 0 (codeStream s.code s.inputBytes)

theorem encoded_of_exec_encode (h : exec .encode s = .next t) (he : t.err = false) : Encoded s t := by
  rcases exec_encode_cases s with ⟨-, hx⟩ | ⟨-, -, hx⟩ | ⟨-, -, r, -, -, hx⟩ | ⟨hv, -, -, hcode, hfit, hx⟩ <;>
    cases hx.symm.trans h
  · cases he
  · cases he
  · cases he
  · refine ⟨hv, hcode _, rfl, rfl, Nat.mod_eq_of_lt ?_, fun p hp => ?_⟩
    · have hlt := lt_of_le_obufBits hfit
      omega
    · rw [Nat.zero_add]
      exact streamBit_writeBytes_packBytes _ _ p (by omega)

/-- The codes one by one, joined, are the stream (R173). -/
theorem flatten_map_tableGet (c : CodeTable) (ys : List Byte) : (ys.map (tableGet c)).flatten = codeStream c ys := rfl

/-- Two trees of one FREQ have the same root, and give every symbol the same path (R147, R194). -/
theorem TreeCurrent.rebuilt (hs : TreeCurrent s) (hu : TreeCurrent u) (hf : u.freq = s.freq) {root : NodeIx}
    (hroot : s.treeRoot = some root) :
    u.treeRoot = some root ∧ ∀ {bits y}, IsCode s.node root bits y → IsCode u.node root bits y := by
  obtain ⟨-, A, hn, hr, -, -⟩ := hs
  obtain ⟨-, B, hn', hr', -, -⟩ := hu
  rw [hf] at hn' hr'
  refine ⟨?_, fun h => ?_⟩
  · rw [hr', (buildTree_results s.freq B).2.2, ← (buildTree_results s.freq A).2.2, ← hr, hroot]
  · rw [hn] at h
    rw [hn']
    exact h.rebuilt (hr.symm.trans hroot)

/-- The payload in IBUF of `u` is the stream that ENCODE packed. -/
theorem ReadyToDecode.streamIs {L : Word} (hu : ReadyToDecode t u L) (he : Encoded s t) :
    StreamIs u.ibuf 0 (codeStream s.code s.inputBytes) := by
  obtain ⟨-, -, -, -, -, -, -, hbytes⟩ := hu
  have hlen := he.outLen_toNat
  exact fun p hp => (streamBit_congr _ _ _ hbytes _ (by omega)).trans (he.streamIs p hp)

section

variable (hs : Inv s) (he : Encoded s t) (hu : ReadyToDecode t u s.srcLen)
include hs he hu

/-- The tree rebuilt in `u` gives each input byte the code that ENCODE packed. -/
theorem ReadyToDecode.areCodes (hne : s.inputBytes ≠ []) :
    ∃ root, u.treeRoot = some root ∧ AreCodes u.node root (s.inputBytes.map (tableGet s.code)) s.inputBytes := by
  obtain ⟨hinv, htree, hfreq, -⟩ := hu
  have hcodes : DerivedCodes s s.code := hs.derivedCodes he.codesValid
  have hpresent : ∀ {y}, y ∈ s.inputBytes → tableGet s.freq y ≠ 0 := fun hy => mt hcodes.absent (he.hasCode hy)
  obtain ⟨root, hroot, -⟩ := hcodes.isCode (hpresent (List.head_mem hne))
  obtain ⟨hroot', hsame⟩ := (hs.tree_current (hs.codes_need_tree he.codesValid)).rebuilt (hinv.tree_current htree)
    (hfreq.trans he.freq_eq) hroot
  refine ⟨root, hroot', List.forall₂_map_left_iff.2 (List.forall₂_same.2 fun y hy => hsame ?_)⟩
  obtain ⟨root₂, hroot₂, hcode⟩ := hcodes.isCode (hpresent hy)
  cases hroot.symm.trans hroot₂
  exact hcode

/-- The walk gives back the input, and reads the bits that were packed (R194). -/
theorem ReadyToDecode.decodePayload_eq :
    decodePayload u = .ok (s.inputBytes, (codeStream s.code s.inputBytes).length) := by
  have hstream := hu.streamIs he
  have hareCodes := hu.areCodes hs he
  obtain ⟨-, -, -, hsrc, hcount, -⟩ := hu
  have hL : s.inputBytes.length = u.decCount.toNat := by rw [inputBytes_length, hcount]
  by_cases hin : s.inputBytes = []
  · rw [hin] at hL ⊢
    exact decodePayload_of_decCount_zero (BitVec.eq_of_toNat_eq hL.symm)
  · obtain ⟨root, hroot, hcodes⟩ := hareCodes hin
    refine decodePayload_ok hroot hL hcodes hstream ?_
    have hlen := he.outLen_toNat
    rw [flatten_map_tableGet, hsrc]
    omega

end

/-- Settles O46: the rebuilt tree has the codes that were packed, so the walk emits the input. -/
theorem decodeInvertsEncode : Obligations.DecodeInvertsEncode := by
  intro s t u hs hx hok hu
  have he : Encoded s t := encoded_of_exec_encode hx hok
  have hp := hu.decodePayload_eq hs he
  obtain ⟨-, htree, -, hsrc, hcount, hibuf, hobuf, -⟩ := hu
  have hL : s.inputBytes.length = u.decCount.toNat := by rw [inputBytes_length, hcount]
  have hx' := exec_decode_ok htree (hsrc ▸ hibuf) (hcount ▸ hobuf) hp hL
  refine ⟨_, hx', rfl, hcount, he.outBits_eq.symm, fun k hk => ?_⟩
  have hk' : k < s.inputBytes.length := by rwa [inputBytes_length]
  exact (read_writeBytes_zero u.obuf _ hk').trans (by simp [State.inputBytes])

/-! ### Truncation (R195) -/

/-- A payload shorter than the bits that the walk reads is exhausted in it. -/
theorem decodePayload_truncated {ys : List Byte} {q : Nat} (h : decodePayload s = .ok (ys, q)) {len : Word}
    (hle : len.toNat ≤ s.srcLen.toNat) (hq : 8 * len.toNat < q) :
    ∃ r, decodePayload { s with srcLen := len } = .error r ∧ (r.error = .fmtCount ∨ r.error = .decTrunc) := by
  rcases Option.eq_none_or_eq_some s.treeRoot with hroot | ⟨root, hroot⟩
  · cases h.symm.trans (decodePayload_of_no_root hroot)
    omega
  · rw [decodePayload_of_root hroot] at h
    rw [decodePayload_of_root (s := { s with srcLen := len }) hroot]
    exact decodeSymbols_shorter h (Nat.mul_le_mul_left 8 hle) (Nat.zero_le _) hq

/-- Each byte of a coded input takes at least one bit. -/
theorem Encoded.length_le (he : Encoded s t) : s.srcLen.toNat ≤ (codeStream s.code s.inputBytes).length := by
  rw [codeStream_length, ← inputBytes_length, ← List.length_map (fun y => (tableGet s.code y).length)]
  refine List.length_le_sum_of_one_le _ fun n hn => ?_
  obtain ⟨y, hy, rfl⟩ := List.mem_map.1 hn
  exact List.length_pos_iff.2 (he.hasCode hy)

/-- Settles O47: the last byte holds a bit of the stream, so the walk of a payload without it runs out of bits. -/
theorem truncationIsDetected : Obligations.TruncationIsDetected := by
  intro s t u hs hx hok hL hu
  have he : Encoded s t := encoded_of_exec_encode hx hok
  have hp := hu.decodePayload_eq hs he
  obtain ⟨-, htree, -, hsrc, hcount, hibuf, hobuf, -⟩ := hu
  have hbits := hL.trans he.length_le
  have hlen := he.outLen_toNat
  have hcut : (t.outLen - 1).toNat = t.outLen.toNat - 1 := BitVec.toNat_sub_of_le (by bv_omega)
  obtain ⟨r, hr, hk⟩ := decodePayload_truncated hp (len := t.outLen - 1) (by rw [hsrc]; omega) (by omega)
  have hx' := exec_decode_error (s := { u with srcLen := t.outLen - 1 }) htree
    (show (t.outLen - 1).toNat ≤ u.ibufSize by omega) (show u.decCount.toNat ≤ u.obufSize from hcount ▸ hobuf) hr
  refine ⟨_, hx', rfl, ?_⟩
  rcases hk with h | h
  · exact .inl (by rw [h]; rfl)
  · exact .inr (by rw [h]; rfl)

end Sys2Proof.Machine

/-! What every completion leaves (R213): ERRCODE's range (R211) and the interrupt line (R217). -/

namespace Sys2Proof.Machine

theorem CmdError.one_le_code (e : CmdError) : 1 ≤ e.code.toNat :=
  Nat.one_le_iff_ne_zero.2 fun h => e.code_ne_zero (BitVec.eq_of_toNat_eq h)

@[simp] theorem completedOk_irq (s : State) : (completedOk s).irq = (s.doneEn || (s.errPend && s.errEn)) := rfl

@[simp] theorem completedErr_irq (c : BitVec 4) (p b : Nat) (s : State) :
    (completedErr c p b s).irq = (s.doneEn || s.errEn) := rfl

/-- Settles O50: a command's outcomes are successes and errors of R211, completed over a state in which the command has
changed neither LASTOP nor ERR_P nor IRQ_EN. -/
theorem everyCompletionLeavesItsOutcome : Obligations.EveryCompletionLeavesItsOutcome := by
  intro i s t h
  cases exec_completion h with
  | cleared | counted | built | derived | encoded | decoded =>
    exact ⟨rfl, rfl, rfl, rfl, .inl ⟨rfl, rfl, rfl, rfl, rfl, completedOk_irq _⟩⟩
  | countRange | countOvf | weightOvf | noTree | encodeRefused | encodeFailed | decodeRefused | decodeFailed =>
    exact ⟨rfl, rfl, rfl, rfl, .inr ⟨rfl, CmdError.one_le_code _, CmdError.code_le _, rfl, completedErr_irq ..⟩⟩

end Sys2Proof.Machine

/-! Reset, the order of a completion and a STATUS read, and that every command ends (70_reset_and_hazards.md). -/

namespace Sys2Proof.Machine

variable {s t : State}

/-! ### Every command ends (R249) -/

/-- DERIVE alone could run for ever, and BUILD makes no tree on which it does (R148, R160). -/
theorem exec_ends (h : s.treeValid = true → TreeCurrent s) (i : Instr) : ∃ t, exec i s = .next t := by
  cases i with
  | derive =>
    cases ht : s.treeValid with
    | false => exact ⟨_, exec_derive_noTree ht⟩
    | true =>
      obtain ⟨c, hc, -⟩ := (h ht).exists_derivedCodes
      exact ⟨_, exec_derive_ok ht hc⟩
  | clrfreq | count | build | encode | decode => exact ⟨_, rfl⟩

/-- What a completion (R213) leaves of `s`, whichever command it completes: nothing pending, DONE = 1, and the host's side
as it was. -/
structure AfterCompletion (s t : State) : Prop where
  pending : t.pending = none
  done : t.done = true
  held : t.held = s.held
  hostOps : t.hostOps = s.hostOps
  schedule : t.schedule = s.schedule
  answers : t.answers = s.answers

theorem AfterCompletion.of_exec {i : Instr} (h : exec i s = .next t) : AfterCompletion s t := by
  obtain ⟨hpending, hdone, -⟩ := everyCompletionLeavesItsOutcome i s t h
  obtain ⟨-, -, -, -, -, -, -, -, hheld, hops, hsched, hans⟩ := commandsLeaveOperandsAlone i s t h
  exact ⟨hpending, hdone, hheld, hops, hsched, hans⟩

theorem AfterCompletion.busy (h : AfterCompletion s t) : t.busy = false := (busy_eq_false t).2 h.pending

/-- The engine's turn completes the pending word, legal or not (R102, R213). -/
theorem Inv.engineStep_completes (h : Inv s) {w : Word} (hp : s.pending = some w) :
    ∃ t, engineStep s = .next t ∧ AfterCompletion s t := by
  cases hd : decode w with
  | ok i =>
    obtain ⟨t, ht⟩ := exec_ends h.tree_current i
    exact ⟨t, (engineStep_legal hd hp).trans ht, .of_exec ht⟩
  | error r => exact ⟨_, engineStep_illegal hd hp, rfl, rfl, rfl, rfl, rfl, rfl⟩

theorem Inv.stepTurn_ends (h : Inv s) (a : Turn) : ∃ t, stepTurn a s = .next t := by
  cases a with
  | host | reset => exact ⟨_, rfl⟩
  | engine =>
    cases hp : s.pending with
    | none => exact ⟨s, engineStep_idle hp⟩
    | some w =>
      obtain ⟨t, ht, -⟩ := h.engineStep_completes hp
      exact ⟨t, ht⟩

/-- Settles O56: a step is one agent's turn, and under the invariant every turn ends. -/
theorem stepNeverStops : Obligations.StepNeverStops := by
  intro s h
  obtain ⟨a, r, he⟩ := step_eq_stepTurn s
  obtain ⟨t, ht⟩ := (h.withSchedule r).stepTurn_ends a
  exact ⟨t, he.trans ht⟩

/-! ### A pending command is completed (R249) -/

/-- Some state in which no command is pending is at most `n` steps away. -/
def GoesIdleWithin (n : Nat) (s : State) : Prop :=
  ∃ k ≤ n, ∃ t, Host.Core.run Sys2Proof.core k s = .next t ∧ t.busy = false

theorem core_run_succ (h : step s = .next t) (k : Nat) :
    Host.Core.run Sys2Proof.core (k + 1) s = Host.Core.run Sys2Proof.core k t := by
  have hcore : Sys2Proof.core.step s = .next t := h
  simp only [Host.Core.run, hcore]

theorem GoesIdleWithin.step {n : Nat} (h : step s = .next t) (ht : GoesIdleWithin n t) : GoesIdleWithin (n + 1) s := by
  obtain ⟨k, hk, u, hu, hb⟩ := ht
  exact ⟨k + 1, Nat.succ_le_succ hk, u, (core_run_succ h k).trans hu, hb⟩

theorem GoesIdleWithin.now (hb : s.busy = false) (n : Nat) : GoesIdleWithin n s := ⟨0, n.zero_le, s, rfl, hb⟩

/-- The engine's turn and reset end the wait; the host's shortens the schedule and leaves the pending word (R83). -/
theorem Inv.goesIdleWithin (h : Inv s) (hb : s.busy = true) : GoesIdleWithin (s.schedule.length + 1) s := by
  obtain ⟨w, hp⟩ := (busy_eq_true s).1 hb
  induction hs : s.schedule generalizing s with
  | nil =>
    obtain ⟨t, ht, hc⟩ := h.engineStep_completes hp
    refine .step (t := t) ?_ (.now hc.busy _)
    rw [step_of_nil hs, fairTurn_of_pending hp]
    exact ht
  | cons a rest ih =>
    have hr : Inv { s with schedule := rest } := h.withSchedule rest
    cases a with
    | engine =>
      obtain ⟨t, ht, hc⟩ := hr.engineStep_completes hp
      exact .step ((step_of_cons hs).trans ht) (.now hc.busy _)
    | reset => exact .step (step_of_cons hs) (.now rfl _)
    | host =>
      obtain ⟨dp, ep, de, ee, x, ops, ans, n, ht⟩ := hostCannotDisturbAPendingCommand { s with schedule := rest } hb
      refine .step (step_of_cons hs) (ih (hostStep_inv hr) ?_ ?_ ?_) <;> rw [ht]
      · exact hb
      · exact hp

/-- Settles O57: by induction on the schedule, at whose end the engine moves first. -/
theorem pendingCommandIsCompleted : Obligations.PendingCommandIsCompleted :=
  fun _ => Inv.goesIdleWithin

/-! ### A STATUS read and a completion (R246) -/

/-- A STATUS read in the host's turn is answered at once, whether or not a command is pending (R81). -/
theorem step_statusRead {turns : List Turn} {rest : List HostOp} (hs : s.schedule = .host :: turns)
    (hh : s.held = none) (ho : s.hostOps = .r32 0x0008 :: rest) :
    ∃ t, step s = .next t ∧ t.answers = ⟨.okay, some (.b4 s.statusWord)⟩ :: s.answers :=
  ⟨_, step_of_cons hs, (readsAs_csr (s := { s with schedule := turns }) .status rfl (.inr rfl)).r32_answers hh ho⟩

/-- Settles O22: the word read is that of the state before the host's turn, which the engine's turn makes idle
and done. -/
theorem bothStatusOrdersAreAdmitted : Obligations.BothStatusOrdersAreAdmitted := by
  intro s w rest h hp hh ho
  refine ⟨?readFirst, ?completionFirst⟩
  case readFirst =>
    obtain ⟨hdone, -⟩ := h.busy_clear w hp
    obtain ⟨t, ht, hans⟩ := step_statusRead (s := { s with schedule := [.host] }) rfl hh ho
    exact ⟨t, _, ht, hans, (statusWord_busy _).trans ((busy_eq_true _).2 ⟨w, hp⟩), (statusWord_done _).trans hdone⟩
  case completionFirst =>
    obtain ⟨t, ht, hc⟩ := (h.withSchedule [.host]).engineStep_completes hp
    have hstep : step { s with schedule := [.engine, .host] } = .next t := ht
    obtain ⟨u, hu, hans⟩ := step_statusRead hc.schedule (hc.held.trans hh) (hc.hostOps.trans ho)
    exact ⟨t, u, _, hstep, hu, hc.answers ▸ hans, (statusWord_busy t).trans hc.busy,
      (statusWord_done t).trans hc.done⟩

/-! ### CLRFREQ, COUNT, BUILD, DERIVE, ENCODE (R251) -/

/-- The tree BUILD leaves is that of its FREQ (R29). -/
theorem treeCurrent_builtState (h : freqSum s.freq 256 ≤ Config.countMax) : TreeCurrent (builtState s) :=
  ⟨h, s.node, rfl, rfl, rfl, rfl⟩

/-- A symbol of the input is present in the histogram of the input (R123). -/
theorem freq_ne_zero_of_mem {f : Vector Word 256} {l : List Byte} (h : ∀ y, (tableGet f y).toNat = l.count y)
    {y : Byte} (hy : y ∈ l) : tableGet f y ≠ 0 := by
  intro hz
  have hcount : l.count y = 0 := by rw [← h y, hz]; rfl
  exact List.count_eq_zero.1 hcount hy

/-- Codes of at most `n` bits make a stream of at most `n` bits a symbol. -/
theorem codeStream_length_le {c : CodeTable} {ys : List Byte} {n : Nat} (h : ∀ y ∈ ys, (tableGet c y).length ≤ n) :
    (codeStream c ys).length ≤ n * ys.length := by
  rw [codeStream_length, Nat.mul_comm, ← smul_eq_mul, ← List.length_map (fun y => (tableGet c y).length)]
  exact List.sum_le_card_nsmul _ _ (List.forall_mem_map.2 h)

/-- ENCODE over symbols that all have codes succeeds or runs out of room (R170). -/
theorem exec_encode_coded (hv : s.codesValid = true) (hr : s.srcLen.toNat ≤ s.ibufSize)
    (hc : ∀ y ∈ s.inputBytes, tableGet s.code y ≠ []) :
    ∃ t, exec .encode s = .next t ∧ (t.err = true → t.errCode = 8) ∧
      ((codeStream s.code s.inputBytes).length ≤ 8 * s.obufSize → t.err = false) := by
  by_cases hfit : (codeStream s.code s.inputBytes).length ≤ 8 * s.obufSize
  · exact ⟨_, exec_encode_ok hv hr hc hfit, nofun, fun _ => rfl⟩
  · rcases exec_encode_cases s with ⟨hv', -⟩ | ⟨-, hr', -⟩ | ⟨-, -, r, hp, -, he⟩ | ⟨-, -, -, -, hfit', -⟩
    · cases hv.symm.trans hv'
    · exact absurd hr' hr.not_gt
    · have hovf : r.error = .obufOvf := packSymbols_error_obufOvf _ _ _ _ _ hc hp
      exact ⟨_, he, fun _ => congrArg CmdError.code hovf, fun hfit' => absurd hfit' hfit⟩
    · exact absurd hfit' hfit

theorem exec_derive_builtState (h : freqSum s.freq 256 ≤ Config.countMax) :
    ∃ c, exec .derive (builtState s) = .next (completedOk { builtState s with code := c, codesValid := true }) ∧
      DerivedCodes (builtState s) c := by
  obtain ⟨c, hc, hcodes⟩ := (treeCurrent_builtState h).exists_derivedCodes
  exact ⟨c, exec_derive_ok rfl hc, hcodes⟩

/-- BUILD, DERIVE and ENCODE, when FREQ is the histogram of the input: each of its bytes gets a code, of at most
MAXCODE bits (R9). -/
theorem exec_build_derive_encode (hr : s.srcLen.toNat ≤ s.ibufSize)
    (hf : ∀ y, (tableGet s.freq y).toNat = s.inputBytes.count y) :
    ∃ c d e, exec .build s = .next c ∧ exec .derive c = .next d ∧ exec .encode d = .next e ∧
      c.err = false ∧ d.err = false ∧ d.codesValid = true ∧ (e.err = true → e.errCode = 8) ∧
      (255 * s.srcLen.toNat ≤ 8 * s.obufSize → e.err = false) := by
  have hsum : freqSum s.freq 256 ≤ Config.countMax := by
    rw [freqSum_of_histogram hf, inputBytes_length]
    exact Nat.le_sub_one_of_lt s.srcLen.isLt
  obtain ⟨c, hderive, hcodes⟩ := exec_derive_builtState hsum
  have hpresent {y : Byte} (hy : y ∈ s.inputBytes) : tableGet (builtState s).freq y ≠ 0 := freq_ne_zero_of_mem hf hy
  obtain ⟨e, hencode, hovf, hfit⟩ := exec_encode_coded
    (s := completedOk { builtState s with code := c, codesValid := true }) rfl hr fun y hy => hcodes.ne_nil (hpresent hy)
  refine ⟨_, _, e, exec_build_ok s hsum, hderive, hencode, rfl, rfl, rfl, hovf, fun hroom => hfit ?_⟩
  have hlen : (codeStream c s.inputBytes).length ≤ 255 * s.inputBytes.length :=
    codeStream_length_le fun y hy => hcodes.length_le (hpresent hy)
  rw [inputBytes_length] at hlen
  exact hlen.trans hroom

/-- Settles O49: CLRFREQ and COUNT leave the histogram of the input, which they do not change. -/
theorem compressSequenceNeedsOnlyRoom : Obligations.CompressSequenceNeedsOnlyRoom := by
  intro s hr
  obtain ⟨f, hcount, hf⟩ := exec_count_of_freq_zero (s := completedOk
    { s with freq := Vector.replicate 256 0, treeValid := false, codesValid := false }) hr (tableGet_replicate 0)
  obtain ⟨c, d, e, hbuild, hderive, hencode, hc, hd, hcodes, hovf, hroom⟩ := exec_build_derive_encode
    (s := completedOk { s with freq := f, treeValid := false, codesValid := false }) hr hf
  exact ⟨_, _, c, d, e, exec_clrfreq s, hcount, hbuild, hderive, hencode, rfl, rfl, hc, hd, hcodes, hovf, hroom⟩

/-! ### The reset event (R241 to R243) -/

theorem dropHeld_of_none (h : s.held = none) : dropHeld s = s := by
  simp only [dropHeld, h]

/-- Dropping the held access answers it, and does nothing to the block (R243). -/
theorem dropHeld_eq (s : State) : ∃ a m, dropHeld s = { s with held := none, answers := a, draws := m } ∧
    (s.held = none → a = s.answers) ∧ (s.held ≠ none → ∃ r, a = r :: s.answers) := by
  cases hh : s.held with
  | none => exact ⟨s.answers, s.draws, by rw [dropHeld_of_none hh, ← hh], fun _ => rfl, fun hne => absurd rfl hne⟩
  | some x => exact ⟨_, _, by rw [dropHeld, hh]; rfl, nofun, fun _ => ⟨_, rfl⟩⟩

/-- Settles O25: the held access is dropped first, and then every register of the block is written. -/
theorem resetEventGivesTheResetState : Obligations.ResetEventGivesTheResetState := by
  intro s rest hs
  obtain ⟨a, m, hdrop, ha⟩ := dropHeld_eq { s with schedule := rest }
  have hstep : step s = .next (resetBlock { s with schedule := rest, held := none, answers := a, draws := m }) := by
    rw [step_of_cons hs, stepTurn, resetEvent, hdrop]
  exact ⟨_, _, _, _, _, _, a, hstep, ha⟩

end Sys2Proof.Machine
